-- ==== Sys2Proof/Word.lean ====
section
/-! DEFINITION. The host's data word (R44, R60) and the type `Val` of samples and images in the hardware instance of
`NUM`: the finite IEEE 754 binary64 numbers (R8, R66). Rounding, the four operations and the encoding stand in
Machine/Arith.lean. -/

namespace Sys2Proof

/-- A host data word: 64 bits, bit 0 the least significant (R6, R44). -/
abbrev Word := BitVec 64

/-- The logarithm of `n` to the base 2, rounded down, for `n` below `2^(2^k)`: the upper half of the bits is looked at
first, so that `k` comparisons find it. -/
def log2Below : Nat → Nat → Nat
  | 0, _ => 0
  | k + 1, n => if n < 2 ^ 2 ^ k then log2Below k n else 2 ^ k + log2Below k (n / 2 ^ 2 ^ k)

/-- `Nat.log2`, in a form the kernel evaluates fast on the numbers the block computes with. -/
@[irreducible] def bitLog (n : Nat) : Nat := if n < 2 ^ 2 ^ 13 then log2Below 13 n else n.log2

theorem log2Below_eq (k : Nat) : ∀ n, n < 2 ^ 2 ^ k → log2Below k n = n.log2 := by
  induction k with
  | zero =>
    intro n hn
    have : n = 0 ∨ n = 1 := by norm_num at hn; omega
    rcases this with rfl | rfl <;> decide
  | succ k ih =>
    intro n hn
    unfold log2Below
    split
    · next h => exact ih n h
    · next h =>
      have hpos : 0 < 2 ^ 2 ^ k := by positivity
      have hq : n / 2 ^ 2 ^ k < 2 ^ 2 ^ k := by
        rw [Nat.div_lt_iff_lt_mul hpos, ← pow_add, ← two_mul, ← pow_succ']
        exact hn
      rw [ih _ hq]
      have h0 : n / 2 ^ 2 ^ k ≠ 0 := (Nat.div_pos (not_lt.1 h) hpos).ne'
      have hn0 : n ≠ 0 := by rintro rfl; simp at h0
      symm
      rw [Nat.log2_eq_iff hn0]
      have ⟨h1, h2⟩ := (Nat.log2_eq_iff h0).1 rfl
      constructor
      · rw [pow_add, mul_comm]
        exact (Nat.le_div_iff_mul_le hpos).1 h1
      · rw [add_assoc, pow_add, mul_comm]
        exact (Nat.div_lt_iff_lt_mul hpos).1 h2

@[simp] theorem bitLog_eq (n : Nat) : bitLog n = n.log2 := by
  unfold bitLog
  split
  · next h => exact log2Below_eq 13 n h
  · rfl

/-- Every finite binary64 number is a whole multiple of 2^-1074, the smallest positive one (R66 with `e = 0`, `f = 1`).
A `Val` counts those units. -/
@[irreducible] def Val.unitBits : Nat := 1074

/-- How many units make 1. -/
def Val.unitsPerOne : Nat := 2 ^ Val.unitBits

/-- 2^1024, the least magnitude above every finite binary64 number, is 2^2098 units. -/
@[irreducible] def Val.magBits : Nat := 2098

/-- The least magnitude, in units, that is no finite binary64 number any more: 2^1024. -/
def Val.magLimit : Nat := 2 ^ Val.magBits

/-- `u` units are a finite binary64 number: below 2^1024 in magnitude, and with at most 53 significant bits (the 52 bits
of the fraction and the leading one, R66). -/
abbrev Val.Fits (u : Int) : Prop :=
  u.natAbs < Val.magLimit ∧ u.natAbs % 2 ^ (bitLog u.natAbs - 52) = 0

/-- The values of the hardware instance of `NUM` (R8): finite, no not-a-number, one zero (decisions D2, D3, D4). -/
structure Val where
  /-- the number, counted in units of 2^-1074 -/
  units : Int
  /-- it is a finite binary64 number -/
  fits : Val.Fits units
  deriving DecidableEq, Repr

/-- The number a `Val` stands for, as an exact rational. Used by statements, never by the machine. -/
def Val.toRat (v : Val) : ℚ := (v.units : ℚ) / (Val.unitsPerOne : ℚ)

/-- `u` units as a `Val` where that is a finite binary64 number. -/
def Val.ofUnits (u : Int) : Option Val :=
  if h : Val.Fits u then some ⟨u, h⟩ else none

/-- The strict order of `NUM`, `x < y` (R8). -/
def Val.lt (x y : Val) : Bool := decide (x.units < y.units)

/-- A multiple `m * 2^k` with `m` of at most 32 bits has at most 53 significant bits. -/
theorem Val.significant_mul_two_pow {m k : Nat} (hm : m ≤ 2 ^ 31) :
    m * 2 ^ k < 2 ^ (k + 32) ∧ m * 2 ^ k % 2 ^ ((m * 2 ^ k).log2 - 52) = 0 := by
  have hlt : m * 2 ^ k < 2 ^ (k + 32) := by
    rw [pow_add, Nat.mul_comm]
    exact (Nat.mul_lt_mul_left (Nat.two_pow_pos k)).2 (lt_of_le_of_lt hm (by norm_num))
  refine ⟨hlt, Nat.mod_eq_zero_of_dvd (Dvd.dvd.mul_left (Nat.pow_dvd_pow 2 ?_) m)⟩
  rcases Nat.eq_zero_or_pos m with rfl | hpos
  · simp
  · have := (Nat.log2_lt (Nat.mul_pos hpos (Nat.two_pow_pos k)).ne').2 hlt
    omega

/-- A 32-bit integer has at most 32 significant bits, so `ofInt` is exact (R8). -/
theorem Val.fits_ofInt (n : BitVec 32) : Val.Fits (n.toInt * (Val.unitsPerOne : Int)) := by
  have hb : n.toInt.natAbs ≤ 2 ^ 31 := by
    have h1 := BitVec.le_toInt n
    have h2 := BitVec.toInt_lt (x := n)
    norm_num at h1 h2
    omega
  have hm : (n.toInt * (Val.unitsPerOne : Int)).natAbs = n.toInt.natAbs * 2 ^ Val.unitBits := by
    rw [Int.natAbs_mul, Int.natAbs_natCast, Val.unitsPerOne]
  have h := Val.significant_mul_two_pow (k := Val.unitBits) hb
  have hbits : Val.unitBits + 32 < Val.magBits := by
    rw [Val.unitBits, Val.magBits]
    norm_num
  unfold Val.Fits
  rw [hm, bitLog_eq]
  exact ⟨h.1.trans (Nat.pow_lt_pow_right Nat.one_lt_two hbits), h.2⟩

/-- `ofInt` of `NUM` on the 32-bit integers the block holds (R8, R64): exact. -/
def Val.ofInt (n : BitVec 32) : Val := ⟨n.toInt * (Val.unitsPerOne : Int), Val.fits_ofInt n⟩

/-- The one zero (D4). -/
def Val.zero : Val := Val.ofInt 0

/-- The number 1. -/
def Val.one : Val := Val.ofInt 1

end Sys2Proof
end

