-- ==== Sys2Proof/Syntax.lean ====
section
/-! DEFINITION. The instructions of the block, one constructor per row of spec/opcode_table.json, and the two kinds of
code word it decodes (R60 to R63). -/

namespace Sys2Proof

/-- The commands (format C, R61) and the stage codes (format S, R62). No operation has operand fields: its operands are
the operand registers and the previous artifact (R60). -/
inductive Instr where
  | start                            -- START, CMD 1 (R80)
  | clear                            -- CLEAR, CMD 2 (R81)
  | reservedCmd (code : BitVec 4)    -- RESERVED_CMD, CMD 0 and 3 to F (R67, R82)
  | idle                             -- IDLE, stage code 0 (R83)
  | chk                              -- CHK, stage code 1 (R84)
  | blc                              -- BLC, stage code 2 (R100)
  | dem                              -- DEM, stage code 3 (R113)
  | wbs                              -- WBS, stage code 4 (R130)
  | cct                              -- CCT, stage code 5 (R140)
  | gam                              -- GAM, stage code 6 (R150)
  | endStage                         -- END, stage code 7 (R83)
  deriving DecidableEq, Repr

/-- What the block decodes (R60): the data word of a write to register 0x00, or the field STATUS.STAGE. The carrier, not
a bit of the word, tells which. -/
inductive Code where
  | command (d : Word)
  | stage (c : BitVec 3)
  deriving DecidableEq, Repr

end Sys2Proof
end

