-- ==== Sys2Proof/WellFormed.lean ====
section
/-! DEFINITION. Which terms of `Instr` stand for an instruction of the block. -/

namespace Sys2Proof

/-- The only field an instruction holds is the code of a reserved command: any CMD but those of START and CLEAR (R61,
R67). -/
def Instr.wf : Instr → Bool
  | .start => true
  | .clear => true
  | .reservedCmd code => code != 1 && code != 2
  | .idle => true
  | .chk => true
  | .blc => true
  | .dem => true
  | .wbs => true
  | .cct => true
  | .gam => true
  | .endStage => true

end Sys2Proof
end

