-- ==== Sys2Proof/Decode.lean ====
section
/-! DEFINITION. The decoder of command words and stage codes, total on both formats (R63), the reading of a numbered
word as one of the two, and the encoder. -/

namespace Sys2Proof

/-- CMD, bits [3:0] of a command word; bits [63:4] are not decoded (R61). -/
def cmdField (d : Word) : BitVec 4 := d.extractLsb' 0 4

/-- Format C (R61, R63): 1 is START, 2 is CLEAR, anything else is a reserved command. -/
def decodeCommand (d : Word) : Instr :=
  if cmdField d = 1 then .start
  else if cmdField d = 2 then .clear
  else .reservedCmd (cmdField d)

/-- Format S (R62): all eight codes are used; 7 is the one the last arm is left with. -/
def decodeStage (c : BitVec 3) : Instr :=
  match c.toNat with
  | 0 => .idle
  | 1 => .chk
  | 2 => .blc
  | 3 => .dem
  | 4 => .wbs
  | 5 => .cct
  | 6 => .gam
  | _ => .endStage

/-- The decoder of both formats: every code word has a meaning (R63). -/
def decode : Code → Instr
  | .command d => decodeCommand d
  | .stage c => decodeStage c

/-- The encoder, from the tables of R61 and R62: the ignored bits of a command word are 0. -/
def encode : Instr → Code
  | .start => .command 0x1
  | .clear => .command 0x2
  | .reservedCmd code => .command (code.setWidth 64)
  | .idle => .stage 0
  | .chk => .stage 1
  | .blc => .stage 2
  | .dem => .stage 3
  | .wbs => .stage 4
  | .cct => .stage 5
  | .gam => .stage 6
  | .endStage => .stage 7

/-- Why a numbered word is not read as a code word of the block. -/
inductive DecodeError where
  /-- `w` has a bit at or above bit `nbits` -/
  | widerThanGiven
  /-- `nbits` is more than the 64 bits of the longest code word (R61) -/
  | noSuchFormat
  deriving DecidableEq, Repr

/-- A word of `nbits` bits read as a code word. DESIGN CHOICE (log entry 17): the block tells its two formats apart by
their carrier, and a bare number has none; a word of at most 8 bits that is a stage code is read as one, every other as a
command word, its bits above `nbits` zero. Safe: the machine itself never uses this reading. -/
def readCode (nbits w : Nat) : Except DecodeError Code :=
  if 64 < nbits then .error .noSuchFormat
  else if 2 ^ nbits ≤ w then .error .widerThanGiven
  else if nbits ≤ 8 ∧ w < 8 then .ok (.stage (BitVec.ofNat 3 w))
  else .ok (.command (BitVec.ofNat 64 w))

/-- The instruction the decoder reads from a word numbered as spec/opcode_table.json numbers its bits. -/
def decodeTableWord (nbits w : Nat) : Option Instr :=
  match readCode nbits w with
  | .ok c => some (decode c)
  | .error _ => none

end Sys2Proof
end

