-- ==== Sys2Proof/Config.lean ====
section
/-! DEFINITION. What an implementation fixes and what the spec leaves open: the number system record `NUM` (R8) with its
named properties (R9), the gamma function (R154), the free words (R29, R51) and the constants of R5. -/

namespace Sys2Proof

/-- The number system of the block (R8), over the type `V` of its values. An operation answers `none` where its result is
not a finite value of `V`: a run that forms one has no meaning (U3). `ofInt` is applied only to 32-bit integers and 1024.
`half` and `quarter` are fields as in R8; that they are the quotients R8 names is a law of each instance. The fields
`enc` and `dec` of R8 belong to the host port and stand in Machine/Arith.lean for the hardware instance only: no
operation uses them (R66). -/
structure Num (V : Type) where
  zero : V
  one : V
  half : V
  quarter : V
  ofInt : BitVec 32 → V
  add : V → V → Option V
  sub : V → V → Option V
  mul : V → V → Option V
  div : V → V → Option V
  lt : V → V → Bool
  /-- the exact test `x == zero` of R150 and R151 -/
  isZero : V → Bool
  gpow : V → V

/-- `x ≤ y` in the total order of `NUM`: not `y < x`. -/
def Num.Le {V : Type} (N : Num V) (x y : V) : Prop := N.lt y x = false

/-- P1, zero absorbs (R9). -/
def Num.ZeroAbsorbs {V : Type} (N : Num V) : Prop :=
  (∀ x, N.mul (N.ofInt 0) x = some N.zero) ∧ (∀ x, N.mul x N.zero = some N.zero)
  ∧ (∀ x, N.mul N.zero x = some N.zero) ∧ N.add N.zero N.zero = some N.zero
  ∧ (∀ x, N.sub x x = some N.zero) ∧ (∀ d, d ≠ N.zero → N.div N.zero d = some N.zero)

/-- P2, neutral elements (R9). -/
def Num.NeutralElements {V : Type} (N : Num V) : Prop :=
  (∀ x, N.add x N.zero = some x) ∧ (∀ x, N.add N.zero x = some x) ∧ (∀ x, N.sub x N.zero = some x)
  ∧ (∀ x, N.mul x N.one = some x) ∧ (∀ x, N.mul N.one x = some x)

/-- P3, the scale cancels, as long as the product does not overflow (R9). -/
def Num.ScaleCancels {V : Type} (N : Num V) : Prop :=
  N.div (N.ofInt 1024) (N.ofInt 1024) = some N.one
  ∧ ∀ x y, N.mul (N.ofInt 1024) x = some y → N.div y (N.ofInt 1024) = some x

/-- P4, self-division (R9). -/
def Num.SelfDivision {V : Type} (N : Num V) : Prop :=
  ∀ x, x ≠ N.zero → N.div x x = some N.one

/-- P5, order (R9): `lt` is a strict total order, zero is below one, and a quotient of a value by a value at least as
large lies between zero and one. -/
def Num.Ordered {V : Type} (N : Num V) : Prop :=
  (∀ x, N.lt x x = false) ∧ (∀ x y z, N.lt x y = true → N.lt y z = true → N.lt x z = true)
  ∧ (∀ x y, x ≠ y → N.lt x y = true ∨ N.lt y x = true) ∧ N.lt N.zero N.one = true
  ∧ ∀ x d, N.lt N.zero d = true → N.Le N.zero x → N.Le x d →
      ∃ q, N.div x d = some q ∧ N.Le N.zero q ∧ N.Le q N.one

/-- P6, gamma function (R9, R154). -/
def Num.GammaProperties {V : Type} (N : Num V) : Prop :=
  N.gpow N.zero = N.zero ∧ N.gpow N.one = N.one
  ∧ (∀ a b, N.Le N.zero a → N.lt a b = true → N.Le b N.one → N.Le (N.gpow a) (N.gpow b))
  ∧ ∀ x, N.Le N.zero x → N.Le x N.one → N.Le N.zero (N.gpow x) ∧ N.Le (N.gpow x) N.one

/-- The left side of P7 (R9): `x ⊗ (ofInt(kg) ⊘ ofInt(1024))`, with `kg` the integer `k·g`. -/
def Num.scaleOnce {V : Type} (N : Num V) (x : V) (kg : BitVec 32) : Option V :=
  (N.div (N.ofInt kg) (N.ofInt 1024)).bind fun q => N.mul x q

/-- The right side of P7 (R9): `ofInt(k) ⊗ (x ⊗ (ofInt(g) ⊘ ofInt(1024)))`. -/
def Num.scaleTwice {V : Type} (N : Num V) (x : V) (k g : BitVec 32) : Option V :=
  (N.scaleOnce x g).bind fun y => N.mul (N.ofInt k) y

/-- P7, homogeneity of scaling by a gain (R9), as the rational instance has it: for all 32-bit integers of which `kg` is the
product `k·g`. -/
def Num.Homogeneous {V : Type} (N : Num V) : Prop :=
  ∀ (k g kg : BitVec 32) (x : V), kg.toInt = k.toInt * g.toInt → N.scaleOnce x kg = N.scaleTwice x k g

/-- Both sides of P7 come to `l` and `r` without rounding: each operation's result is the exact one, under the number
`value` that a value of `NUM` stands for. -/
def Num.Unrounded {V : Type} (N : Num V) (value : V → ℚ) (k g kg : BitVec 32) (x l r : V) : Prop :=
  ∃ a b y, N.div (N.ofInt kg) (N.ofInt 1024) = some a ∧ value a = (kg.toInt : ℚ) / 1024
    ∧ N.mul x a = some l ∧ value l = value x * value a
    ∧ N.div (N.ofInt g) (N.ofInt 1024) = some b ∧ value b = (g.toInt : ℚ) / 1024
    ∧ N.mul x b = some y ∧ value y = value x * value b
    ∧ N.mul (N.ofInt k) y = some r ∧ value r = (k.toInt : ℚ) * value y

/-- P7 as the binary64 instance has it (R9): whenever both sides are computed without rounding they are equal. -/
def Num.HomogeneousUnrounded {V : Type} (N : Num V) (value : V → ℚ) : Prop :=
  ∀ (k g kg : BitVec 32) (x l r : V), kg.toInt = k.toInt * g.toInt → N.Unrounded value k g kg x l r → l = r

/-- A realisation of `GAMMA_FN` on binary64 numbers that is admissible by R154: it has exactly the properties P6. -/
structure GammaFn where
  fn : Val → Val
  at_zero : fn Val.zero = Val.zero
  at_one : fn Val.one = Val.one
  mono : ∀ a b : Val, 0 ≤ a.units → a.units ≤ b.units → b.units ≤ Val.one.units → (fn a).units ≤ (fn b).units

/-- P6 can be met: the identity does. -/
def GammaFn.identity : GammaFn := ⟨id, rfl, rfl, fun _ _ _ h _ => h⟩

/-- A realisation of `GAMMA_FN` on the rationals (R154): an uninterpreted function with exactly the properties P6. -/
structure RationalGammaFn where
  fn : ℚ → ℚ
  at_zero : fn 0 = 0
  at_one : fn 1 = 1
  mono : ∀ a b : ℚ, 0 ≤ a → a ≤ b → b ≤ 1 → fn a ≤ fn b

/-- P6 can be met on the rationals: the identity does. -/
def RationalGammaFn.identity : RationalGammaFn := ⟨id, rfl, rfl, fun _ _ _ h _ => h⟩

/-- FREE VALUE (log entry 9): the block's gamma function. It has no body: of its values nothing can be proved but P6,
which its type carries. The argument in brackets only says that there are functions with P6. -/
opaque Config.gammaFn [Inhabited GammaFn] : GammaFn

/-- `gpow` of the hardware instance (R8, R154, D25). -/
def Config.gpow : Val → Val := (@Config.gammaFn ⟨GammaFn.identity⟩).fn

/-- FREE VALUE (log entry 10): the unspecified data words of R29 and R51, one per draw. It has no body. -/
opaque Config.freeWord : Nat → Word

/-- `NCH`, the number of colour channels (R5). -/
def Config.nch : Nat := 3

/-- `SCALE` (R5, D8), as the integer the operations divide by. -/
def Config.scale : BitVec 32 := 1024

/-- `CCM_DEFAULT` (R5, R17): the identity matrix, row-major. -/
def Config.ccmDefault : Vector (BitVec 32) 9 := #v[1024, 0, 0, 0, 1024, 0, 0, 0, 1024]

end Sys2Proof
end

