-- ==== Sys2Proof/Machine/Arith.lean ====
section
/-! DEFINITION. The two named instances of `NUM` (R8): IEEE 754 binary64 with round to nearest, ties to even, restricted
to finite results, and the exact rationals, each with a `gpow` that has P6 (R154); and the encoding of a `Val` in a data word (R66). -/

namespace Sys2Proof

/-- `n / d` rounded to the nearest whole number, ties to the even one. -/
def roundHalfEven (n d : Nat) : Nat :=
  if 2 * (n % d) < d then n / d
  else if d < 2 * (n % d) then n / d + 1
  else if n / d % 2 = 0 then n / d
  else n / d + 1

/-- A magnitude of `n / d` units rounded to 53 significant bits: in the binade of `n / d` the numbers lie `2^k` units
apart, and one unit apart below `2^53` units, where the subnormal numbers are. -/
def roundMagnitude (n d : Nat) : Nat :=
  let k := bitLog (n / d) - 52
  roundHalfEven n (d * 2 ^ k) * 2 ^ k

/-- `n / d` units rounded to a `Val`; `none` where the rounded result is not finite (U3). -/
def Val.round (n : Int) (d : Nat) : Option Val :=
  Val.ofUnits (n.sign * (roundMagnitude n.natAbs d : Int))

/-- `x ⊕ y`: the exact sum, rounded (R8). -/
def Val.add (x y : Val) : Option Val := Val.round (x.units + y.units) 1

/-- `x ⊖ y`: the exact difference, rounded (R8). -/
def Val.sub (x y : Val) : Option Val := Val.round (x.units - y.units) 1

/-- `x ⊗ y`: the exact product, rounded (R8). -/
def Val.mul (x y : Val) : Option Val := Val.round (x.units * y.units) Val.unitsPerOne

/-- `x ⊘ y`: the exact quotient, rounded (R8). It is only ever applied with a divisor that is not zero; with zero it has
no result (log entry 18). -/
def Val.div (x y : Val) : Option Val :=
  if y.units = 0 then none
  else Val.round (x.units * y.units.sign * (Val.unitsPerOne : Int)) y.units.natAbs

/-- 1/2. -/
def Val.half : Val := ⟨(2 ^ (Val.unitBits - 1) : Nat), by decide +kernel⟩

/-- 1/4. -/
def Val.quarter : Val := ⟨(2 ^ (Val.unitBits - 2) : Nat), by decide +kernel⟩

/-- `enc` (R66): sign, biased exponent and fraction of the binary64 interchange format. A magnitude below `2^52` units has
exponent field 0 and is its own fraction; where neighbours lie `2^k` units apart it is `k + 1`. -/
def Val.enc (v : Val) : Word :=
  let m := v.units.natAbs
  let k := bitLog m - 52
  let body := if m < 2 ^ 52 then m else (k + 1) * 2 ^ 52 + (m / 2 ^ k - 2 ^ 52)
  BitVec.ofNat 64 (if v.units < 0 then 2 ^ 63 + body else body)

/-- `dec` (R66): none for the words with exponent field 2047. Both words with `e = 0` and `f = 0` give the one zero. -/
def Val.dec (d : Word) : Option Val :=
  let e := (d.extractLsb' 52 11).toNat
  let f := (d.extractLsb' 0 52).toNat
  let m := if e = 0 then f else (2 ^ 52 + f) * 2 ^ (e - 1)
  if e = 2047 then none
  else Val.ofUnits (if d.getLsbD 63 then -(m : Int) else (m : Int))

/-- The hardware instance of `NUM` (R8). -/
def Num.binary64 : Num Val where
  zero := Val.zero
  one := Val.one
  half := Val.half
  quarter := Val.quarter
  ofInt := Val.ofInt
  add := Val.add
  sub := Val.sub
  mul := Val.mul
  div := Val.div
  lt := Val.lt
  isZero v := decide (v = Val.zero)
  gpow := Config.gpow

/-- The exact rational arithmetic of the reference instance (R8), with any function for `gpow`: P1 to P5 and P7 ask nothing
of it, so a law of this record is one of the reference instance. -/
def Num.rational (g : ℚ → ℚ) : Num ℚ where
  zero := 0
  one := 1
  half := 1 / 2
  quarter := 1 / 4
  ofInt n := n.toInt
  add x y := some (x + y)
  sub x y := some (x - y)
  mul x y := some (x * y)
  div x y := if y = 0 then none else some (x / y)
  lt x y := decide (x < y)
  isZero x := decide (x = 0)
  gpow := g

/-- The reference instance of `NUM` (R8, R9): its `gpow` is an uninterpreted function with properties P6 (R154, log entry
9). -/
def Num.reference (g : RationalGammaFn) : Num ℚ := Num.rational g.fn

end Sys2Proof
end

