-- ==== Sys2Proof/Machine/State.lean ====
section
/-! DEFINITION. The state of the block (R10) as plain data, the ways a step can stop, and the state after reset (R28). -/

namespace Sys2Proof.Machine

/-- STATUS, register 0x01 (R20). Its reserved bits are not stored: they read 0. `stage` is STAGE, the program counter
(R22). -/
structure Status where
  busy : Bool
  done : Bool
  err : Bool
  stage : BitVec 3
  deriving DecidableEq, Repr

/-- ERRINFO, register 0x02 (R21). Its reserved bits are not stored: they read 0. -/
structure ErrInfo where
  code : BitVec 2
  estage : BitVec 3
  deriving DecidableEq, Repr

/-- One of the spaces RAW and OUT (R40): the elements that hold a value, by element index, indices strictly rising. The
element is the smallest unit any access moves (R43, R46). An index that is not listed holds no value (R28, R29): log
entry 5. -/
abbrev Memory := List (Nat × Val)

/-- What an element that is not listed reads as: no value (R28, R29). -/
def Memory.unlisted : Option Val := none

/-- The canonical form: indices strictly rising. No entry can equal what an unlisted element reads as, since an entry
holds a value. -/
abbrev Memory.wf (m : Memory) : Prop := m.Pairwise fun a b => a.1 < b.1

/-- The element an RMEM reads: as many index bits as the space has (R44, R47). -/
inductive ReadTarget where
  | raw (i : BitVec 32)
  | out (i : BitVec 34)
  deriving DecidableEq, Repr

/-- What happens next in the one total order of R49: a host transaction (R44), a reset from outside (R190), a turn of the
sequencer (R83), or a loop of the host script notation (R72, R73). Log entries 1, 15, 19. -/
inductive Event where
  /-- WREG(n, d) -/
  | wreg (n : BitVec 5) (d : Word)
  /-- RREG(n) -/
  | rreg (n : BitVec 5)
  /-- WMEM(i, d): always to RAW -/
  | wmem (i : BitVec 32) (d : Word)
  /-- RMEM(s, i) -/
  | rmem (t : ReadTarget)
  /-- the reset input (R190) -/
  | reset
  /-- the mark `step`: the sequencer has its turn (R72) -/
  | seq
  /-- the mark `run`: the sequencer steps until STATUS.BUSY = 0 (R72) -/
  | run
  /-- `wait`: read STATUS until the word read has BUSY = 0, the sequencer stepping in between (R73) -/
  | wait
  deriving DecidableEq, Repr

/-- The state of the block: everything R10 lists, and four fields of the model's own at the end. -/
structure State where
  /-- HEIGHT, 0x03 (R11) -/
  height : BitVec 16
  /-- WIDTH, 0x04 (R12) -/
  width : BitVec 16
  /-- CFA, 0x05 (R14) -/
  cfa : BitVec 8
  /-- BL0 .. BL3, 0x08 .. 0x0B (R15) -/
  bl : Vector Val 4
  /-- WB0 .. WB2, 0x0C .. 0x0E (R16), as two's complement patterns -/
  wb : Vector (BitVec 32) 3
  /-- CCM0 .. CCM8, 0x10 .. 0x18 (R17), as two's complement patterns -/
  ccm : Vector (BitVec 32) 9
  /-- STATUS (R20), STAGE in it (R22) -/
  status : Status
  /-- ERRINFO (R21) -/
  errinfo : ErrInfo
  /-- the RAW space (R40, R41) -/
  raw : Memory
  /-- the OUT space (R40, R42) -/
  out : Memory
  /-- `art.BLC` (R24): element `[r][c]` at `r * W + c` -/
  artBlc : List Val
  /-- `art.DEM` (R24): element `[r][c][ch]` at `(r * W + c) * 3 + ch` -/
  artDem : List Val
  /-- `art.WBS` (R24), laid out as `artDem` -/
  artWbs : List Val
  /-- `art.CCT` (R24), laid out as `artDem` -/
  artCct : List Val
  /-- `art.GMAX` (R25) -/
  gmax : Val
  /-- model's own (log entry 1): what happens next, in the order of R49 -/
  agenda : List Event
  /-- model's own (log entry 11): the data word the last RREG or RMEM returned to the host (R44) -/
  reply : Word
  /-- model's own (log entry 10): how many unspecified words have been drawn -/
  draws : Nat
  /-- model's own (log entry 4): the register numbers a host write has given a value since reset (R29) -/
  written : Vector Bool 32
  deriving DecidableEq, Repr

/-- A fault: the machine stops. The block's own three errors (R170) are no faults of the model: they are next states. -/
inductive Fault where
  /-- Raised by DEM, WBS, CCT and GAM where the artifact they read does not hold an element of the frame. R24: an
  artifact is never read before it is written, so no reachable state raises it. Safe: the machine stops (log entry 12). -/
  | artifactNoValue
  deriving DecidableEq, Repr

/-- A refusal: the model gives the step no meaning. -/
inductive Refusal where
  /-- Raised by `exec` for an instruction that has no meaning in the model. Safe. -/
  | notModelled (mnemonic : String)
  /-- Raised by CHK, BLC, DEM, WBS, CCT and GAM where an operand register the operation reads, the one of this number,
  holds no value: no host write has reached it since reset, and the run has no meaning (R29, R192, U1). Safe (log entry
  27). -/
  | registerNoValue (number : BitVec 5)
  /-- Raised by BLC where RAW element `index` of the frame holds no value: the run has no meaning (R29, U1). Safe. -/
  | rawNoValue (index : Nat)
  /-- Raised by BLC, DEM, WBS, CCT and GAM where the result of an operation of `NUM` is not finite: the run has no
  meaning (R8, U3, D3). Safe. -/
  | notFinite
  deriving DecidableEq, Repr

/-- The state after reset (R28, R190). HEIGHT, WIDTH, CFA, BL0..BL3, WB0..WB2 and GMAX have no value in the spec and are
zero here: DESIGN CHOICE (log entries 3 and 13). No run and no host read sees these zeros (R29, log entries 4 and 27). -/
def State.reset : State where
  height := 0
  width := 0
  cfa := 0
  bl := .replicate 4 Val.zero
  wb := .replicate 3 0
  ccm := Config.ccmDefault
  status := { busy := false, done := false, err := false, stage := 0 }
  errinfo := { code := 0, estage := 0 }
  raw := []
  out := []
  artBlc := []
  artDem := []
  artWbs := []
  artCct := []
  gmax := Val.zero
  agenda := []
  reply := 0
  draws := 0
  written := .replicate 32 false

end Sys2Proof.Machine
end

