-- ==== Sys2Proof/Machine/Ops.lean ====
section
/-! DEFINITION. The operations the meanings share: sequencing of results, the traversal of a frame, reading and writing
the element spaces and the artifacts, free draws, error entry (R174), return (R177, R81), completion (R85) and the
advance of the stage (R83). -/

namespace Sys2Proof.Machine

/-- Go on with the value of a result; a fault or a refusal ends the operation. -/
def andThen {α β φ ρ : Type} (o : Host.Outcome α φ ρ) (f : α → Host.Outcome β φ ρ) : Host.Outcome β φ ρ :=
  match o with
  | .next a => f a
  | .fault r => .fault r
  | .refused r => .refused r

/-- The result of an operation of `NUM`: a run that forms a value that is not finite is refused (R8, U3, D3; log entry
8). -/
def finite {V : Type} (o : Option V) : Host.Outcome V Fault Refusal :=
  match o with
  | some v => .next v
  | none => .refused .notFinite

/-- The results of `f k, f (k + 1), …, f (k + n - 1)`, or the first stop among them. The iterations of every operation are
independent (R7, R100 (f), R117), so the order shows only in which stop is named (log entry 25). -/
def collect {α φ ρ : Type} (f : Nat → Host.Outcome α φ ρ) : Nat → Nat → Host.Outcome (List α) φ ρ
  | _, 0 => .next []
  | k, n + 1 => andThen (f k) fun v => andThen (collect f (k + 1) n) fun vs => .next (v :: vs)

/-- MemRead(space, i) (R7): the value of element `i`, if it holds one. -/
def Memory.read : Memory → Nat → Option Val
  | [], _ => Memory.unlisted
  | (j, w) :: m, i => if i = j then some w else Memory.read m i

/-- MemWrite(space, i, v) (R7): element `i` becomes `v`; every other element keeps its value. -/
def Memory.write : Memory → Nat → Val → Memory
  | [], i, v => [(i, v)]
  | (j, w) :: m, i, v =>
    if i < j then (i, v) :: (j, w) :: m
    else if i = j then (i, v) :: m
    else (j, w) :: Memory.write m i v

/-- Elements `k`, `k + 1`, … become the listed values, one after the other. -/
def Memory.writeAll : Memory → Nat → List Val → Memory
  | m, _, [] => m
  | m, k, v :: vs => Memory.writeAll (m.write k v) (k + 1) vs

/-- Element `i` of an artifact (R24). -/
def artRead {V : Type} (a : List V) (i : Nat) : Host.Outcome V Fault Refusal :=
  match a[i]? with
  | some v => .next v
  | none => .fault .artifactNoValue

/-- An unspecified data word for the host (R29, R51): a fresh free word for each read. -/
def drawReply (s : State) : State :=
  { s with reply := Config.freeWord s.draws, draws := s.draws + 1 }

/-- The block's errors (R170). -/
inductive ErrorKind where
  | dimension | filterPattern | allZeroImage
  deriving DecidableEq, Repr

/-- ERRINFO.CODE of each error (R170). -/
def errorCode : ErrorKind → BitVec 2
  | .dimension => 1
  | .filterPattern => 2
  | .allZeroImage => 3

/-- Error entry, `raise E(S)` (R174): nothing else changes. -/
def raiseError (e : ErrorKind) (stage : BitVec 3) (s : State) : State :=
  { s with
    errinfo := { code := errorCode e, estage := stage }
    status := { busy := false, done := false, err := true, stage := 7 } }

/-- Return to IDLE from END, after an error and after a success alike (R177, R81). It restores nothing, because error
entry saved nothing. -/
def returnToIdle (s : State) : State :=
  { s with
    errinfo := { code := 0, estage := 0 }
    status := { s.status with done := false, err := false, stage := 0 } }

/-- Completion of a run (R85). -/
def complete (s : State) : State :=
  { s with status := { s.status with busy := false, done := true, stage := 7 } }

/-- `stage <- S` (R7, R83). -/
def toStage (stage : BitVec 3) (s : State) : State :=
  { s with status := { s.status with stage := stage } }

/-- The acceptance of a START (R80). -/
def beginRun (s : State) : State :=
  { s with
    errinfo := { code := 0, estage := 0 }
    status := { busy := true, done := false, err := false, stage := 1 } }

/-- Reset from outside (R190): the whole block is as after any reset. What is not the block's stays: the events still to
come, the word the host read last, the count of free draws (log entry 15). -/
def applyReset (s : State) : State :=
  { State.reset with agenda := s.agenda, reply := s.reply, draws := s.draws }

end Sys2Proof.Machine
end

