-- ==== Sys2Proof/Machine/Flags.lean ====
section
/-! DEFINITION. The data words of STATUS and ERRINFO (R20, R21). The block has no condition codes and no arithmetic flag:
no operation sets a flag as a side effect of arithmetic (R23), so there is no flag computation beside these. -/

namespace Sys2Proof.Machine

/-- The data word of STATUS (R20): BUSY [0], DONE [1], ERR [2], STAGE [6:4]; the reserved bits read 0. -/
def Status.word (t : Status) : Word :=
  (0 : BitVec 57) ++ t.stage ++ (0 : BitVec 1) ++ BitVec.ofBool t.err ++ BitVec.ofBool t.done ++ BitVec.ofBool t.busy

/-- The data word of ERRINFO (R21): CODE [1:0], ESTAGE [6:4]; the reserved bits read 0. -/
def ErrInfo.word (t : ErrInfo) : Word :=
  (0 : BitVec 57) ++ t.estage ++ (0 : BitVec 2) ++ t.code

end Sys2Proof.Machine
end

