-- ==== Sys2Proof/Machine/Operands.lean ====
section
/-! DEFINITION. The registers by number (10_state.md), how a data word becomes a stored operand and back (R64), and the
operand forms the operations use: the cells of CFA, the black level, the gain and the matrix entry of a channel; and which
registers each operation reads (R29). -/

namespace Sys2Proof.Machine

/-- The registers of the REG space that are not reserved numbers. -/
inductive Reg where
  | ctrl | status | errinfo | height | width | cfa
  | bl (n : Fin 4)
  | wb (n : Fin 3)
  | ccm (n : Fin 9)
  deriving DecidableEq, Repr

/-- The register a number names; none for the reserved numbers 0x06, 0x07, 0x0F and 0x19 to 0x1F (R11 to R21). -/
def Reg.ofNumber (n : BitVec 5) : Option Reg :=
  match n.toNat with
  | 0x00 => some .ctrl
  | 0x01 => some .status
  | 0x02 => some .errinfo
  | 0x03 => some .height
  | 0x04 => some .width
  | 0x05 => some .cfa
  | 0x08 => some (.bl 0)
  | 0x09 => some (.bl 1)
  | 0x0A => some (.bl 2)
  | 0x0B => some (.bl 3)
  | 0x0C => some (.wb 0)
  | 0x0D => some (.wb 1)
  | 0x0E => some (.wb 2)
  | 0x10 => some (.ccm 0)
  | 0x11 => some (.ccm 1)
  | 0x12 => some (.ccm 2)
  | 0x13 => some (.ccm 3)
  | 0x14 => some (.ccm 4)
  | 0x15 => some (.ccm 5)
  | 0x16 => some (.ccm 6)
  | 0x17 => some (.ccm 7)
  | 0x18 => some (.ccm 8)
  | _ => none

/-- The number of a register: CTRL 0x00 to CFA 0x05, BLn 0x08 + n, WBn 0x0C + n, CCMn 0x10 + n. -/
def Reg.number : Reg → BitVec 5
  | .ctrl => 0x00
  | .status => 0x01
  | .errinfo => 0x02
  | .height => 0x03
  | .width => 0x04
  | .cfa => 0x05
  | .bl n => BitVec.ofNat 5 (0x08 + n)
  | .wb n => BitVec.ofNat 5 (0x0C + n)
  | .ccm n => BitVec.ofNat 5 (0x10 + n)

/-- The 19 operand registers (section 2 of 10_state.md). -/
def Reg.isOperand : Reg → Bool
  | .ctrl => false
  | .status => false
  | .errinfo => false
  | .height => true
  | .width => true
  | .cfa => true
  | .bl _ => true
  | .wb _ => true
  | .ccm _ => true

/-- The register holds a value the spec gives it: it has a reset value (R28), or a host write has stored one since reset
(R29). -/
def Reg.hasValue (s : State) : Reg → Bool
  | .ctrl => true
  | .status => true
  | .errinfo => true
  | .height => s.written[Reg.height.number.toNat]
  | .width => s.written[Reg.width.number.toNat]
  | .cfa => s.written[Reg.cfa.number.toNat]
  | .bl n => s.written[(Reg.bl n).number.toNat]
  | .wb n => s.written[(Reg.wb n).number.toNat]
  | .ccm _ => true

/-- The data word an RREG of the register returns (R64; R19, R20, R21 for the control registers). -/
def Reg.word (s : State) : Reg → Word
  | .ctrl => 0
  | .status => s.status.word
  | .errinfo => s.errinfo.word
  | .height => s.height.setWidth 64
  | .width => s.width.setWidth 64
  | .cfa => s.cfa.setWidth 64
  | .bl n => s.bl[n].enc
  | .wb n => s.wb[n].setWidth 64
  | .ccm n => s.ccm[n].setWidth 64

/-- Note that a host write has given register `r` a value (R29, log entry 4). -/
def markWritten (r : Reg) (s : State) : State :=
  { s with written := s.written.set r.number.toNat true }

/-- The store of a WREG (R64): the low bits of the word; for a `Val` register `dec` of it, and no store where the word is
no `Val` (R66). The control registers store nothing. -/
def Reg.store (r : Reg) (d : Word) (s : State) : State :=
  match r with
  | .ctrl => s
  | .status => s
  | .errinfo => s
  | .height => markWritten r { s with height := d.extractLsb' 0 16 }
  | .width => markWritten r { s with width := d.extractLsb' 0 16 }
  | .cfa => markWritten r { s with cfa := d.extractLsb' 0 8 }
  | .bl n =>
    match Val.dec d with
    | some v => markWritten r { s with bl := s.bl.set n v }
    | none => s
  | .wb n => markWritten r { s with wb := s.wb.set n (d.extractLsb' 0 32) }
  | .ccm n => markWritten r { s with ccm := s.ccm.set n (d.extractLsb' 0 32) }

/-- `cfa(i, j)`, the channel index in cell `(i, j)` of a pattern (R7, R14): bits `[2(2i+j)+1 : 2(2i+j)]`. -/
def cfaCell (p : BitVec 8) (i j : Nat) : Fin 4 :=
  (p.extractLsb' (2 * (2 * i + j)) 2).toFin

/-- The channel of the parity cell of position `(r, c)` (R6, R14). -/
def cfaAt (p : BitVec 8) (r c : Nat) : Fin 4 := cfaCell p (r % 2) (c % 2)

/-- The four cells of a pattern: P00, P01, P10, P11 (R14). -/
def cfaCells (p : BitVec 8) : List (Fin 4) :=
  [cfaCell p 0 0, cfaCell p 0 1, cfaCell p 1 0, cfaCell p 1 1]

/-- The operand registers an instruction reads: the table under R18. Of the BL registers BLC reads those that the cells of
CFA select (R100), so a run that passes CHK does not read BL3 (R15, R192). A command reads none (R80). -/
def registersRead (i : Instr) (s : State) : List Reg :=
  match i with
  | .start => []
  | .clear => []
  | .reservedCmd _ => []
  | .idle => []
  | .chk => [.height, .width, .cfa]
  | .blc => [.height, .width, .cfa] ++ (cfaCells s.cfa).map Reg.bl
  | .dem => [.height, .width, .cfa]
  | .wbs => [.height, .width, .wb 0, .wb 1, .wb 2]
  | .cct => [.height, .width] ++ (List.finRange 9).map Reg.ccm
  | .gam => [.height, .width]
  | .endStage => []

/-- The operation `o` of instruction `i`, if every operand register it reads holds a value. The stop is the spec's own: a run
that reads one that holds none "has no meaning in this spec: the model must refuse it, not pick zero" (R29; so U1, U19, D21,
D29, R192; log entry 27). -/
def withOperands (i : Instr) (s : State) (o : Host.Outcome State Fault Refusal) : Host.Outcome State Fault Refusal :=
  match (registersRead i s).find? fun r => !r.hasValue s with
  | some r => .refused (.registerNoValue r.number)
  | none => o

/-- `H` (R11). -/
def State.H (s : State) : Nat := s.height.toNat

/-- `W` (R12). -/
def State.W (s : State) : Nat := s.width.toNat

/-- The number of samples of the frame. -/
def State.samples (s : State) : Nat := s.H * s.W

/-- The number of elements of an image of the frame: three for each pixel. -/
def State.elements (s : State) : Nat := s.H * s.W * Config.nch

/-- The gains `g(ch) = ofInt(reg[WBch]) ⊘ ofInt(1024)`, formed once per channel (R130). -/
def gains {V : Type} (N : Num V) (wb : Vector (BitVec 32) 3) : Host.Outcome (Vector V 3) Fault Refusal :=
  andThen (finite (N.div (N.ofInt wb[0]) (N.ofInt Config.scale))) fun g0 =>
  andThen (finite (N.div (N.ofInt wb[1]) (N.ofInt Config.scale))) fun g1 =>
  andThen (finite (N.div (N.ofInt wb[2]) (N.ofInt Config.scale))) fun g2 =>
  .next #v[g0, g1, g2]

/-- The matrix entry `m(c, k) = ofInt(reg[CCM(3·c + k)])` (R140). -/
def matrixEntry {V : Type} (N : Num V) (ccm : Vector (BitVec 32) 9) (c k : Fin 3) : V :=
  N.ofInt (ccm[3 * c.val + k.val]'(by omega))

end Sys2Proof.Machine
end

