-- ==== Sys2Proof/Machine/BlackLevel.lean ====
section
/-! DEFINITION. The Black-Level Corrector (41_black_level.md), over any number system, and the meaning of BLC. -/

namespace Sys2Proof.Machine

/-- Element `i = r·W + c` of `art.BLC` (R100): the sample less the bias its parity cell selects. A sample that holds no
value gives the run no meaning (R29). -/
def blcSample {V : Type} (N : Num V) (raw : Nat → Option V) (bl : Fin 4 → V) (cfa : BitVec 8) (W i : Nat) :
    Host.Outcome V Fault Refusal :=
  match raw i with
  | some x => finite (N.sub x (bl (cfaAt cfa (i / W) (i % W))))
  | none => .refused (.rawNoValue i)

/-- The `H × W` grid BLC computes, row-major (R100). -/
def blcGrid {V : Type} (N : Num V) (raw : Nat → Option V) (bl : Fin 4 → V) (cfa : BitVec 8) (H W : Nat) :
    Host.Outcome (List V) Fault Refusal :=
  collect (blcSample N raw bl cfa W) 0 (H * W)

/-- BLC (R100). -/
def execBlc (s : State) : Host.Outcome State Fault Refusal :=
  withOperands .blc s <|
  andThen (blcGrid Num.binary64 s.raw.read (fun n => s.bl[n]) s.cfa s.H s.W) fun g =>
  .next (toStage 3 { s with artBlc := g })

end Sys2Proof.Machine
end

