-- ==== Sys2Proof/Machine/Check.lean ====
section
/-! DEFINITION. The meanings of the stages at which the sequencer rests, IDLE and END (R83), and of the precondition
check CHK (R84). -/

namespace Sys2Proof.Machine

/-- IDLE (R83): the sequencer is at rest, no operation. -/
def execIdle (s : State) : Host.Outcome State Fault Refusal :=
  .next s

/-- END (R83): the sequencer is at rest, no operation. -/
def execEndStage (s : State) : Host.Outcome State Fault Refusal :=
  .next s

/-- A legal pattern: one red cell, two green cells, one blue cell, wherever they stand (R14, R84, R172). -/
def cfaLegal (p : BitVec 8) : Bool :=
  (cfaCells p).count 0 == 1 && (cfaCells p).count 1 == 2 && (cfaCells p).count 2 == 1

/-- CHK (R84): the dimensions are tested first (R175). -/
def execChk (s : State) : Host.Outcome State Fault Refusal :=
  withOperands .chk s <| .next <|
    if s.H % 2 ≠ 0 ∨ s.W % 2 ≠ 0 then raiseError .dimension 1 s
    else if cfaLegal s.cfa then toStage 2 s
    else raiseError .filterPattern 1 s

end Sys2Proof.Machine
end

