-- ==== Sys2Proof/Machine/ColorCorrection.lean ====
section
/-! DEFINITION. The Color Correction Transform (44_color_correction.md), over any number system, and the meaning of
CCT. -/

namespace Sys2Proof.Machine

/-- `((m0 ⊗ x0 ⊕ m1 ⊗ x1) ⊕ m2 ⊗ x2) ⊘ ofInt(1024)` (R140). -/
def cctDot {V : Type} (N : Num V) (m0 m1 m2 x0 x1 x2 : V) : Host.Outcome V Fault Refusal :=
  andThen (finite (N.mul m0 x0)) fun p0 =>
  andThen (finite (N.mul m1 x1)) fun p1 =>
  andThen (finite (N.add p0 p1)) fun s1 =>
  andThen (finite (N.mul m2 x2)) fun p2 =>
  andThen (finite (N.add s1 p2)) fun s2 =>
  finite (N.div s2 (N.ofInt Config.scale))

/-- Element `j` of `art.CCT`: row `j % 3` of the matrix applied to pixel `j / 3` of `art.WBS` (R140). -/
def cctElement {V : Type} (N : Num V) (ccm : Vector (BitVec 32) 9) (art : List V) (j : Nat) :
    Host.Outcome V Fault Refusal :=
  andThen (artRead art (j / 3 * 3)) fun x0 =>
  andThen (artRead art (j / 3 * 3 + 1)) fun x1 =>
  andThen (artRead art (j / 3 * 3 + 2)) fun x2 =>
  let c := Fin.ofNat 3 j
  cctDot N (matrixEntry N ccm c 0) (matrixEntry N ccm c 1) (matrixEntry N ccm c 2) x0 x1 x2

/-- The image CCT computes (R140). -/
def cctImage {V : Type} (N : Num V) (ccm : Vector (BitVec 32) 9) (H W : Nat) (art : List V) :
    Host.Outcome (List V) Fault Refusal :=
  collect (cctElement N ccm art) 0 (H * W * 3)

/-- CCT (R140). -/
def execCct (s : State) : Host.Outcome State Fault Refusal :=
  withOperands .cct s <|
  andThen (cctImage Num.binary64 s.ccm s.H s.W s.artWbs) fun g =>
  .next (toStage 6 { s with artCct := g })

end Sys2Proof.Machine
end

