-- ==== Sys2Proof/Machine/Commands.lean ====
section
/-! DEFINITION. The meanings of the commands START, CLEAR and the reserved codes (40_commands_and_sequencer.md). -/

namespace Sys2Proof.Machine

/-- START (R80): accepted in IDLE only; it checks and copies no operand. -/
def execStart (s : State) : Host.Outcome State Fault Refusal :=
  .next (if s.status.stage = 0 then beginRun s else s)

/-- CLEAR (R81): accepted in END only; it is no abort. -/
def execClear (s : State) : Host.Outcome State Fault Refusal :=
  .next (if s.status.stage = 7 then returnToIdle s else s)

/-- A reserved command (R67, R82): nothing, whatever its code. -/
def execReservedCmd (_code : BitVec 4) (s : State) : Host.Outcome State Fault Refusal :=
  .next s

end Sys2Proof.Machine
end

