-- ==== Sys2Proof/Machine/Demosaic.lean ====
section
/-! DEFINITION. The Demosaic Engine (42_demosaic.md), over any number system: masked planes (R110), kernels (R111),
reflection (R112), order of summation (R114); and the meaning of DEM (R113). -/

namespace Sys2Proof.Machine

/-- The four weights of the kernels (R111). -/
inductive Weight where
  | zero | quarter | half | one
  deriving DecidableEq, Repr

/-- A weight as a value of `NUM`. -/
def Weight.value {V : Type} (N : Num V) : Weight → V
  | .zero => N.zero
  | .quarter => N.quarter
  | .half => N.half
  | .one => N.one

/-- `KG`, the green kernel, cross shape (R111): entry `[dr + 1][dc + 1]`. -/
def kernelGreen : Vector (Vector Weight 3) 3 :=
  #v[#v[.zero, .quarter, .zero],
     #v[.quarter, .one, .quarter],
     #v[.zero, .quarter, .zero]]

/-- `KRB`, the red and blue kernel, diamond shape (R111). -/
def kernelRedBlue : Vector (Vector Weight 3) 3 :=
  #v[#v[.quarter, .half, .quarter],
     #v[.half, .one, .half],
     #v[.quarter, .half, .quarter]]

/-- `K(ch)` (R111). -/
def kernel (ch : Fin 3) : Vector (Vector Weight 3) 3 :=
  if ch = 1 then kernelGreen else kernelRedBlue

/-- The window positions `(dr + 1, dc + 1)` in row-major order (R114). -/
def window : List (Fin 3 × Fin 3) :=
  [(0, 0), (0, 1), (0, 2), (1, 0), (1, 1), (1, 2), (2, 0), (2, 1), (2, 2)]

/-- The taps of channel `ch`: those whose weight is zero are left out (R114). -/
def taps (ch : Fin 3) : List (Fin 3 × Fin 3) :=
  window.filter fun t => (kernel ch)[t.1][t.2] != .zero

/-- `refl(i, n)`, the mirror about the centre of the edge sample (R112). -/
def refl (i : Int) (n : Nat) : Nat :=
  if n = 1 then 0
  else
    let p : Int := 2 * ((n : Int) - 1)
    let m := i % p
    if m < n then m.toNat else (p - m).toNat

/-- `plane(ch)[r][c]` (R110). -/
def plane {V : Type} (N : Num V) (cfa : BitVec 8) (W : Nat) (art : List V) (ch : Fin 3) (r c : Nat) :
    Host.Outcome V Fault Refusal :=
  if (cfaAt cfa r c).val = ch.val then artRead art (r * W + c) else .next N.zero

/-- `t(dr, dc)`, one product of the sum at `(r, c)` (R114). -/
def demTap {V : Type} (N : Num V) (cfa : BitVec 8) (H W : Nat) (art : List V) (ch : Fin 3) (r c : Nat)
    (t : Fin 3 × Fin 3) : Host.Outcome V Fault Refusal :=
  andThen (plane N cfa W art ch (refl ((r : Int) + (t.1.val : Int) - 1) H) (refl ((c : Int) + (t.2.val : Int) - 1) W))
    fun p => finite (N.mul ((kernel ch)[t.1][t.2].value N) p)

/-- The products added to `acc` one after the other, from the left (R114). -/
def addTaps {V : Type} (N : Num V) (tap : Fin 3 × Fin 3 → Host.Outcome V Fault Refusal) :
    V → List (Fin 3 × Fin 3) → Host.Outcome V Fault Refusal
  | acc, [] => .next acc
  | acc, t :: ts => andThen (tap t) fun x => andThen (finite (N.add acc x)) fun sum => addTaps N tap sum ts

/-- `art.DEM[r][c][ch]` (R113): the sum starts from the first product, not from zero (R114). -/
def demElement {V : Type} (N : Num V) (cfa : BitVec 8) (H W : Nat) (art : List V) (ch : Fin 3) (r c : Nat) :
    Host.Outcome V Fault Refusal :=
  match taps ch with
  | [] => .next N.zero
  | t :: ts =>
    andThen (demTap N cfa H W art ch r c t) fun x => addTaps N (demTap N cfa H W art ch r c) x ts

/-- The `H × W × 3` image DEM computes, element `(r·W + c)·3 + ch` (R113). -/
def demImage {V : Type} (N : Num V) (cfa : BitVec 8) (H W : Nat) (art : List V) :
    Host.Outcome (List V) Fault Refusal :=
  collect (fun j => demElement N cfa H W art (Fin.ofNat 3 j) (j / 3 / W) (j / 3 % W)) 0 (H * W * 3)

/-- DEM (R113). -/
def execDem (s : State) : Host.Outcome State Fault Refusal :=
  withOperands .dem s <|
  andThen (demImage Num.binary64 s.cfa s.H s.W s.artBlc) fun g =>
  .next (toStage 4 { s with artDem := g })

end Sys2Proof.Machine
end

