-- ==== Sys2Proof/Machine/Gamma.lean ====
section
/-! DEFINITION. The Gamma Encoder (45_gamma.md), over any number system, and the meaning of GAM. -/

namespace Sys2Proof.Machine

/-- Step 1 (R150): a negative value becomes zero. -/
def clamp {V : Type} (N : Num V) (x : V) : V := if N.lt x N.zero then N.zero else x

/-- The clamped image `z` (R150). -/
def clampImage {V : Type} (N : Num V) (H W : Nat) (art : List V) : Host.Outcome (List V) Fault Refusal :=
  collect (fun j => andThen (artRead art j) fun x => .next (clamp N x)) 0 (H * W * 3)

/-- `gmax(z)` (R151): a fold from zero. -/
def gmax {V : Type} (N : Num V) (z : List V) : V :=
  z.foldl (fun g x => if N.lt g x then x else g) N.zero

/-- Steps 2 and 3 (R150): every value divided by the global maximum, then the gamma function. -/
def encodeImage {V : Type} (N : Num V) (g : V) : List V → Host.Outcome (List V) Fault Refusal
  | [] => .next []
  | z :: zs =>
    andThen (finite (N.div z g)) fun n => andThen (encodeImage N g zs) fun vs => .next (N.gpow n :: vs)

/-- What GAM computes from `art.CCT` (R150): the global maximum, and the image, or none where the maximum is zero and the
error is raised before any division (C9). -/
def gamImage {V : Type} (N : Num V) (H W : Nat) (art : List V) : Host.Outcome (V × Option (List V)) Fault Refusal :=
  andThen (clampImage N H W art) fun z =>
  let g := gmax N z
  if N.isZero g then .next (g, none)
  else andThen (encodeImage N g z) fun px => .next (g, some px)

/-- GAM (R150): AllZeroImageError leaves OUT untouched (R176); otherwise OUT elements `0 .. 3·H·W - 1` are written and the
run completes (R85). -/
def execGam (s : State) : Host.Outcome State Fault Refusal :=
  withOperands .gam s <|
  andThen (gamImage Num.binary64 s.H s.W s.artCct) fun r =>
  match r.2 with
  | none => .next (raiseError .allZeroImage 6 { s with gmax := r.1 })
  | some px => .next (complete { s with gmax := r.1, out := s.out.writeAll 0 px })

end Sys2Proof.Machine
end

