-- ==== Sys2Proof/Machine/WhiteBalance.lean ====
section
/-! DEFINITION. The White-Balance Scaler (43_white_balance.md), over any number system, and the meaning of WBS. -/

namespace Sys2Proof.Machine

/-- Element `j` of `art.WBS`: element `j` of `art.DEM` times the gain of its channel `j % 3` (R130). -/
def wbsElement {V : Type} (N : Num V) (g : Vector V 3) (art : List V) (j : Nat) : Host.Outcome V Fault Refusal :=
  andThen (artRead art j) fun x => finite (N.mul x g[Fin.ofNat 3 j])

/-- The image WBS computes (R130): the gains first, then every element. -/
def wbsImage {V : Type} (N : Num V) (wb : Vector (BitVec 32) 3) (H W : Nat) (art : List V) :
    Host.Outcome (List V) Fault Refusal :=
  andThen (gains N wb) fun g => collect (wbsElement N g art) 0 (H * W * 3)

/-- WBS (R130). -/
def execWbs (s : State) : Host.Outcome State Fault Refusal :=
  withOperands .wbs s <|
  andThen (wbsImage Num.binary64 s.wb s.H s.W s.artDem) fun g =>
  .next (toStage 5 { s with artWbs := g })

end Sys2Proof.Machine
end

