-- ==== Sys2Proof/Machine/Dispatch.lean ====
section
/-! DEFINITION. The meaning of every instruction, one arm each. -/

namespace Sys2Proof.Machine

def exec (i : Instr) (s : State) : Host.Outcome State Fault Refusal :=
  match i with
  | .start => Sys2Proof.Machine.execStart s
  | .clear => Sys2Proof.Machine.execClear s
  | .reservedCmd code => Sys2Proof.Machine.execReservedCmd code s
  | .idle => Sys2Proof.Machine.execIdle s
  | .chk => Sys2Proof.Machine.execChk s
  | .blc => Sys2Proof.Machine.execBlc s
  | .dem => Sys2Proof.Machine.execDem s
  | .wbs => Sys2Proof.Machine.execWbs s
  | .cct => Sys2Proof.Machine.execCct s
  | .gam => Sys2Proof.Machine.execGam s
  | .endStage => Sys2Proof.Machine.execEndStage s

end Sys2Proof.Machine
end

