-- ==== Sys2Proof/Machine/Port.lean ====
section
/-! DEFINITION. The host port: the four transactions of R44; the sequencer's turn (R83); and one event of the total order
(R49), which is what a step performs. -/

namespace Sys2Proof.Machine

/-- WREG(n, d) (R44): register 0x00 issues the command in the word (R19); an operand register is stored while
STATUS.BUSY = 0 and keeps its value while BUSY = 1 (R13, R50); STATUS, ERRINFO and reserved numbers ignore it (R18, R20,
R21). -/
def wreg (n : BitVec 5) (d : Word) (s : State) : Host.Outcome State Fault Refusal :=
  match Reg.ofNumber n with
  | some .ctrl => exec (decodeCommand d) s
  | some r => .next (if s.status.busy then s else r.store d s)
  | none => .next s

/-- RREG(n) (R44): CTRL and reserved numbers return 0; a register that holds no value returns an unspecified word (R29).
No side effect on the block (R46). -/
def rreg (n : BitVec 5) (s : State) : State :=
  match Reg.ofNumber n with
  | some r => if r.hasValue s then { s with reply := r.word s } else drawReply s
  | none => { s with reply := 0 }

/-- WMEM(i, d) (R44): stored while STATUS.BUSY = 0 if the word is a `Val`, without effect otherwise (R50, R66). -/
def wmem (i : BitVec 32) (d : Word) (s : State) : State :=
  if s.status.busy then s
  else
    match Val.dec d with
    | some v => { s with raw := s.raw.write i.toNat v }
    | none => s

/-- The data word of an element; an element that holds no value returns an unspecified word (R29). -/
def elementReply (e : Option Val) (s : State) : State :=
  match e with
  | some v => { s with reply := v.enc }
  | none => drawReply s

/-- RMEM(s, i) (R44): RAW at any time; OUT while STATUS.BUSY = 0, an unspecified word while BUSY = 1 (R51). -/
def rmem (t : ReadTarget) (s : State) : State :=
  match t with
  | .raw i => elementReply (s.raw.read i.toNat) s
  | .out i => if s.status.busy then drawReply s else elementReply (s.out.read i.toNat) s

/-- The sequencer's turn (R83): while STATUS.BUSY = 1 it performs the operation STAGE selects; with BUSY = 0 it is at rest
in END or IDLE (log entry 16). -/
def sequencerTurn (s : State) : Host.Outcome State Fault Refusal :=
  if s.status.busy then exec (decodeStage s.status.stage) s
  else if s.status.stage = 7 then exec .endStage s
  else exec .idle s

/-- The mark `run` (R72): a turn of the sequencer while STATUS.BUSY = 1, and then the mark again. -/
def runMark (s : State) : Host.Outcome State Fault Refusal :=
  if s.status.busy then andThen (sequencerTurn s) fun t => .next { t with agenda := .run :: t.agenda }
  else .next s

/-- `wait` (R73): read STATUS; where the word read has BUSY = 1, the sequencer has a turn and the read is repeated (log
entry 19). -/
def waitMark (s : State) : State :=
  let t := rreg Reg.status.number s
  if t.reply.getLsbD 0 then { t with agenda := .seq :: .wait :: t.agenda } else t

/-- One event of the total order of R49. -/
def perform (e : Event) (s : State) : Host.Outcome State Fault Refusal :=
  match e with
  | .wreg n d => wreg n d s
  | .rreg n => .next (rreg n s)
  | .wmem i d => .next (wmem i d s)
  | .rmem t => .next (rmem t s)
  | .reset => .next (applyReset s)
  | .seq => sequencerTurn s
  | .run => runMark s
  | .wait => .next (waitMark s)

/-- What happens next: the first event of the agenda; with none to come, the sequencer has its turn (R199, log entry 1). -/
def nextEvent (s : State) : Host.Outcome State Fault Refusal :=
  match s.agenda with
  | [] => sequencerTurn s
  | e :: rest => perform e { s with agenda := rest }

/-- The state in which the code word `c` is what the next event runs: a command word in a write to CTRL (R19), a stage
code in STATUS.STAGE with the sequencer's turn to come; BUSY is set as that stage has it (R20), and for an operation the
operand registers count as supplied, which is the host's duty before any run (R192). -/
def placeCode (c : Code) (s : State) : State :=
  match c with
  | .command d => { s with agenda := .wreg Reg.ctrl.number d :: s.agenda }
  | .stage g =>
    { s with
      status := { s.status with stage := g, busy := g != 0 && g != 7 }
      written := if g != 0 && g != 7 then .replicate 32 true else s.written
      agenda := .seq :: s.agenda }

end Sys2Proof.Machine
end

