-- ==== Sys2Proof/Machine/Script.lean ====
section
/-! DEFINITION. The host script notation (R72) and its pseudo-instructions (R73), as lists of events. A script has no
meaning of its own: it is the transactions and marks it expands to. -/

namespace Sys2Proof.Machine.Script

/-- The data word of an integer for a register (R64, R72): for the i32 registers the 32-bit two's complement pattern,
zero-extended; for the others the integer itself, which is not negative. -/
def intWord (r : Reg) (v : Int) : Word :=
  match r with
  | .ctrl => BitVec.ofInt 64 v
  | .status => BitVec.ofInt 64 v
  | .errinfo => BitVec.ofInt 64 v
  | .height => BitVec.ofInt 64 v
  | .width => BitVec.ofInt 64 v
  | .cfa => BitVec.ofInt 64 v
  | .bl _ => BitVec.ofInt 64 v
  | .wb _ => (BitVec.ofInt 32 v).setWidth 64
  | .ccm _ => (BitVec.ofInt 32 v).setWidth 64

/-- `wr NAME, v` for an integer (R72). -/
def wr (r : Reg) (v : Int) : Event := .wreg r.number (intWord r v)

/-- `wr NAME, v` for a `Val` register (R72). -/
def wrVal (r : Reg) (v : Val) : Event := .wreg r.number v.enc

/-- `rd NAME` (R72). -/
def rd (r : Reg) : Event := .rreg r.number

/-- `wm i, v` (R72). -/
def wm (i : BitVec 32) (v : Val) : Event := .wmem i v.enc

/-- `rm RAW, i` and `rm OUT, i` (R72). -/
def rm (t : ReadTarget) : Event := .rmem t

/-- `start` (R73). -/
def start : Event := wr .ctrl 0x1

/-- `clear` (R73). -/
def clear : Event := wr .ctrl 0x2

/-- `nop` (R73). -/
def nop : Event := wr .ctrl 0x0

/-- `dims h, w` (R73). -/
def dims (h w : Int) : List Event := [wr .height h, wr .width w]

/-- `cfa p00, p01, p10, p11` (R73). -/
def cfa (p00 p01 p10 p11 : Int) : List Event := [wr .cfa (p00 + 4 * p01 + 16 * p10 + 64 * p11)]

/-- `cfa RGGB` (R73). -/
def cfaRGGB : List Event := cfa 0 1 1 2

/-- `bl b0, b1, b2, b3` (R73). -/
def bl (b0 b1 b2 b3 : Val) : List Event :=
  [wrVal (.bl 0) b0, wrVal (.bl 1) b1, wrVal (.bl 2) b2, wrVal (.bl 3) b3]

/-- `wb g0, g1, g2` (R73). -/
def wb (g0 g1 g2 : Int) : List Event := [wr (.wb 0) g0, wr (.wb 1) g1, wr (.wb 2) g2]

/-- `ccm m0, m1, .., m8`, row-major (R73). -/
def ccm (m : Vector Int 9) : List Event := (List.finRange 9).map fun n => wr (.ccm n) m[n]

/-- `ccm identity` (R73). -/
def ccmIdentity : List Event := ccm #v[1024, 0, 0, 0, 1024, 0, 0, 0, 1024]

/-- `wm k, v0`, `wm k+1, v1`, … -/
def frameFrom : Nat → List Val → List Event
  | _, [] => []
  | k, v :: vs => wm (BitVec.ofNat 32 k) v :: frameFrom (k + 1) vs

/-- `frame v0, v1, ..` (R73). -/
def frame (vs : List Val) : List Event := frameFrom 0 vs

end Sys2Proof.Machine.Script
end

