-- ==== Sys2Proof/Machine/Step.lean ====
section
/-! DEFINITION. One step of the block: one event of the total order of R49. -/

namespace Sys2Proof.Machine

/-- One step (R49, R83). -/
def step (s : State) : Host.Outcome State Fault Refusal := nextEvent s

/-- `s` with the code word that a numbered word of `nbits` bits is read as placed where the next step runs it (log
entries 2, 17). A word that is no code word places nothing. -/
def State.withFetchWord (s : State) (nbits w : Nat) : State :=
  match readCode nbits w with
  | .ok c => placeCode c s
  | .error _ => s

end Sys2Proof.Machine
end

