-- ==== Sys2Proof/Safety.lean ====
section
/-! DEFINITION. What counts as a safe run and the terms the statements use: runs of several steps, the legal values of
STATUS and ERRINFO (R20, R21), the invariant of the block, the host's duties before START (R192), and the spec's formulas
written out a second time, without the operations of Machine/. -/

namespace Sys2Proof.Safety

open Sys2Proof.Machine

/-- `k` steps, as far as the first stop. -/
def steps : Nat → State → Host.Outcome State Fault Refusal
  | 0, s => .next s
  | k + 1, s =>
    match step s with
    | .next t => steps k t
    | .fault r => .fault r
    | .refused r => .refused r

/-- The three legal combinations of the status bits and STAGE (R20). -/
def StatusLegal (t : Status) : Prop :=
  (t.stage = 0 ∧ t.busy = false ∧ t.done = false ∧ t.err = false)
  ∨ (1 ≤ t.stage.toNat ∧ t.stage.toNat ≤ 6 ∧ t.busy = true ∧ t.done = false ∧ t.err = false)
  ∨ (t.stage = 7 ∧ t.busy = false ∧ t.done ≠ t.err)

/-- ERRINFO records an error exactly while STATUS.ERR is 1, with the stage that raises it (R21). -/
def ErrinfoLegal (s : State) : Prop :=
  (s.status.err = false ∧ s.errinfo = ⟨0, 0⟩)
  ∨ (s.status.err = true ∧ (s.errinfo = ⟨1, 1⟩ ∨ s.errinfo = ⟨2, 1⟩ ∨ s.errinfo = ⟨3, 6⟩))

/-- Both element spaces are in canonical form and within their index ranges (R40). -/
def MemoriesLegal (s : State) : Prop :=
  s.raw.wf ∧ (∀ e ∈ s.raw, e.1 < 2 ^ 32) ∧ s.out.wf ∧ (∀ e ∈ s.out, e.1 < 2 ^ 34)

/-- The run passed CHK: even dimensions and a legal pattern (R84). -/
def Checked (s : State) : Prop :=
  s.H % 2 = 0 ∧ s.W % 2 = 0 ∧ cfaLegal s.cfa = true

/-- HEIGHT and WIDTH hold a value (R29, R192 item 1). -/
def FrameSupplied (s : State) : Prop := Reg.height.hasValue s = true ∧ Reg.width.hasValue s = true

/-- CFA holds a value (R192 item 2). -/
def PatternSupplied (s : State) : Prop := Reg.cfa.hasValue s = true

/-- The BL register of every cell of the pattern holds a value: in a run that passed CHK, BL0 to BL2 (R192 item 3). -/
def BiasesSupplied (s : State) : Prop :=
  ∀ i j : Nat, i < 2 → j < 2 → (Reg.bl (cfaCell s.cfa i j)).hasValue s = true

/-- WB0 to WB2 hold a value (R192 item 4). -/
def GainsSupplied (s : State) : Prop := ∀ n : Fin 3, (Reg.wb n).hasValue s = true

/-- The artifact the next operation reads is there, in full (R24), and the run passed CHK. -/
def ArtifactsReady (s : State) : Prop :=
  (2 ≤ s.status.stage.toNat → s.status.stage.toNat ≤ 6 → Checked s ∧ FrameSupplied s ∧ PatternSupplied s)
  ∧ (s.status.stage = 3 → s.artBlc.length = s.samples)
  ∧ (s.status.stage = 4 → s.artDem.length = s.elements)
  ∧ (s.status.stage = 5 → s.artWbs.length = s.elements)
  ∧ (s.status.stage = 6 → s.artCct.length = s.elements)

/-- The invariant of the block. -/
def BlockInv (s : State) : Prop :=
  StatusLegal s.status ∧ ErrinfoLegal s ∧ MemoriesLegal s ∧ ArtifactsReady s

/-- A host transaction of R44: everything the host can do, reset apart. -/
def IsTransaction : Event → Bool
  | .wreg _ _ => true
  | .rreg _ => true
  | .wmem _ _ => true
  | .rmem _ => true
  | .reset => false
  | .seq => false
  | .run => false
  | .wait => false

/-- `t` is `s` but for what a host sees or waits for: the reply, the count of free draws and the agenda. -/
def SameBlock (s t : State) : Prop :=
  t = { s with reply := t.reply, draws := t.draws, agenda := t.agenda }

/-- The operand registers, in the order of 10_state.md. -/
def operandsOf (s : State) :
    BitVec 16 × BitVec 16 × BitVec 8 × Vector Val 4 × Vector (BitVec 32) 3 × Vector (BitVec 32) 9 :=
  (s.height, s.width, s.cfa, s.bl, s.wb, s.ccm)

/-- The registers the host must have written for a run that passes CHK to have a meaning (R192, R29). -/
def OperandsSupplied (s : State) : Prop :=
  FrameSupplied s ∧ PatternSupplied s
  ∧ (∀ n : Fin 3, (Reg.bl n.castSucc).hasValue s = true) ∧ GainsSupplied s

/-- The outcome is the refusal of R29 (U1): it names an operand register which holds no value. -/
def RefusedForRegister (s : State) (o : Host.Outcome State Fault Refusal) : Prop :=
  ∃ r : Reg, r.isOperand = true ∧ r.hasValue s = false ∧ o = .refused (.registerNoValue r.number)

/-- A legal pattern whose two green cells stand on a diagonal (R115). -/
def GreensOnDiagonal (p : BitVec 8) : Prop :=
  cfaLegal p = true
  ∧ ((cfaCell p 0 0 = 1 ∧ cfaCell p 1 1 = 1) ∨ (cfaCell p 0 1 = 1 ∧ cfaCell p 1 0 = 1))

/-- An even frame that is not empty. -/
def EvenFrame (s : State) : Prop := 2 ≤ s.H ∧ 2 ≤ s.W ∧ s.H % 2 = 0 ∧ s.W % 2 = 0

/-- Element `[r][c][ch]` of an image of the frame (R24, R42). -/
def imageIndex (W r c : Nat) (ch : Fin 3) : Nat := (r * W + c) * 3 + ch.val

/-- The significand of a binary64 number is even: the last of its 53 bits is 0. -/
def EvenSignificand (v : Val) : Prop := v.units.natAbs / 2 ^ (v.units.natAbs.log2 - 52) % 2 = 0

/-- `o` is the exact rational `q` rounded to binary64, to nearest, ties to even; none where the rounded value would not
be finite, that is from half a unit in the last place above the largest finite number on (R8). -/
def IsRounded (q : ℚ) (o : Option Val) : Prop :=
  (o = none ↔ (2 : ℚ) ^ 1024 - 2 ^ 970 ≤ |q|)
  ∧ ∀ z, o = some z →
      (∀ w : Val, |z.toRat - q| ≤ |w.toRat - q|)
      ∧ ∀ w : Val, w ≠ z → |z.toRat - q| = |w.toRat - q| → EvenSignificand z

/-- The value of a masked plane (R110) on a grid that holds all its elements. -/
def planeValue (cfa : BitVec 8) (W : Nat) (art : List Val) (ch : Fin 3) (r c : Nat) : Val :=
  if (cfaAt cfa r c).val = ch.val then art.getD (r * W + c) Val.zero else Val.zero

/-- One product of R114 with the weight `w`, at the offset `(dr, dc)`. -/
def product (s : State) (ch : Fin 3) (r c : Nat) (w : Val) (dr dc : Int) : Option Val :=
  Val.mul w (planeValue s.cfa s.W s.artBlc ch (refl ((r : Int) + dr) s.H) (refl ((c : Int) + dc) s.W))

/-- Sum from the left, starting from the first term (R114); none as soon as a term or a sum is. -/
def leftSum : Option Val → List (Option Val) → Option Val
  | acc, [] => acc
  | acc, x :: xs => leftSum (acc.bind fun a => x.bind fun b => Val.add a b) xs

/-- The green sum as R114 writes it: five products. -/
def greenSum (s : State) (r c : Nat) : Option Val :=
  let t := product s 1 r c
  leftSum (t Val.quarter (-1) 0)
    [t Val.quarter 0 (-1), t Val.one 0 0, t Val.quarter 0 1, t Val.quarter 1 0]

/-- The red or blue sum as R114 writes it: nine products. -/
def redBlueSum (s : State) (ch : Fin 3) (r c : Nat) : Option Val :=
  let t := product s ch r c
  leftSum (t Val.quarter (-1) (-1))
    [t Val.half (-1) 0, t Val.quarter (-1) 1, t Val.half 0 (-1), t Val.one 0 0, t Val.half 0 1,
     t Val.quarter 1 (-1), t Val.half 1 0, t Val.quarter 1 1]

/-- `art.DEM[r][c][ch]` by the formulas of R114. -/
def demFormula (s : State) (ch : Fin 3) (r c : Nat) : Option Val :=
  if ch = 1 then greenSum s r c else redBlueSum s ch r c

/-- The `art.BLC` element at reflected indices, `B[r'][c']` of R115 (b), times a weight. -/
def neighbour (s : State) (r c : Nat) (w : Val) (dr dc : Int) : Option Val :=
  Val.mul w (s.artBlc.getD (refl ((r : Int) + dr) s.H * s.W + refl ((c : Int) + dc) s.W) Val.zero)

/-- `art.WBS[r][c][ch]` of an element `x` by the formula of R130. -/
def wbsFormula (s : State) (ch : Fin 3) (x : Val) : Option Val :=
  (Val.div (Val.ofInt s.wb[ch]) (Val.ofInt 1024)).bind fun g => Val.mul x g

/-- `art.CCT[r][c][ch]` of a pixel by the formula of R140. -/
def cctFormula (s : State) (ch : Fin 3) (x0 x1 x2 : Val) : Option Val :=
  let m (k : Fin 3) : Val := Val.ofInt (s.ccm[3 * ch.val + k.val]'(by omega))
  (Val.mul (m 0) x0).bind fun p0 => (Val.mul (m 1) x1).bind fun p1 =>
  (Val.add p0 p1).bind fun s1 => (Val.mul (m 2) x2).bind fun p2 =>
  (Val.add s1 p2).bind fun s2 => Val.div s2 (Val.ofInt 1024)

/-- The clamp of R150. -/
def clamped (x : Val) : Val := if x.units < 0 then Val.zero else x

/-- What a run leaves for the host: one of the errors, or the image. -/
inductive RunResult where
  | error (e : ErrorKind)
  | image (px : List Val)
  deriving DecidableEq, Repr

/-- Every register of the list holds a value; a run that reads one that holds none is refused (R29, U1). -/
def need (rs : List Reg) (s : State) : Host.Outcome Unit Fault Refusal :=
  match rs with
  | [] => .next ()
  | r :: rs => if r.hasValue s then need rs s else .refused (.registerNoValue r.number)

/-- The pipeline as one evaluation on the operands (R50, R83): CHK, BLC, DEM, WBS, CCT, GAM. -/
def evaluate (s : State) : Host.Outcome RunResult Fault Refusal :=
  andThen (need [.height, .width, .cfa] s) fun _ =>
  if s.H % 2 ≠ 0 ∨ s.W % 2 ≠ 0 then .next (.error .dimension)
  else if cfaLegal s.cfa = false then .next (.error .filterPattern)
  else
    andThen (need [.bl (cfaCell s.cfa 0 0), .bl (cfaCell s.cfa 0 1), .bl (cfaCell s.cfa 1 0), .bl (cfaCell s.cfa 1 1)] s)
      fun _ =>
    andThen (blcGrid Num.binary64 s.raw.read (fun n => s.bl[n]) s.cfa s.H s.W) fun b =>
    andThen (demImage Num.binary64 s.cfa s.H s.W b) fun d =>
    andThen (need [.wb 0, .wb 1, .wb 2] s) fun _ =>
    andThen (wbsImage Num.binary64 s.wb s.H s.W d) fun w =>
    andThen (cctImage Num.binary64 s.ccm s.H s.W w) fun c =>
    andThen (gamImage Num.binary64 s.H s.W c) fun g =>
    match g.2 with
    | none => .next (.error .allZeroImage)
    | some px => .next (.image px)

/-- The state at the START of a run that nothing interrupts: IDLE, and the command the only event to come. -/
def AtStart (s : State) : Prop :=
  s.status.stage = 0 ∧ ∃ d : Word, decodeCommand d = .start ∧ s.agenda = [.wreg 0 d]

end Sys2Proof.Safety
end

