-- ==== Sys2Proof/Certificates/Slice0/Obligations.lean ====
section
/-! DEFINITION. The statements for the provers. Each docstring says which rule of spec/ a statement formalises; where a
clause rests on a choice of the model it names the log entry. -/

open Sys2Proof Sys2Proof.Machine Sys2Proof.Safety

/-! ### Encodings -/

/-- R62: the eight stage codes; and the words of spec/opcode_table.json as the model reads a bare word (log entry 17 for
which of the two formats that is). -/
def Obligations.TableWordsDecode : Prop :=
  [0, 1, 2, 3, 4, 5, 6, 7].map decodeStage = [.idle, .chk, .blc, .dem, .wbs, .cct, .gam, .endStage]
  ∧ decodeTableWord 64 0x1 = some .start
  ∧ decodeTableWord 64 0xFFFFFFFFFFFFFFF1 = some .start
  ∧ decodeTableWord 64 0x2 = some .clear
  ∧ decodeTableWord 64 0xABCDEF0123456782 = some .clear
  ∧ decodeTableWord 64 0x0 = some (.reservedCmd 0x0)
  ∧ decodeTableWord 64 0xFFFFFFFFFFFFFFFF = some (.reservedCmd 0xF)
  ∧ decodeTableWord 8 0x2 = some .blc
  ∧ decodeTableWord 8 0x6 = some .gam

/-- R61, R63, R67: a command word is decoded by its bits [3:0] alone: 1 is START, 2 is CLEAR, every other value is a
reserved command that keeps its code. -/
def Obligations.CommandsDecodeByTheirLowBits : Prop :=
  ∀ d : Word,
    (d.toNat % 16 = 1 → decodeCommand d = .start)
    ∧ (d.toNat % 16 = 2 → decodeCommand d = .clear)
    ∧ (d.toNat % 16 ≠ 1 → d.toNat % 16 ≠ 2 →
        ∃ code : BitVec 4, code.toNat = d.toNat % 16 ∧ decodeCommand d = .reservedCmd code)

/-- R61, R62: decoding the encoding of a well-formed instruction gives it back; what the decoder answers is well formed; a
stage code and the low bits of a command word are what encoding the decoded instruction gives. -/
def Obligations.EncodeDecodeAgree : Prop :=
  (∀ i : Instr, i.wf = true → decode (encode i) = i)
  ∧ (∀ c : Code, (decode c).wf = true)
  ∧ (∀ c : BitVec 3, encode (decodeStage c) = .stage c)
  ∧ ∀ d : Word, encode (decodeCommand d) = .command (BitVec.ofNat 64 (d.toNat % 16))

/-- R66: which words are a `Val` and which number each stands for; both zero words give the one zero; `enc` and `dec` undo
each other; a write that carries no `Val` is ignored. -/
def Obligations.DataWordsEncodeValues : Prop :=
  (∀ d : Word, Val.dec d = none ↔ d.toNat / 2 ^ 52 % 2 ^ 11 = 2047)
  ∧ (∀ (d : Word) (v : Val), Val.dec d = some v →
      let sign : ℚ := if d.toNat / 2 ^ 63 = 1 then -1 else 1
      let e : ℕ := d.toNat / 2 ^ 52 % 2 ^ 11
      let f : ℚ := ((d.toNat % 2 ^ 52 : ℕ) : ℚ)
      v.toRat = if e = 0 then sign * (2 : ℚ) ^ (-1022 : ℤ) * (f / 2 ^ 52)
        else sign * (2 : ℚ) ^ ((e : ℤ) - 1023) * (1 + f / 2 ^ 52))
  ∧ Val.dec 0x0000000000000000 = some Val.zero ∧ Val.dec 0x8000000000000000 = some Val.zero
  ∧ Val.zero.enc = 0x0000000000000000
  ∧ (∀ (d : Word) (v : Val), Val.dec d = some v → d ≠ 0x8000000000000000 → v.enc = d)
  ∧ (∀ v : Val, Val.dec v.enc = some v)
  ∧ (Val.ofInt 100).enc = 0x4059000000000000 ∧ Val.one.enc = 0x3FF0000000000000
  ∧ Val.half.enc = 0x3FE0000000000000 ∧ (Val.ofInt (-16)).enc = 0xC030000000000000
  ∧ (∀ (n : Fin 4) (d : Word) (s : State), Val.dec d = none → wreg (Reg.bl n).number d s = .next s)
  ∧ ∀ (i : BitVec 32) (d : Word) (s : State), Val.dec d = none → wmem i d s = s

/-- R72, R73: pseudo-instructions and their expansions; `cfa RGGB` is the word 0x94, `cfa 1, 1, 0, 2` the word 0x85; a negative integer for an i32 register is
its 32-bit pattern, zero-extended (R64, 95_test_vectors.md P2). -/
def Obligations.PseudoInstructionsExpand : Prop :=
  Script.start = .wreg 0x00 0x1 ∧ Script.clear = .wreg 0x00 0x2 ∧ Script.nop = .wreg 0x00 0x0
  ∧ Script.dims 4 4 = [.wreg 0x03 0x4, .wreg 0x04 0x4]
  ∧ Script.cfaRGGB = [.wreg 0x05 0x94] ∧ Script.cfa 1 1 0 2 = [.wreg 0x05 0x85]
  ∧ Script.wb 2048 1024 512 = [.wreg 0x0C 0x800, .wreg 0x0D 0x400, .wreg 0x0E 0x200]
  ∧ Script.ccmIdentity =
      [.wreg 0x10 0x400, .wreg 0x11 0, .wreg 0x12 0, .wreg 0x13 0, .wreg 0x14 0x400, .wreg 0x15 0, .wreg 0x16 0,
       .wreg 0x17 0, .wreg 0x18 0x400]
  ∧ Script.ccm #v[1024, -1024, 0, 0, 1024, 0, 0, 0, 2048] =
      [.wreg 0x10 0x400, .wreg 0x11 0x00000000FFFFFC00, .wreg 0x12 0, .wreg 0x13 0, .wreg 0x14 0x400, .wreg 0x15 0,
       .wreg 0x16 0, .wreg 0x17 0, .wreg 0x18 0x800]
  ∧ Script.wr (.wb 1) (-1024) = .wreg 0x0D 0x00000000FFFFFC00
  ∧ ∀ b0 b1 b2 b3 : Val, Script.bl b0 b1 b2 b3 =
      [.wreg 0x08 b0.enc, .wreg 0x09 b1.enc, .wreg 0x0A b2.enc, .wreg 0x0B b3.enc]
      ∧ Script.frame [b0, b1, b2] = [.wmem 0 b0.enc, .wmem 1 b1.enc, .wmem 2 b2.enc]

/-! ### The number systems -/

/-- R8: each of the four operations gives the exact result rounded to binary64, to nearest, ties to even, and gives none
exactly where the rounded result would not be finite. The rounding of IEEE 754 itself, its 53 bits and the bound 2^1024
are general knowledge: PRESUMED in log entry 7. -/
def Obligations.ArithmeticRoundsToNearestEven : Prop :=
  ∀ x y : Val,
    IsRounded (x.toRat + y.toRat) (Val.add x y)
    ∧ IsRounded (x.toRat - y.toRat) (Val.sub x y)
    ∧ IsRounded (x.toRat * y.toRat) (Val.mul x y)
    ∧ (y ≠ Val.zero → IsRounded (x.toRat / y.toRat) (Val.div x y))

/-- R8, R9: the hardware instance has the properties P1 to P6, and P7 whenever both sides are computed without rounding; its
constants are the quotients R8 names, and `ofInt` is exact. -/
def Obligations.HardwareNumbersHaveTheNamedProperties : Prop :=
  Num.binary64.ZeroAbsorbs ∧ Num.binary64.NeutralElements ∧ Num.binary64.ScaleCancels
  ∧ Num.binary64.SelfDivision ∧ Num.binary64.Ordered ∧ Num.binary64.GammaProperties
  ∧ Num.binary64.HomogeneousUnrounded Val.toRat
  ∧ Val.div (Val.ofInt 1) (Val.ofInt 2) = some Val.half ∧ Val.div (Val.ofInt 1) (Val.ofInt 4) = some Val.quarter
  ∧ ∀ n : BitVec 32, (Val.ofInt n).toRat = (n.toInt : ℚ)

/-- R8, R9, R154: the reference instance has P1 to P7; its constants are the quotients R8 names. P1 to P5 and P7 hold
whatever `gpow` is, P6 for the `gpow` of the reference instance, which is free but for P6 (log entry 9). -/
def Obligations.RationalNumbersHaveTheNamedProperties : Prop :=
  (∀ g : RationalGammaFn, Num.reference g = Num.rational g.fn ∧ (Num.reference g).GammaProperties)
  ∧ ∀ g : ℚ → ℚ,
    (Num.rational g).ZeroAbsorbs ∧ (Num.rational g).NeutralElements ∧ (Num.rational g).ScaleCancels
    ∧ (Num.rational g).SelfDivision ∧ (Num.rational g).Ordered
    ∧ (Num.rational g).div ((Num.rational g).ofInt 1) ((Num.rational g).ofInt 2) = some (Num.rational g).half
    ∧ (Num.rational g).div ((Num.rational g).ofInt 1) ((Num.rational g).ofInt 4) = some (Num.rational g).quarter
    ∧ (Num.rational g).Homogeneous

/-! ### Reset and invariants -/

/-- R28, R17, R20, R21: what the spec states of the state after reset: STATUS and ERRINFO are 0, CCM is the identity, HEIGHT,
WIDTH, CFA, BL0 to BL3 and WB0 to WB2 hold no value (noted as log entry 4 says), no element of RAW and OUT holds a value, no
artifact holds an element. The zeros in the fields of the registers that hold no value are the model's choice (log entry 3)
and no part of this. -/
def Obligations.ResetLeavesTheStatedValues : Prop :=
  State.reset.status.word = 0 ∧ State.reset.errinfo.word = 0
  ∧ (List.finRange 9).map (fun n => State.reset.ccm[n].toInt) = [1024, 0, 0, 0, 1024, 0, 0, 0, 1024]
  ∧ (∀ n, (Reg.ccm n).hasValue State.reset = true)
  ∧ Reg.height.hasValue State.reset = false ∧ Reg.width.hasValue State.reset = false
  ∧ Reg.cfa.hasValue State.reset = false
  ∧ (∀ n, (Reg.bl n).hasValue State.reset = false) ∧ (∀ n, (Reg.wb n).hasValue State.reset = false)
  ∧ (∀ i, State.reset.raw.read i = none) ∧ (∀ i, State.reset.out.read i = none)
  ∧ State.reset.artBlc = [] ∧ State.reset.artDem = [] ∧ State.reset.artWbs = [] ∧ State.reset.artCct = []

/-- R190: reset at any time gives the block the state after reset and takes no other event away; the reply, the count of
free draws and the agenda are the model's own and stay (log entry 15). -/
def Obligations.ResetMayComeAtAnyTime : Prop :=
  ∀ (s : State) (rest : List Event), s.agenda = .reset :: rest →
    step s = .next { State.reset with agenda := rest, reply := s.reply, draws := s.draws }

/-- The invariant of the block holds after reset (R20, R21, R24, R40). -/
def Obligations.InvariantHoldsAtReset : Prop := BlockInv State.reset

/-- R20, R21, R24, R40: every step keeps the invariant: legal status bits, ERRINFO recorded exactly with ERR, both element
spaces canonical and inside their ranges, and at every stage of a run after CHK the operands checked, HEIGHT, WIDTH and CFA
supplied and the artifact the next operation reads complete. -/
def Obligations.StepKeepsTheInvariant : Prop :=
  ∀ s t : State, BlockInv s → step s = .next t → BlockInv t

/-- R24: no operation reads an artifact element nothing has written: from a state that meets the invariant no step
faults. -/
def Obligations.NoStepFaults : Prop :=
  ∀ (s : State) (r : Fault), BlockInv s → step s ≠ .fault r

/-- R20: the fields of the STATUS word, which a host read of register 0x01 returns; host writes to it are ignored; the legal combinations are kept by every step, so
the nine words are the only values. -/
def Obligations.StatusStaysLegal : Prop :=
  (∀ t : Status,
    t.word.getLsbD 0 = t.busy ∧ t.word.getLsbD 1 = t.done ∧ t.word.getLsbD 2 = t.err ∧ t.word.getLsbD 3 = false
    ∧ t.word.extractLsb' 4 3 = t.stage ∧ t.word.extractLsb' 7 57 = 0)
  ∧ (∀ s : State, rreg 0x01 s = { s with reply := s.status.word })
  ∧ (∀ (d : Word) (s : State), wreg 0x01 d s = .next s)
  ∧ State.reset.status.word = 0
  ∧ (∀ s t : State, StatusLegal s.status → step s = .next t → StatusLegal t.status)
  ∧ ∀ t : Status, StatusLegal t → t.word ∈ [0x00, 0x11, 0x21, 0x31, 0x41, 0x51, 0x61, 0x72, (0x74 : Word)]

/-- R21: the fields of the ERRINFO word, which a host read of register 0x02 returns; host writes to it are ignored; CODE is not 0 exactly while STATUS.ERR is 1, kept
by every step; an accepted START or CLEAR sets it to 0; the four words are the only values. -/
def Obligations.ErrinfoRecordsTheError : Prop :=
  (∀ t : ErrInfo,
    t.word.extractLsb' 0 2 = t.code ∧ t.word.extractLsb' 2 2 = 0 ∧ t.word.extractLsb' 4 3 = t.estage
    ∧ t.word.extractLsb' 7 57 = 0)
  ∧ (∀ s : State, rreg 0x02 s = { s with reply := s.errinfo.word })
  ∧ (∀ (d : Word) (s : State), wreg 0x02 d s = .next s)
  ∧ State.reset.errinfo.word = 0
  ∧ (∀ s t : State, ErrinfoLegal s → step s = .next t → ErrinfoLegal t)
  ∧ (∀ s : State, ErrinfoLegal s →
      (s.errinfo.code ≠ 0 ↔ s.status.err = true) ∧ s.errinfo.word ∈ [0x00, 0x11, 0x12, (0x63 : Word)])
  ∧ ∀ s t : State, (s.status.stage = 0 ∧ exec .start s = .next t ∨ s.status.stage = 7 ∧ exec .clear s = .next t) →
      t.errinfo.word = 0

/-! ### Steps -/

/-- R83, R19, R44, R49, R60: a host transaction of the agenda is performed as the host port says, in one step; a write to
CTRL runs the decoded command; the sequencer's turn runs the decoded stage while BUSY = 1 and
changes nothing while BUSY = 0 (log entry 16); with no event to come a step is the sequencer's turn (log entry 1). A code
word that `withFetchWord` places is what the next step runs, an operation with its operand registers supplied (log entries
2, 17). -/
def Obligations.StepRunsTheDecodedInstruction : Prop :=
  (∀ (s : State) (n : BitVec 5) (d : Word) (rest : List Event), s.agenda = .wreg n d :: rest →
    step s = wreg n d { s with agenda := rest })
  ∧ (∀ (s : State) (n : BitVec 5) (rest : List Event), s.agenda = .rreg n :: rest →
    step s = .next (rreg n { s with agenda := rest }))
  ∧ (∀ (s : State) (i : BitVec 32) (d : Word) (rest : List Event), s.agenda = .wmem i d :: rest →
    step s = .next (wmem i d { s with agenda := rest }))
  ∧ (∀ (s : State) (e : ReadTarget) (rest : List Event), s.agenda = .rmem e :: rest →
    step s = .next (rmem e { s with agenda := rest }))
  ∧ (∀ (s : State) (d : Word) (rest : List Event), s.agenda = .wreg 0x00 d :: rest →
    step s = exec (decodeCommand d) { s with agenda := rest })
  ∧ (∀ (s : State) (rest : List Event), s.agenda = .seq :: rest → s.status.busy = true →
    step s = exec (decodeStage s.status.stage) { s with agenda := rest })
  ∧ (∀ (s : State) (rest : List Event), s.agenda = .seq :: rest → s.status.busy = false →
    step s = .next { s with agenda := rest })
  ∧ (∀ s : State, s.agenda = [] → s.status.busy = true → step s = exec (decodeStage s.status.stage) s)
  ∧ (∀ s : State, s.agenda = [] → s.status.busy = false → step s = .next s)
  ∧ (∀ (s : State) (w : Nat), w < 2 ^ 64 → step (s.withFetchWord 64 w) = exec (decodeCommand (BitVec.ofNat 64 w)) s)
  ∧ ∀ (s : State) (c : BitVec 3), c ≠ 0 → c ≠ 7 →
      step (s.withFetchWord 8 c.toNat) =
        exec (decodeStage c)
          { s with status := { s.status with stage := c, busy := true }, written := .replicate 32 true }

/-- R80: START, issued by a write to CTRL with 1 in bits [3:0], begins a run in IDLE and is ignored elsewhere. -/
def Obligations.StartBeginsARunInIdleOnly : Prop :=
  ∀ s : State,
    (s.status.stage = 0 → exec .start s =
      .next { s with
        status := { busy := true, done := false, err := false, stage := 1 }
        errinfo := { code := 0, estage := 0 } })
    ∧ (s.status.stage ≠ 0 → exec .start s = .next s)
    ∧ ∀ d : Word, d.toNat % 16 = 1 → wreg 0x00 d s = exec .start s

/-- R81: CLEAR, issued by a write to CTRL with 2 in bits [3:0], returns to IDLE from END and is ignored elsewhere. -/
def Obligations.ClearReturnsToIdleFromEndOnly : Prop :=
  ∀ s : State,
    (s.status.stage = 7 → exec .clear s =
      .next { s with
        status := { s.status with done := false, err := false, stage := 0 }
        errinfo := { code := 0, estage := 0 } })
    ∧ (s.status.stage ≠ 7 → exec .clear s = .next s)
    ∧ ∀ d : Word, d.toNat % 16 = 2 → wreg 0x00 d s = exec .clear s

/-- R82, R67: a reserved command, issued by a write to CTRL with any other code in bits [3:0], changes nothing. R62, R83: at
the stage codes IDLE and END there is no operation; that the model lets the sequencer have a turn there, which answers the
same state, is its own choice (log entries 1, 2, 16). -/
def Obligations.ReservedAndRestingChangeNothing : Prop :=
  ∀ s : State,
    (∀ code : BitVec 4, exec (.reservedCmd code) s = .next s)
    ∧ (∀ d : Word, d.toNat % 16 ≠ 1 → d.toNat % 16 ≠ 2 → wreg 0x00 d s = .next s)
    ∧ exec .idle s = .next s ∧ exec .endStage s = .next s

/-- R86, R50: once a START is accepted no host transaction ends the run, holds it, or changes anything of the block. -/
def Obligations.TheHostCannotDisturbARun : Prop :=
  ∀ (s : State) (e : Event) (rest : List Event), s.status.busy = true → s.status.stage ≠ 0 → s.status.stage ≠ 7 →
    IsTransaction e = true → s.agenda = e :: rest →
    ∃ t, step s = .next t ∧ t.agenda = rest ∧ SameBlock s t

/-- R83: where each stage's operation leaves STATUS, whenever it answers a next state. -/
def Obligations.StagesFollowTheTransferTable : Prop :=
  ∀ s t : State,
    (exec .chk s = .next t →
      t.status = { s.status with stage := 2 } ∨ t.status = { busy := false, done := false, err := true, stage := 7 })
    ∧ (exec .blc s = .next t → t.status = { s.status with stage := 3 })
    ∧ (exec .dem s = .next t → t.status = { s.status with stage := 4 })
    ∧ (exec .wbs s = .next t → t.status = { s.status with stage := 5 })
    ∧ (exec .cct s = .next t → t.status = { s.status with stage := 6 })
    ∧ (exec .gam s = .next t →
      t.status = { s.status with busy := false, done := true, stage := 7 }
      ∨ t.status = { busy := false, done := false, err := true, stage := 7 })

/-- R199, R200: a run that the sequencer is left alone with reaches END, with exactly one of DONE and ERR, after at most as
many turns as there are stages left; the only way it does not is a run that the spec gives no meaning (U1, U3). That an
empty agenda gives the sequencer its turn is the model's choice (log entry 1). -/
def Obligations.RunsEndWithinTheStagesLeft : Prop :=
  ∀ s : State, BlockInv s → s.status.busy = true → s.agenda = [] →
    (∃ t, steps (7 - s.status.stage.toNat) s = .next t
      ∧ t.status.stage = 7 ∧ t.status.busy = false ∧ t.status.done ≠ t.status.err)
    ∨ ∃ r, steps (7 - s.status.stage.toNat) s = .refused r
      ∧ ((∃ n, r = .registerNoValue n) ∨ (∃ i, r = .rawNoValue i) ∨ r = .notFinite)

/-- R73, R72, R199: `wait` and the mark `run` end: after at most thirteen steps, and seven, the loop is off the agenda, the
block is not busy, and `wait` has returned the STATUS word; unless the run in progress has no meaning, and a turn of the
sequencer is refused while the loop is still on the agenda. How often the sequencer steps between two reads of `wait` is
the model's choice (log entry 19). -/
def Obligations.WaitAndRunEnd : Prop :=
  ∀ (s : State) (rest : List Event), BlockInv s →
    (s.agenda = .wait :: rest →
      (∃ k t, k ≤ 13 ∧ steps k s = .next t ∧ t.agenda = rest ∧ t.status.busy = false ∧ t.reply = t.status.word
        ∧ operandsOf t = operandsOf s)
      ∨ ∃ k t r, k ≤ 12 ∧ steps k s = .next t ∧ t.agenda = .seq :: .wait :: rest ∧ step t = .refused r)
    ∧ (s.agenda = .run :: rest →
      (∃ k t, k ≤ 7 ∧ steps k s = .next t ∧ t.agenda = rest ∧ t.status.busy = false ∧ operandsOf t = operandsOf s)
      ∨ ∃ k t r, k ≤ 6 ∧ steps k s = .next t ∧ t.agenda = .run :: rest ∧ step t = .refused r)

/-- R50, R83: a run is one evaluation of the pipeline on the operands as they are at START: START and six turns of the
sequencer leave the error it names, or its image in OUT, and are refused exactly where it is. -/
def Obligations.ARunIsOneEvaluation : Prop :=
  ∀ s : State, AtStart s →
    match evaluate s with
    | .next (.error e) =>
      ∃ t, steps 7 s = .next t ∧ t.status = { busy := false, done := false, err := true, stage := 7 }
        ∧ t.errinfo = { code := errorCode e, estage := if e = .allZeroImage then 6 else 1 }
        ∧ t.out = s.out ∧ t.raw = s.raw ∧ operandsOf t = operandsOf s
    | .next (.image px) =>
      ∃ t, steps 7 s = .next t ∧ t.status = { busy := false, done := true, err := false, stage := 7 }
        ∧ t.errinfo = { code := 0, estage := 0 } ∧ px.length = s.elements
        ∧ t.out = s.out.writeAll 0 px ∧ t.raw = s.raw ∧ operandsOf t = operandsOf s
    | .fault _ => False
    | .refused r => steps 7 s = .refused r

/-- R30: the outcome of a run depends on HEIGHT, WIDTH, CFA, BL0..BL2, WB, CCM and the RAW elements of the frame as they
are at START (that one holds no value counts as well), and on nothing else: not on BL3, the rest of RAW, OUT, an earlier run's
artifacts or status. -/
def Obligations.OutcomeDependsOnTheOperandsOnly : Prop :=
  ∀ s₁ s₂ : State, AtStart s₁ → AtStart s₂ →
    s₁.height = s₂.height → s₁.width = s₂.width → s₁.cfa = s₂.cfa → s₁.wb = s₂.wb → s₁.ccm = s₂.ccm →
    (∀ n : Fin 3, s₁.bl[n.castSucc] = s₂.bl[n.castSucc]) →
    (∀ r : Reg, r.isOperand = true → r ≠ .bl 3 → r.hasValue s₁ = r.hasValue s₂) →
    (∀ i, i < s₁.samples → s₁.raw.read i = s₂.raw.read i) → s₁.out.wf → s₂.out.wf →
    (∀ r, steps 7 s₁ = .refused r → steps 7 s₂ = .refused r)
    ∧ ∀ t₁, steps 7 s₁ = .next t₁ →
        ∃ t₂, steps 7 s₂ = .next t₂ ∧ t₂.status = t₁.status ∧ t₂.errinfo = t₁.errinfo
          ∧ (t₁.status.done = true → ∀ i, i < s₁.elements → t₂.out.read i = t₁.out.read i)

/-! ### The host port -/

/-- R13: the host reads an operand register at any time and the read changes nothing; a write is stored while BUSY = 0 and
ignored while BUSY = 1; no command and no operation writes an operand register. (That every register R13 speaks of has a
value is the hypothesis of the first clause: R29 for one that has none.) -/
def Obligations.OperandRegistersAreTheHosts : Prop :=
  (∀ (s : State) (r : Reg), r.isOperand = true → r.hasValue s = true →
    rreg r.number s = { s with reply := r.word s })
  ∧ (∀ (s : State) (r : Reg) (d : Word), r.isOperand = true → s.status.busy = true → wreg r.number d s = .next s)
  ∧ (∀ (s : State) (r : Reg) (d : Word), r.isOperand = true → s.status.busy = false →
    wreg r.number d s = .next (r.store d s))
  ∧ ∀ (i : Instr) (s t : State), exec i s = .next t → operandsOf t = operandsOf s

/-- R64, R11, R12, R14 to R17: while BUSY = 0 a write to an operand register stores the low bits of the word (a `Val`
register what the word decodes to, and nothing if it does not), a read returns the stored value zero-extended, and no other
register, space or artifact changes. R14, R6: cell `(i, j)` of CFA stands in bits `[2(2i+j)+1 : 2(2i+j)]`, and the cell of
position `(r, c)` is that of the parities of `r` and `c`. -/
def Obligations.WrittenOperandsReadBack : Prop :=
  (∀ (p : BitVec 8) (i j : ℕ), i < 2 → j < 2 → (cfaCell p i j).val = p.toNat / 4 ^ (2 * i + j) % 4)
  ∧ (∀ (p : BitVec 8) (r c : ℕ), (cfaAt p r c).val = p.toNat / 4 ^ (2 * (r % 2) + c % 2) % 4)
  ∧ ∀ (s : State) (r : Reg) (d : Word), r.isOperand = true → s.status.busy = false →
    ∃ t, wreg r.number d s = .next t
      ∧ (r = .height ∨ r = .width → (rreg r.number t).reply.toNat = d.toNat % 2 ^ 16)
      ∧ (r = .cfa → (rreg r.number t).reply.toNat = d.toNat % 2 ^ 8)
      ∧ (∀ n, r = .wb n → (rreg r.number t).reply.toNat = d.toNat % 2 ^ 32 ∧ t.wb[n].toNat = d.toNat % 2 ^ 32)
      ∧ (∀ n, r = .ccm n → (rreg r.number t).reply.toNat = d.toNat % 2 ^ 32 ∧ t.ccm[n].toNat = d.toNat % 2 ^ 32)
      ∧ (∀ n v, r = .bl n → Val.dec d = some v → (rreg r.number t).reply = v.enc ∧ t.bl[n] = v)
      ∧ (∀ n, r = .bl n → Val.dec d = none → t = s)
      ∧ (∀ r' : Reg, r' ≠ r → r'.word t = r'.word s ∧ r'.hasValue t = r'.hasValue s)
      ∧ t = { s with
          height := t.height, width := t.width, cfa := t.cfa, bl := t.bl, wb := t.wb, ccm := t.ccm
          written := t.written }

/-- R18: the reserved register numbers read 0 and ignore writes. -/
def Obligations.ReservedNumbersReadZero : Prop :=
  ∀ (n : BitVec 5) (s : State), (n = 0x06 ∨ n = 0x07 ∨ n = 0x0F ∨ 0x19 ≤ n.toNat) →
    rreg n s = { s with reply := 0 } ∧ ∀ d : Word, wreg n d s = .next s

/-- R19: a write to CTRL issues the command in bits [3:0] of the word; CTRL stores nothing and reads 0. -/
def Obligations.CtrlIsTheCommandPort : Prop :=
  (∀ (d : Word) (s : State), wreg 0x00 d s = exec (decodeCommand d) s)
  ∧ (∀ (d e : Word) (s : State), d.toNat % 16 = e.toNat % 16 → wreg 0x00 d s = wreg 0x00 e s)
  ∧ ∀ s : State, rreg 0x00 s = { s with reply := 0 }

/-- R46: a read has no side effect on the block; a read of a register that holds a value, of a RAW element that holds one,
and, while BUSY = 0, of an OUT element that holds one can be repeated. -/
def Obligations.ReadsHaveNoSideEffects : Prop :=
  (∀ (n : BitVec 5) (s : State), SameBlock s (rreg n s) ∧ (rreg n s).agenda = s.agenda)
  ∧ (∀ (e : ReadTarget) (s : State), SameBlock s (rmem e s) ∧ (rmem e s).agenda = s.agenda)
  ∧ (∀ (r : Reg) (s : State), r.hasValue s = true → rreg r.number (rreg r.number s) = rreg r.number s)
  ∧ (∀ (i : BitVec 32) (s : State), (s.raw.read i.toNat).isSome = true →
    rmem (.raw i) (rmem (.raw i) s) = rmem (.raw i) s)
  ∧ ∀ (i : BitVec 34) (s : State), s.status.busy = false → (s.out.read i.toNat).isSome = true →
    rmem (.out i) (rmem (.out i) s) = rmem (.out i) s

/-- R44, R50: a WMEM of a `Val` while BUSY = 0 is what a later RMEM of that element returns and changes no other element
and nothing else; while BUSY = 1 it has no effect. -/
def Obligations.RawHoldsWhatTheHostWrites : Prop :=
  ∀ (s : State) (i : BitVec 32) (d : Word),
    (s.status.busy = true → wmem i d s = s)
    ∧ ∀ v, s.status.busy = false → Val.dec d = some v → s.raw.wf →
        (rmem (.raw i) (wmem i d s)).reply = v.enc
        ∧ (∀ j, (wmem i d s).raw.read j = if j = i.toNat then some v else s.raw.read j)
        ∧ wmem i d s = { s with raw := (wmem i d s).raw }

/-- R51, R44: an RMEM of OUT while BUSY = 0 returns the stored element, while BUSY = 1 a free word; RAW is read at any time;
and while BUSY = 0 no step but a reset changes OUT. -/
def Obligations.OutIsReadWhileNotBusy : Prop :=
  (∀ (s : State) (i : BitVec 34) (v : Val), s.status.busy = false → s.out.read i.toNat = some v →
    rmem (.out i) s = { s with reply := v.enc })
  ∧ (∀ (s : State) (i : BitVec 34), s.status.busy = true →
    rmem (.out i) s = { s with reply := Config.freeWord s.draws, draws := s.draws + 1 })
  ∧ (∀ (s : State) (i : BitVec 32) (v : Val), s.raw.read i.toNat = some v → rmem (.raw i) s = { s with reply := v.enc })
  ∧ ∀ (s t : State), s.status.busy = false → s.agenda.head? ≠ some .reset → step s = .next t → t.out = s.out

/-- R29: a host read of a register or an element that holds no value returns a free word, a fresh one for each read, and
changes nothing else. -/
def Obligations.ReadsOfNoValueAreFree : Prop :=
  (∀ (s : State) (r : Reg), r.hasValue s = false →
    rreg r.number s = { s with reply := Config.freeWord s.draws, draws := s.draws + 1 })
  ∧ (∀ (s : State) (i : BitVec 32), s.raw.read i.toNat = none →
    rmem (.raw i) s = { s with reply := Config.freeWord s.draws, draws := s.draws + 1 })
  ∧ ∀ (s : State) (i : BitVec 34), s.out.read i.toNat = none →
    rmem (.out i) s = { s with reply := Config.freeWord s.draws, draws := s.draws + 1 }

/-! ### The operations -/

/-- R84, R171, R172, R175: CHK tests the dimensions first and then that the four cells are one red, two green and one blue,
in any places; the errors are recorded with their codes and stage 1; stage code 1 selects CHK. The registers it reads hold
values (R29). -/
def Obligations.ChkTestsDimensionsThenPattern : Prop :=
  decodeStage 1 = .chk ∧ ∀ s : State, FrameSupplied s → PatternSupplied s →
    (s.H % 2 = 1 ∨ s.W % 2 = 1 → exec .chk s =
      .next { s with
        errinfo := { code := 1, estage := 1 }
        status := { busy := false, done := false, err := true, stage := 7 } })
    ∧ (s.H % 2 = 0 → s.W % 2 = 0 →
        ¬ [cfaCell s.cfa 0 0, cfaCell s.cfa 0 1, cfaCell s.cfa 1 0, cfaCell s.cfa 1 1].Perm [0, 1, 1, 2] →
        exec .chk s =
          .next { s with
            errinfo := { code := 2, estage := 1 }
            status := { busy := false, done := false, err := true, stage := 7 } })
    ∧ (s.H % 2 = 0 → s.W % 2 = 0 →
        [cfaCell s.cfa 0 0, cfaCell s.cfa 0 1, cfaCell s.cfa 1 0, cfaCell s.cfa 1 1].Perm [0, 1, 1, 2] →
        exec .chk s = .next { s with status := { s.status with stage := 2 } })

/-- R174: error entry. Whatever instruction raises an error, it leaves everything but STATUS, ERRINFO and the hidden global
maximum as it was; ERRINFO is the error's code and the stage that raised it. -/
def Obligations.ErrorEntryTouchesNothingElse : Prop :=
  ∀ (i : Instr) (s t : State), s.status.err = false → exec i s = .next t → t.status.err = true →
    t = { s with
      gmax := t.gmax
      errinfo := t.errinfo
      status := { busy := false, done := false, err := true, stage := 7 } }
    ∧ (i = .chk ∧ t.gmax = s.gmax ∧ (t.errinfo = { code := 1, estage := 1 } ∨ t.errinfo = { code := 2, estage := 1 })
      ∨ i = .gam ∧ t.errinfo = { code := 3, estage := 6 })

/-- R52, R176: no instruction writes RAW; only GAM writes OUT, and no element of index `3·H·W` or above; the agenda, the
reply and the notes of what was written are no instruction's. -/
def Obligations.OnlyGamWritesOut : Prop :=
  (∀ (i : Instr) (s t : State), exec i s = .next t →
    t.raw = s.raw ∧ t.agenda = s.agenda ∧ t.reply = s.reply ∧ t.draws = s.draws ∧ t.written = s.written
    ∧ (i ≠ .gam → t.out = s.out ∧ t.gmax = s.gmax))
  ∧ ∀ s t : State, s.out.wf → exec .gam s = .next t → ∀ k, s.elements ≤ k → t.out.read k = s.out.read k

/-- R101 (c): no instruction but BLC reads RAW or a BL register: with other contents there it does the same. -/
def Obligations.OnlyBlcReadsRawAndBiases : Prop :=
  ∀ (i : Instr) (s : State) (m : Memory) (b : Vector Val 4), i ≠ .blc →
    exec i { s with raw := m, bl := b } = andThen (exec i s) fun t => .next { t with raw := m, bl := b }

/-- R100: BLC. Each element is the sample less the bias its own parity cell selects; nothing else changes but the stage.
R8, U3: with every sample there, a difference that is not finite refuses the run (log entry 8). -/
def Obligations.BlcSubtractsTheBias : Prop :=
  ∀ s : State, FrameSupplied s → PatternSupplied s → BiasesSupplied s →
    ((∀ i, i < s.samples → ∃ x d, s.raw.read i = some x ∧ Val.sub x s.bl[cfaAt s.cfa (i / s.W) (i % s.W)] = some d) →
      ∃ g, exec .blc s = .next { s with artBlc := g, status := { s.status with stage := 3 } }
        ∧ g.length = s.samples
        ∧ ∀ r c, r < s.H → c < s.W →
            ∃ x, s.raw.read (r * s.W + c) = some x ∧ g[r * s.W + c]? = Val.sub x s.bl[cfaAt s.cfa r c])
    ∧ ((∀ i, i < s.samples → (s.raw.read i).isSome = true) →
      (∃ r c x, r < s.H ∧ c < s.W ∧ s.raw.read (r * s.W + c) = some x ∧ Val.sub x s.bl[cfaAt s.cfa r c] = none) →
      exec .blc s = .refused .notFinite)

/-- R101 (a), (b): where every sample equals its bias the result is zero everywhere; where every bias is zero the result is
the samples. Both complete. -/
def Obligations.BlcOnBlackAndWithoutBias : Prop :=
  ∀ s : State, FrameSupplied s → PatternSupplied s → BiasesSupplied s →
    ((∀ i, i < s.samples → s.raw.read i = some s.bl[cfaAt s.cfa (i / s.W) (i % s.W)]) →
      exec .blc s =
        .next { s with artBlc := .replicate s.samples Val.zero, status := { s.status with stage := 3 } })
    ∧ ((∀ n : Fin 4, s.bl[n] = Val.zero) → (∀ i, i < s.samples → (s.raw.read i).isSome = true) →
      ∃ g, exec .blc s = .next { s with artBlc := g, status := { s.status with stage := 3 } }
        ∧ g.length = s.samples ∧ ∀ i, i < s.samples → g[i]? = s.raw.read i)

/-- R29: a run in which BLC reads a RAW element of the frame that holds no value has no meaning: BLC is refused. If it is
the first such element, the registers hold values and the differences before it are finite, the refusal names it. -/
def Obligations.BlcRefusesMissingSamples : Prop :=
  ∀ (s : State) (i : Nat), i < s.samples → s.raw.read i = none →
    (∃ r, exec .blc s = .refused r)
    ∧ (FrameSupplied s → PatternSupplied s → BiasesSupplied s →
        (∀ j, j < i → ∃ x d, s.raw.read j = some x ∧ Val.sub x s.bl[cfaAt s.cfa (j / s.W) (j % s.W)] = some d) →
        exec .blc s = .refused (.rawNoValue i))

/-- R112: the mirror at the edges: index −1 is sample 1 and index `n` is sample `n − 2`, the edge sample is not repeated;
inside the grid it is the identity; a grid of one sample has only that one. No index outside the grid is formed, and on an
even grid the parity of the index is kept. -/
def Obligations.ReflectionMirrorsWithoutRepeating : Prop :=
  (∀ n : Nat, 2 ≤ n → refl (-1) n = 1 ∧ refl (n : Int) n = n - 2)
  ∧ (∀ n i : Nat, i < n → refl (i : Int) n = i)
  ∧ (∀ i : Int, refl i 1 = 0)
  ∧ (∀ (i : Int) (n : Nat), 1 ≤ n → refl i n < n)
  ∧ (∀ (i : Int) (n : Nat), 1 ≤ n → n ≠ 1 →
      refl i n = if i % (2 * ((n : Int) - 1)) < n then (i % (2 * ((n : Int) - 1))).toNat
        else (2 * ((n : Int) - 1) - i % (2 * ((n : Int) - 1))).toNat)
  ∧ ∀ (i : Int) (n : Nat), 2 ≤ n → n % 2 = 0 → -1 ≤ i → i ≤ n → (refl i n : Int) % 2 = i % 2

/-- R113, R110, R111, R114: DEM. Each element is the sum of the weighted plane values at the reflected positions, in the
order and association of R114 (written out in Safety.lean); nothing else changes but the stage. R8, U3: a product or a sum
that is not finite refuses the run (log entry 8). -/
def Obligations.DemSumsTheWindow : Prop :=
  ∀ s : State, FrameSupplied s → PatternSupplied s → s.artBlc.length = s.samples →
    ((∀ (r c : Nat) (ch : Fin 3), r < s.H → c < s.W → (demFormula s ch r c).isSome = true) →
      ∃ g, exec .dem s = .next { s with artDem := g, status := { s.status with stage := 4 } }
        ∧ g.length = s.elements
        ∧ ∀ (r c : Nat) (ch : Fin 3), r < s.H → c < s.W → g[imageIndex s.W r c ch]? = demFormula s ch r c)
    ∧ ((∃ (r c : Nat) (ch : Fin 3), r < s.H ∧ c < s.W ∧ demFormula s ch r c = none) →
      exec .dem s = .refused .notFinite)

/-- R115 (a): with the greens on a diagonal, DEM keeps every sample at its own position and channel, bit for bit. -/
def Obligations.DemPreservesSamples : Prop :=
  ∀ s t : State, EvenFrame s → GreensOnDiagonal s.cfa → s.artBlc.length = s.samples → exec .dem s = .next t →
    ∀ (r c : Nat) (ch : Fin 3), r < s.H → c < s.W → (cfaAt s.cfa r c).val = ch.val →
      t.artDem[imageIndex s.W r c ch]? = s.artBlc[r * s.W + c]?

/-- R115 (b): with the greens on a diagonal, the closed forms at the positions of the other channels. -/
def Obligations.DemClosedForms : Prop :=
  ∀ s t : State, EvenFrame s → GreensOnDiagonal s.cfa → s.artBlc.length = s.samples → exec .dem s = .next t →
    ∀ (r c : Nat) (ch : Fin 3), r < s.H → c < s.W →
      (ch = 1 → cfaAt s.cfa r c ≠ 1 →
        t.artDem[imageIndex s.W r c ch]? =
          leftSum (neighbour s r c Val.quarter (-1) 0)
            [neighbour s r c Val.quarter 0 (-1), neighbour s r c Val.quarter 0 1, neighbour s r c Val.quarter 1 0])
      ∧ (ch ≠ 1 → cfaAt s.cfa r c = 1 → (cfaAt s.cfa r (c + 1)).val = ch.val →
        t.artDem[imageIndex s.W r c ch]? =
          leftSum (neighbour s r c Val.half 0 (-1)) [neighbour s r c Val.half 0 1])
      ∧ (ch ≠ 1 → cfaAt s.cfa r c = 1 → (cfaAt s.cfa (r + 1) c).val = ch.val →
        t.artDem[imageIndex s.W r c ch]? =
          leftSum (neighbour s r c Val.half (-1) 0) [neighbour s r c Val.half 1 0])
      ∧ (ch ≠ 1 → cfaAt s.cfa r c ≠ 1 → (cfaAt s.cfa r c).val ≠ ch.val →
        t.artDem[imageIndex s.W r c ch]? =
          leftSum (neighbour s r c Val.quarter (-1) (-1))
            [neighbour s r c Val.quarter (-1) 1, neighbour s r c Val.quarter 1 (-1),
             neighbour s r c Val.quarter 1 1])

/-- R115 (c): a uniform grid of a 32-bit whole number gives that number in every channel of every pixel. -/
def Obligations.DemKeepsUniformGrids : Prop :=
  ∀ (s : State) (n : BitVec 32), FrameSupplied s → PatternSupplied s → EvenFrame s → GreensOnDiagonal s.cfa →
    s.artBlc = .replicate s.samples (Val.ofInt n) →
    exec .dem s =
      .next { s with artDem := .replicate s.elements (Val.ofInt n), status := { s.status with stage := 4 } }

/-- R116: the function DEM on grids of one and of two samples, in the reference instance. -/
def Obligations.DemOnSmallGrids : Prop :=
  ∀ (g : ℚ → ℚ) (cfa : BitVec 8) (a b : ℚ),
    demImage (Num.rational g) cfa 1 1 [a] =
      .next [if cfaCell cfa 0 0 = 0 then 4 * a else 0, if cfaCell cfa 0 0 = 1 then 2 * a else 0,
        if cfaCell cfa 0 0 = 2 then 4 * a else 0]
    ∧ (cfaCell cfa 0 0 = 0 → cfaCell cfa 0 1 = 1 →
        demImage (Num.rational g) cfa 1 2 [a, b] = .next [2 * a, b / 2, 0, 2 * a, 3 * b / 2, 0])

/-- R115 (e): DEM is linear in the reference instance, for every pattern and every frame. -/
def Obligations.DemIsLinear : Prop :=
  ∀ (g : ℚ → ℚ) (cfa : BitVec 8) (H W : Nat) (a : ℚ) (X Y : List ℚ), X.length = H * W → Y.length = H * W →
    ∃ DX DY, demImage (Num.rational g) cfa H W X = .next DX ∧ demImage (Num.rational g) cfa H W Y = .next DY
      ∧ demImage (Num.rational g) cfa H W (List.zipWith (fun x y => a * x + y) X Y) =
          .next (List.zipWith (fun x y => a * x + y) DX DY)

/-- R130: WBS. Each element is multiplied by the gain of its channel, formed first; nothing else changes but the stage. R8,
U3: a product that is not finite refuses the run (log entry 8). -/
def Obligations.WbsScalesEachChannel : Prop :=
  ∀ s : State, FrameSupplied s → GainsSupplied s → s.artDem.length = s.elements →
    ((∀ (r c : Nat) (ch : Fin 3) (x : Val), r < s.H → c < s.W → s.artDem[imageIndex s.W r c ch]? = some x →
        (wbsFormula s ch x).isSome = true) →
      ∃ g, exec .wbs s = .next { s with artWbs := g, status := { s.status with stage := 5 } }
        ∧ g.length = s.elements
        ∧ ∀ (r c : Nat) (ch : Fin 3) (x : Val), r < s.H → c < s.W → s.artDem[imageIndex s.W r c ch]? = some x →
            g[imageIndex s.W r c ch]? = wbsFormula s ch x)
    ∧ ((∃ (r c : Nat) (ch : Fin 3) (x : Val), r < s.H ∧ c < s.W ∧ s.artDem[imageIndex s.W r c ch]? = some x
          ∧ wbsFormula s ch x = none) →
      exec .wbs s = .refused .notFinite)

/-- R131: a channel of WBS's result depends on its own gain only; in the reference instance `k` times the gain gives `k`
times that channel and leaves the others; zero in gives zero out; unit gains give the input image. -/
def Obligations.WbsChannelsAreIndependent : Prop :=
  (∀ (s t t' : State) (wb' : Vector (BitVec 32) 3) (ch : Fin 3), wb'[ch] = s.wb[ch] →
    exec .wbs s = .next t → exec .wbs { s with wb := wb' } = .next t' →
    ∀ r c, r < s.H → c < s.W → t'.artWbs[imageIndex s.W r c ch]? = t.artWbs[imageIndex s.W r c ch]?)
  ∧ (∀ (g : ℚ → ℚ) (wb : Vector (BitVec 32) 3) (ch : Fin 3) (k : ℤ) (kg : BitVec 32) (H W : Nat) (art a b : List ℚ),
    kg.toInt = k * wb[ch].toInt →
    wbsImage (Num.rational g) wb H W art = .next a →
    wbsImage (Num.rational g) (wb.set ch kg) H W art = .next b →
    b.length = a.length
    ∧ ∀ (j : Nat) (x y : ℚ), a[j]? = some x → b[j]? = some y → y = if j % 3 = ch.val then k * x else x)
  ∧ (∀ s : State, FrameSupplied s → GainsSupplied s → s.artDem = .replicate s.elements Val.zero →
    exec .wbs s = .next { s with artWbs := .replicate s.elements Val.zero, status := { s.status with stage := 5 } })
  ∧ ∀ s : State, FrameSupplied s → GainsSupplied s → s.artDem.length = s.elements → (∀ ch : Fin 3, s.wb[ch] = 1024) →
    exec .wbs s = .next { s with artWbs := s.artDem, status := { s.status with stage := 5 } }

/-- R140: CCT. Channel `c` of a pixel is row `c` of the matrix applied to the pixel, the products added in order and
divided by 1024 at the end; nothing else changes but the stage. R8, U3: a result on the way that is not finite refuses the
run (log entry 8). -/
def Obligations.CctMultipliesByTheMatrix : Prop :=
  ∀ s : State, FrameSupplied s → s.artWbs.length = s.elements →
    ((∀ (r c : Nat) (ch : Fin 3) (x0 x1 x2 : Val), r < s.H → c < s.W →
        s.artWbs[imageIndex s.W r c 0]? = some x0 → s.artWbs[imageIndex s.W r c 1]? = some x1 →
        s.artWbs[imageIndex s.W r c 2]? = some x2 → (cctFormula s ch x0 x1 x2).isSome = true) →
      ∃ g, exec .cct s = .next { s with artCct := g, status := { s.status with stage := 6 } }
        ∧ g.length = s.elements
        ∧ ∀ (r c : Nat) (ch : Fin 3) (x0 x1 x2 : Val), r < s.H → c < s.W →
            s.artWbs[imageIndex s.W r c 0]? = some x0 → s.artWbs[imageIndex s.W r c 1]? = some x1 →
            s.artWbs[imageIndex s.W r c 2]? = some x2 → g[imageIndex s.W r c ch]? = cctFormula s ch x0 x1 x2)
    ∧ ((∃ (r c : Nat) (ch : Fin 3) (x0 x1 x2 : Val), r < s.H ∧ c < s.W
          ∧ s.artWbs[imageIndex s.W r c 0]? = some x0 ∧ s.artWbs[imageIndex s.W r c 1]? = some x1
          ∧ s.artWbs[imageIndex s.W r c 2]? = some x2 ∧ cctFormula s ch x0 x1 x2 = none) →
      exec .cct s = .refused .notFinite)

/-- R140 (a), R142 (a): with the identity matrix, the reset value, CCT returns the input image exactly, as long as 1024
times an element is finite. -/
def Obligations.CctIdentityKeepsTheImage : Prop :=
  ∀ s : State, FrameSupplied s → s.artWbs.length = s.elements → s.ccm = State.reset.ccm →
    (∀ v ∈ s.artWbs, v.units.natAbs < 2 ^ (Val.magBits - 10)) →
    exec .cct s = .next { s with artCct := s.artWbs, status := { s.status with stage := 6 } }

/-- R142 (c): in the reference instance CCT is the linear map `M / 1024` on each pixel, `M` row-major in CCM0 .. CCM8. -/
def Obligations.CctIsTheMatrixOverTheRationals : Prop :=
  ∀ (g : ℚ → ℚ) (ccm : Vector (BitVec 32) 9) (H W : Nat) (art : List ℚ), art.length = H * W * 3 →
    ∃ img, cctImage (Num.rational g) ccm H W art = .next img ∧ img.length = H * W * 3
      ∧ ∀ (p : Nat) (c : Fin 3), p < H * W →
          img[3 * p + c.val]? =
            some ((((List.finRange 3).map fun k : Fin 3 =>
              ((ccm[3 * c.val + k.val]'(by omega)).toInt : ℚ) * art.getD (3 * p + k.val) 0).sum) / 1024)

/-- R150, R151, R85: GAM on an image with a positive element. The divisor is the greatest element of all three channels;
each OUT element of the frame is `gpow` of the clamped element over it, every other OUT element is as before, the run
completes, and nothing else changes. -/
def Obligations.GamEncodesTheImage : Prop :=
  ∀ s : State, FrameSupplied s → s.artCct.length = s.elements → (∃ v ∈ s.artCct, 0 < v.units) → s.out.wf →
    ∃ m out', m ∈ s.artCct ∧ (∀ v ∈ s.artCct, v.units ≤ m.units)
      ∧ exec .gam s =
          .next { s with gmax := m, out := out', status := { s.status with busy := false, done := true, stage := 7 } }
      ∧ (∀ j x, s.artCct[j]? = some x →
          ∃ q, Val.div (clamped x) m = some q ∧ out'.read j = some (Config.gpow q))
      ∧ ∀ j, s.elements ≤ j → out'.read j = s.out.read j

/-- R173, R150 (c), (d), R151, R174: GAM on an image without a positive element, an empty one among them, raises
AllZeroImageError: OUT is not touched. With a positive element it does not. -/
def Obligations.GamRaisesOnNoPositiveElement : Prop :=
  ∀ s : State, FrameSupplied s → s.artCct.length = s.elements →
    ((∀ v ∈ s.artCct, v.units ≤ 0) →
      exec .gam s =
        .next { s with
          gmax := Val.zero
          errinfo := { code := 3, estage := 6 }
          status := { busy := false, done := false, err := true, stage := 7 } })
    ∧ ((∃ v ∈ s.artCct, 0 < v.units) → ∀ t, exec .gam s = .next t → t.status.done = true ∧ t.errinfo = s.errinfo)

/-- R150 (a), (b), R153, R9 (P5, P6): every OUT element of a successful run lies in [zero, one], one of them is one, the
elements that are not positive become zero, and the order of any two elements is kept, weakly. -/
def Obligations.GamOutputIsOrderedInTheUnitInterval : Prop :=
  ∀ s t : State, s.artCct.length = s.elements → (∃ v ∈ s.artCct, 0 < v.units) → s.out.wf → exec .gam s = .next t →
    (∀ j, j < s.elements → ∃ v, t.out.read j = some v ∧ 0 ≤ v.units ∧ v.units ≤ Val.one.units)
    ∧ (∃ j, j < s.elements ∧ t.out.read j = some Val.one)
    ∧ (∀ j x, s.artCct[j]? = some x → x.units ≤ 0 → t.out.read j = some Val.zero)
    ∧ ∀ i j x y v w, s.artCct[i]? = some x → s.artCct[j]? = some y → x.units ≤ y.units →
        t.out.read i = some v → t.out.read j = some w → v.units ≤ w.units

/-- R152: in the reference instance the result of GAM does not change when every element of the image is multiplied by one
positive factor; the global maximum is multiplied by it. -/
def Obligations.GamIsScaleInvariant : Prop :=
  ∀ (g : ℚ → ℚ) (k : ℚ) (H W : Nat) (art : List ℚ), 0 < k →
    gamImage (Num.rational g) H W (art.map (k * ·)) =
      andThen (gamImage (Num.rational g) H W art) fun r => .next (k * r.1, r.2)

/-- R8, U3: the arithmetic of BLC, DEM, WBS and CCT stays finite, and they complete, on all operands of magnitude up to
2^980, whatever the gains and the matrix; and GAM needs no bound. The registers they read hold values (R29). -/
def Obligations.OperationsCompleteOnBoundedOperands : Prop :=
  ∀ s : State, FrameSupplied s → PatternSupplied s → BiasesSupplied s → GainsSupplied s →
    ((∀ i, i < s.samples → ∃ x, s.raw.read i = some x ∧ x.units.natAbs ≤ 2 ^ (Val.unitBits + 980)) →
      (∀ n : Fin 4, s.bl[n].units.natAbs ≤ 2 ^ (Val.unitBits + 980)) →
      ∃ t, exec .blc s = .next t ∧ t.status.stage = 3)
    ∧ (s.artBlc.length = s.samples → (∀ v ∈ s.artBlc, v.units.natAbs ≤ 2 ^ (Val.unitBits + 980)) →
      ∃ t, exec .dem s = .next t ∧ t.status.stage = 4)
    ∧ (s.artDem.length = s.elements → (∀ v ∈ s.artDem, v.units.natAbs ≤ 2 ^ (Val.unitBits + 980)) →
      ∃ t, exec .wbs s = .next t ∧ t.status.stage = 5)
    ∧ (s.artWbs.length = s.elements → (∀ v ∈ s.artWbs, v.units.natAbs ≤ 2 ^ (Val.unitBits + 980)) →
      ∃ t, exec .cct s = .next t ∧ t.status.stage = 6)
    ∧ (s.artCct.length = s.elements → ∃ t, exec .gam s = .next t ∧ t.status.stage = 7)

/-! ### Whole runs -/

/-- R173, R101 (a), R115 (d), R131 (b), R142 (b): a frame in which every sample equals its bias, under any gains and any
matrix, ends in AllZeroImageError, with OUT, RAW and the operands as they were. -/
def Obligations.AllBlackFramesEndInAllZeroImageError : Prop :=
  ∀ s : State, AtStart s → OperandsSupplied s → Checked s →
    (∀ i, i < s.samples → s.raw.read i = some s.bl[cfaAt s.cfa (i / s.W) (i % s.W)]) →
    ∃ t, steps 7 s = .next t ∧ t.status.word = 0x74 ∧ t.errinfo.word = 0x63
      ∧ t.out = s.out ∧ t.raw = s.raw ∧ operandsOf t = operandsOf s

/-- The source's end-to-end scenario for every even frame and every positive whole number (95_test_vectors.md S1, R115 (c),
R131 (c), R142 (d), R150 (b)): zero biases, unit gains, the reset matrix, a uniform frame; OUT is one everywhere. -/
def Obligations.UniformFramesEncodeToOne : Prop :=
  ∀ (s : State) (n : BitVec 32), AtStart s → OperandsSupplied s → EvenFrame s → GreensOnDiagonal s.cfa → 0 < n.toInt →
    (∀ i, i < s.samples → s.raw.read i = some (Val.ofInt n)) →
    (∀ k : Fin 3, s.bl[k.castSucc] = Val.zero) → (∀ k : Fin 3, s.wb[k] = 1024) → s.ccm = State.reset.ccm →
    s.out.wf →
    ∃ t, steps 7 s = .next t ∧ t.status.word = 0x72 ∧ t.errinfo.word = 0
      ∧ ∀ j, j < s.elements → t.out.read j = some Val.one

/-! ### Registers that hold no value -/

/-- R29, R192, R18 (the table): an operation that reads an operand register which holds no value is refused, and the refusal
names such a register; nothing else is refused so; from reset, START followed by the first step of a run is refused at
HEIGHT. Which register is named where several hold no value is the model's choice (log entry 27). -/
def Obligations.OperationsRefuseRegistersWithoutValue : Prop :=
  (∀ s : State,
    (¬ (FrameSupplied s ∧ PatternSupplied s) → RefusedForRegister s (exec .chk s))
    ∧ (¬ (FrameSupplied s ∧ PatternSupplied s ∧ BiasesSupplied s) → RefusedForRegister s (exec .blc s))
    ∧ (¬ (FrameSupplied s ∧ PatternSupplied s) → RefusedForRegister s (exec .dem s))
    ∧ (¬ (FrameSupplied s ∧ GainsSupplied s) → RefusedForRegister s (exec .wbs s))
    ∧ (¬ FrameSupplied s → RefusedForRegister s (exec .cct s))
    ∧ (¬ FrameSupplied s → RefusedForRegister s (exec .gam s)))
  ∧ (∀ (i : Instr) (s : State) (n : BitVec 5), exec i s = .refused (.registerNoValue n) → RefusedForRegister s (exec i s))
  ∧ steps 2 { State.reset with agenda := [.wreg 0x00 0x1] } = .refused (.registerNoValue 0x03)
end

