-- ==== Sys2Proof/Laws/Arith.lean ====
section
/-! SUPPORT. What rounding can do: it keeps a number that is already a binary64 number, its result always has at most 53
significant bits, is as near as any binary64 number and passes none, and there is no result only where the rounded
magnitude is too large. -/

namespace Sys2Proof

theorem roundHalfEven_mul (q : Nat) {d : Nat} (hd : 0 < d) : roundHalfEven (q * d) d = q := by
  unfold roundHalfEven
  rw [Nat.mul_mod_left, Nat.mul_div_cancel _ hd, if_pos (by omega)]

/-- Rounding to a whole number gives the quotient or the next number. -/
theorem roundHalfEven_cases (n d : Nat) : roundHalfEven n d = n / d ∨ roundHalfEven n d = n / d + 1 := by
  unfold roundHalfEven
  split
  · exact Or.inl rfl
  · split
    · exact Or.inr rfl
    · split
      · exact Or.inl rfl
      · exact Or.inr rfl

/-- `roundMagnitude` with the library's logarithm. -/
theorem roundMagnitude_eq (n d : Nat) :
    roundMagnitude n d = roundHalfEven n (d * 2 ^ ((n / d).log2 - 52)) * 2 ^ ((n / d).log2 - 52) := by
  unfold roundMagnitude
  rw [bitLog_eq]

/-- A `Val` has at most 53 significant bits, with the library's logarithm. -/
theorem Val.significant (v : Val) : v.units.natAbs % 2 ^ (v.units.natAbs.log2 - 52) = 0 := by
  have h := v.fits.2
  rwa [bitLog_eq] at h

/-- A magnitude of at most 53 significant bits is kept. -/
theorem roundMagnitude_exact {m d : Nat} (hd : 0 < d) (hm : m % 2 ^ (m.log2 - 52) = 0) :
    roundMagnitude (m * d) d = m := by
  obtain ⟨q, hq⟩ := Nat.dvd_of_mod_eq_zero hm
  generalize hk : m.log2 - 52 = k at *
  rw [roundMagnitude_eq, Nat.mul_div_cancel _ hd, hk]
  have : m * d = q * (d * 2 ^ k) := by
    rw [hq]
    ring
  rw [this, roundHalfEven_mul q (Nat.mul_pos hd (Nat.two_pow_pos k)), hq, Nat.mul_comm]

/-- The significand before scaling: at most `2^53`. -/
theorem roundHalfEven_le (n d : Nat) :
    roundHalfEven n (d * 2 ^ ((n / d).log2 - 52)) ≤ 2 ^ 53 := by
  generalize hk : (n / d).log2 - 52 = k
  have hq : n / (d * 2 ^ k) < 2 ^ 53 := by
    rw [← Nat.div_div_eq_div_mul, Nat.div_lt_iff_lt_mul (Nat.two_pow_pos k), ← pow_add]
    rcases Nat.eq_zero_or_pos (n / d) with h0 | hpos
    · rw [h0]
      positivity
    · exact (Nat.log2_lt hpos.ne').1 (by omega)
  have := roundHalfEven_cases n (d * 2 ^ k)
  omega

/-- A rounded magnitude has at most 53 significant bits. -/
theorem roundMagnitude_significant (n d : Nat) :
    roundMagnitude n d % 2 ^ ((roundMagnitude n d).log2 - 52) = 0 := by
  have hle := roundHalfEven_le n d
  rw [roundMagnitude_eq]
  generalize (n / d).log2 - 52 = k at *
  generalize roundHalfEven n (d * 2 ^ k) = r at *
  rcases Nat.lt_or_eq_of_le hle with hlt | rfl
  · apply Nat.mod_eq_zero_of_dvd
    refine Dvd.dvd.mul_left (Nat.pow_dvd_pow 2 ?_) r
    rcases Nat.eq_zero_or_pos r with rfl | hr
    · simp
    · have hb : r * 2 ^ k < 2 ^ (53 + k) := by
        rw [pow_add]
        exact (Nat.mul_lt_mul_right (Nat.two_pow_pos k)).2 hlt
      have := (Nat.log2_lt (Nat.mul_pos hr (Nat.two_pow_pos k)).ne').2 hb
      omega
  · rw [← pow_add, Nat.log2_two_pow]
    exact Nat.mod_eq_zero_of_dvd (Nat.pow_dvd_pow 2 (by omega))

@[simp] theorem Val.ofUnits_units (v : Val) : Val.ofUnits v.units = some v := by
  unfold Val.ofUnits
  rw [dif_pos v.fits]

theorem Val.ofUnits_eq_some {u : Int} {v : Val} : Val.ofUnits u = some v ↔ v.units = u := by
  constructor
  · intro h
    unfold Val.ofUnits at h
    split at h
    · rw [← Option.some.inj h]
    · cases h
  · rintro rfl
    exact Val.ofUnits_units v

/-- Rounding keeps every binary64 number. -/
theorem Val.round_exact (v : Val) {d : Nat} (hd : 0 < d) : Val.round (v.units * (d : Int)) d = some v := by
  unfold Val.round
  have hs : (v.units * (d : Int)).sign = v.units.sign := by
    rw [Int.sign_mul, Int.sign_eq_one_of_pos (a := (d : Int)) (by exact_mod_cast hd), Int.mul_one]
  rw [hs, Int.natAbs_mul, Int.natAbs_natCast, roundMagnitude_exact hd v.significant, Int.sign_mul_natAbs]
  exact Val.ofUnits_units v

/-- Rounding answers a number exactly if the rounded magnitude is below 2^1024, and then that number. -/
theorem Val.round_eq_some {n : Int} {d : Nat} (hd : 0 < d) {v : Val} :
    Val.round n d = some v ↔
      roundMagnitude n.natAbs d < Val.magLimit ∧ v.units = n.sign * (roundMagnitude n.natAbs d : Int) := by
  unfold Val.round
  rw [Val.ofUnits_eq_some]
  constructor
  · intro h
    refine ⟨?_, h⟩
    have hf := v.fits.1
    rw [h, Int.natAbs_mul, Int.natAbs_natCast] at hf
    rcases eq_or_ne n 0 with rfl | hn
    · have h0 : roundMagnitude 0 d = 0 := by
        have := roundMagnitude_exact (m := 0) hd (by simp)
        rwa [Nat.zero_mul] at this
      rw [Int.natAbs_zero, h0]
      exact lt_of_le_of_lt (Nat.zero_le _) v.fits.1
    · rwa [Int.natAbs_sign_of_ne_zero hn, Nat.one_mul] at hf
  · exact fun h => h.2

@[simp] theorem Val.zero_units : Val.zero.units = 0 := by
  show (0 : BitVec 32).toInt * (Val.unitsPerOne : Int) = 0
  rw [show (0 : BitVec 32).toInt = 0 from rfl, Int.zero_mul]

/-- The one zero (D4): a `Val` is zero exactly if it counts no units. -/
theorem Val.eq_zero_iff (v : Val) : v = Val.zero ↔ v.units = 0 := by
  constructor
  · rintro rfl
    exact Val.zero_units
  · intro h
    cases v
    simp only at h
    subst h
    have := Val.zero_units
    cases hz : Val.zero
    rw [hz] at this
    simp only at this
    subst this
    rfl

/-- The rounded multiple of `d` is as near to `n` as any other. -/
theorem roundHalfEven_nearest (n : Nat) {d : Nat} (hd : 0 < d) (w : Nat) :
    |(roundHalfEven n d : Int) * d - n| ≤ |(w : Int) * d - n| := by
  have hn : (n : Int) = d * (n / d : Nat) + (n % d : Nat) := by exact_mod_cast (Nat.div_add_mod n d).symm
  have hm : ((n % d : Nat) : Int) < d := by exact_mod_cast Nat.mod_lt n hd
  have hd' : (0 : Int) < d := by exact_mod_cast hd
  have key : ∀ a : Int, a * d - n = (a - (n / d : Nat)) * d - (n % d : Nat) := by
    intro a
    rw [hn]
    ring
  have low : w ≤ n / d → ((w : Int) - (n / d : Nat)) * d ≤ 0 := fun h =>
    mul_nonpos_of_nonpos_of_nonneg (by omega) hd'.le
  have high : n / d < w → (d : Int) ≤ ((w : Int) - (n / d : Nat)) * d := fun h =>
    le_mul_of_one_le_left hd'.le (by omega)
  have side : |((w : Int) - (n / d : Nat)) * d - (n % d : Nat)| = (n % d : Nat) - ((w : Int) - (n / d : Nat)) * d
      ∧ (n % d : Nat) ≤ (n % d : Nat) - ((w : Int) - (n / d : Nat)) * d
      ∨ |((w : Int) - (n / d : Nat)) * d - (n % d : Nat)| = ((w : Int) - (n / d : Nat)) * d - (n % d : Nat)
      ∧ d - (n % d : Nat) ≤ ((w : Int) - (n / d : Nat)) * d - (n % d : Nat) := by
    rcases Nat.lt_or_ge (n / d) w with h | h
    · have := high h
      exact .inr ⟨abs_of_nonneg (by omega), by omega⟩
    · have := low h
      refine .inl ⟨?_, by omega⟩
      rw [abs_of_nonpos (by omega)]
      ring
  rw [key w]
  rcases roundHalfEven_cases n d with h | h
  · have hup : 2 * (n % d) ≤ d := by
      unfold roundHalfEven at h
      split at h
      · omega
      · split at h <;> omega
    rw [h, key, sub_self, zero_mul, zero_sub, abs_neg, abs_of_nonneg (by omega)]
    omega
  · have hup : d ≤ 2 * (n % d) := by
      unfold roundHalfEven at h
      split at h
      · omega
      · omega
    rw [h, key]
    push_cast
    rw [add_sub_cancel_left, one_mul, abs_of_nonneg (by omega)]
    push_cast at side ⊢
    omega

/-- A rounded magnitude is as near to `n / d` as any binary64 magnitude. -/
theorem roundMagnitude_nearest (n : Nat) {d : Nat} (hd : 0 < d) (v : Val) :
    |(roundMagnitude n d : Int) * d - n| ≤ |(v.units.natAbs : Int) * d - n| := by
  have hv := v.significant
  generalize v.units.natAbs = w at *
  rw [roundMagnitude_eq]
  generalize hk : (n / d).log2 - 52 = k
  have near : ∀ a : Nat, |(roundHalfEven n (d * 2 ^ k) : Int) * 2 ^ k * d - n| ≤ |(a : Int) * 2 ^ k * d - n| := by
    intro a
    have := roundHalfEven_nearest n (d := d * 2 ^ k) (Nat.mul_pos hd (Nat.two_pow_pos k)) a
    push_cast at this
    rwa [mul_comm (d : Int), ← mul_assoc, ← mul_assoc] at this
  push_cast
  rcases Nat.lt_or_ge (w.log2 - 52) k with hlt | hge
  · -- such a `v` lies below the binade of `n / d`, and so below its least multiple of `2 ^ k`
    have hpos : n / d ≠ 0 := by
      intro h
      rw [h] at hk
      simp at hk
      omega
    have hlow : 2 ^ (52 + k) ≤ n / d := by
      have := Nat.log2_self_le hpos
      rwa [show (n / d).log2 = 52 + k by omega] at this
    have hw : w < 2 ^ (52 + k) := by
      rcases Nat.eq_zero_or_pos w with rfl | hw
      · exact Nat.two_pow_pos _
      · exact (Nat.log2_lt hw.ne').1 (by omega)
    have h1 : (2 : Int) ^ 52 * 2 ^ k * d ≤ n := by
      rw [← pow_add]
      exact_mod_cast (Nat.mul_le_mul_right d hlow).trans (Nat.div_mul_le_self n d)
    have h2 : (w : Int) * d < 2 ^ 52 * 2 ^ k * d := by
      rw [← pow_add]
      exact_mod_cast (Nat.mul_lt_mul_right hd).2 hw
    have := near (2 ^ 52)
    rw [show ((2 ^ 52 : Nat) : Int) = 2 ^ 52 from rfl] at this
    rw [abs_of_nonpos (a := (2 : Int) ^ 52 * 2 ^ k * d - n) (by omega)] at this
    rw [abs_of_nonpos (a := (w : Int) * d - n) (by omega)]
    omega
  · obtain ⟨c, hc⟩ := (Nat.pow_dvd_pow 2 hge).trans (Nat.dvd_of_mod_eq_zero hv)
    rw [hc, Nat.mul_comm (2 ^ k) c]
    push_cast
    exact near c

/-- Rounding does not pass a binary64 number: a magnitude of at most that of `v` is rounded to at most that. -/
theorem roundMagnitude_le {n d : Nat} (hd : 0 < d) {v : Val} (h : n ≤ v.units.natAbs * d) :
    roundMagnitude n d ≤ v.units.natAbs := by
  have := roundMagnitude_nearest n hd v
  have h' : (n : Int) ≤ v.units.natAbs * d := by exact_mod_cast h
  rw [abs_of_nonneg (a := (v.units.natAbs : Int) * d - n) (by omega)] at this
  have := (abs_le.1 this).2
  have h2 : (roundMagnitude n d : Int) * d ≤ v.units.natAbs * d := by omega
  exact Nat.le_of_mul_le_mul_right (by exact_mod_cast h2) hd

/-- A magnitude of at least that of `v` is rounded to at least that. -/
theorem le_roundMagnitude {n d : Nat} (hd : 0 < d) {v : Val} (h : v.units.natAbs * d ≤ n) :
    v.units.natAbs ≤ roundMagnitude n d := by
  have := roundMagnitude_nearest n hd v
  have h' : (v.units.natAbs : Int) * d ≤ n := by exact_mod_cast h
  rw [abs_of_nonpos (a := (v.units.natAbs : Int) * d - n) (by omega)] at this
  have := (abs_le.1 this).1
  have h2 : (v.units.natAbs : Int) * d ≤ roundMagnitude n d * d := by omega
  exact Nat.le_of_mul_le_mul_right (by exact_mod_cast h2) hd

/-- A value whose magnitude is at most that of a binary64 number is rounded to one of at most that magnitude. -/
theorem Val.round_completes {n : Int} {d : Nat} (hd : 0 < d) {v : Val} (h : n.natAbs ≤ v.units.natAbs * d) :
    ∃ z, Val.round n d = some z ∧ z.units.natAbs ≤ v.units.natAbs := by
  have hle := roundMagnitude_le hd h
  have hlt := lt_of_le_of_lt hle v.fits.1
  have hs : (n.sign * (roundMagnitude n.natAbs d : Int)).natAbs ≤ roundMagnitude n.natAbs d := by
    rw [Int.natAbs_mul, Int.natAbs_natCast]
    rcases eq_or_ne n 0 with rfl | hn
    · simp
    · rw [Int.natAbs_sign_of_ne_zero hn, Nat.one_mul]
  have hf : Val.Fits (n.sign * (roundMagnitude n.natAbs d : Int)) := by
    refine ⟨lt_of_le_of_lt hs hlt, ?_⟩
    rw [Int.natAbs_mul, Int.natAbs_natCast, bitLog_eq]
    rcases eq_or_ne n 0 with rfl | hn
    · simp
    · rw [Int.natAbs_sign_of_ne_zero hn, Nat.one_mul]
      exact roundMagnitude_significant _ _
  exact ⟨⟨_, hf⟩, (Val.round_eq_some hd).2 ⟨hlt, rfl⟩, hs.trans hle⟩

end Sys2Proof
end

