-- ==== Sys2Proof/Laws/State.lean ====
section
/-! SUPPORT. What each named update of the state does to each field: one lemma per field per update, gathered in one
conjunction for each update (simp takes it apart into its equations). -/

namespace Sys2Proof.Machine

@[simp] theorem toStage_fields (g : BitVec 3) (s : State) :
    (toStage g s).height = s.height
    ∧ (toStage g s).width = s.width
    ∧ (toStage g s).cfa = s.cfa
    ∧ (toStage g s).bl = s.bl
    ∧ (toStage g s).wb = s.wb
    ∧ (toStage g s).ccm = s.ccm
    ∧ (toStage g s).status = { s.status with stage := g }
    ∧ (toStage g s).errinfo = s.errinfo
    ∧ (toStage g s).raw = s.raw
    ∧ (toStage g s).out = s.out
    ∧ (toStage g s).artBlc = s.artBlc
    ∧ (toStage g s).artDem = s.artDem
    ∧ (toStage g s).artWbs = s.artWbs
    ∧ (toStage g s).artCct = s.artCct
    ∧ (toStage g s).gmax = s.gmax
    ∧ (toStage g s).agenda = s.agenda
    ∧ (toStage g s).reply = s.reply
    ∧ (toStage g s).draws = s.draws
    ∧ (toStage g s).written = s.written :=
  ⟨rfl, rfl, rfl, rfl, rfl, rfl, rfl, rfl, rfl, rfl, rfl, rfl, rfl, rfl, rfl, rfl, rfl, rfl, rfl⟩

@[simp] theorem raiseError_fields (e : ErrorKind) (g : BitVec 3) (s : State) :
    (raiseError e g s).height = s.height
    ∧ (raiseError e g s).width = s.width
    ∧ (raiseError e g s).cfa = s.cfa
    ∧ (raiseError e g s).bl = s.bl
    ∧ (raiseError e g s).wb = s.wb
    ∧ (raiseError e g s).ccm = s.ccm
    ∧ (raiseError e g s).status = { busy := false, done := false, err := true, stage := 7 }
    ∧ (raiseError e g s).errinfo = { code := errorCode e, estage := g }
    ∧ (raiseError e g s).raw = s.raw
    ∧ (raiseError e g s).out = s.out
    ∧ (raiseError e g s).artBlc = s.artBlc
    ∧ (raiseError e g s).artDem = s.artDem
    ∧ (raiseError e g s).artWbs = s.artWbs
    ∧ (raiseError e g s).artCct = s.artCct
    ∧ (raiseError e g s).gmax = s.gmax
    ∧ (raiseError e g s).agenda = s.agenda
    ∧ (raiseError e g s).reply = s.reply
    ∧ (raiseError e g s).draws = s.draws
    ∧ (raiseError e g s).written = s.written :=
  ⟨rfl, rfl, rfl, rfl, rfl, rfl, rfl, rfl, rfl, rfl, rfl, rfl, rfl, rfl, rfl, rfl, rfl, rfl, rfl⟩

@[simp] theorem returnToIdle_fields (s : State) :
    (returnToIdle s).height = s.height
    ∧ (returnToIdle s).width = s.width
    ∧ (returnToIdle s).cfa = s.cfa
    ∧ (returnToIdle s).bl = s.bl
    ∧ (returnToIdle s).wb = s.wb
    ∧ (returnToIdle s).ccm = s.ccm
    ∧ (returnToIdle s).status = { s.status with done := false, err := false, stage := 0 }
    ∧ (returnToIdle s).errinfo = { code := 0, estage := 0 }
    ∧ (returnToIdle s).raw = s.raw
    ∧ (returnToIdle s).out = s.out
    ∧ (returnToIdle s).artBlc = s.artBlc
    ∧ (returnToIdle s).artDem = s.artDem
    ∧ (returnToIdle s).artWbs = s.artWbs
    ∧ (returnToIdle s).artCct = s.artCct
    ∧ (returnToIdle s).gmax = s.gmax
    ∧ (returnToIdle s).agenda = s.agenda
    ∧ (returnToIdle s).reply = s.reply
    ∧ (returnToIdle s).draws = s.draws
    ∧ (returnToIdle s).written = s.written :=
  ⟨rfl, rfl, rfl, rfl, rfl, rfl, rfl, rfl, rfl, rfl, rfl, rfl, rfl, rfl, rfl, rfl, rfl, rfl, rfl⟩

@[simp] theorem complete_fields (s : State) :
    (complete s).height = s.height
    ∧ (complete s).width = s.width
    ∧ (complete s).cfa = s.cfa
    ∧ (complete s).bl = s.bl
    ∧ (complete s).wb = s.wb
    ∧ (complete s).ccm = s.ccm
    ∧ (complete s).status = { s.status with busy := false, done := true, stage := 7 }
    ∧ (complete s).errinfo = s.errinfo
    ∧ (complete s).raw = s.raw
    ∧ (complete s).out = s.out
    ∧ (complete s).artBlc = s.artBlc
    ∧ (complete s).artDem = s.artDem
    ∧ (complete s).artWbs = s.artWbs
    ∧ (complete s).artCct = s.artCct
    ∧ (complete s).gmax = s.gmax
    ∧ (complete s).agenda = s.agenda
    ∧ (complete s).reply = s.reply
    ∧ (complete s).draws = s.draws
    ∧ (complete s).written = s.written :=
  ⟨rfl, rfl, rfl, rfl, rfl, rfl, rfl, rfl, rfl, rfl, rfl, rfl, rfl, rfl, rfl, rfl, rfl, rfl, rfl⟩

@[simp] theorem beginRun_fields (s : State) :
    (beginRun s).height = s.height
    ∧ (beginRun s).width = s.width
    ∧ (beginRun s).cfa = s.cfa
    ∧ (beginRun s).bl = s.bl
    ∧ (beginRun s).wb = s.wb
    ∧ (beginRun s).ccm = s.ccm
    ∧ (beginRun s).status = { busy := true, done := false, err := false, stage := 1 }
    ∧ (beginRun s).errinfo = { code := 0, estage := 0 }
    ∧ (beginRun s).raw = s.raw
    ∧ (beginRun s).out = s.out
    ∧ (beginRun s).artBlc = s.artBlc
    ∧ (beginRun s).artDem = s.artDem
    ∧ (beginRun s).artWbs = s.artWbs
    ∧ (beginRun s).artCct = s.artCct
    ∧ (beginRun s).gmax = s.gmax
    ∧ (beginRun s).agenda = s.agenda
    ∧ (beginRun s).reply = s.reply
    ∧ (beginRun s).draws = s.draws
    ∧ (beginRun s).written = s.written :=
  ⟨rfl, rfl, rfl, rfl, rfl, rfl, rfl, rfl, rfl, rfl, rfl, rfl, rfl, rfl, rfl, rfl, rfl, rfl, rfl⟩

@[simp] theorem drawReply_fields (s : State) :
    (drawReply s).height = s.height
    ∧ (drawReply s).width = s.width
    ∧ (drawReply s).cfa = s.cfa
    ∧ (drawReply s).bl = s.bl
    ∧ (drawReply s).wb = s.wb
    ∧ (drawReply s).ccm = s.ccm
    ∧ (drawReply s).status = s.status
    ∧ (drawReply s).errinfo = s.errinfo
    ∧ (drawReply s).raw = s.raw
    ∧ (drawReply s).out = s.out
    ∧ (drawReply s).artBlc = s.artBlc
    ∧ (drawReply s).artDem = s.artDem
    ∧ (drawReply s).artWbs = s.artWbs
    ∧ (drawReply s).artCct = s.artCct
    ∧ (drawReply s).gmax = s.gmax
    ∧ (drawReply s).agenda = s.agenda
    ∧ (drawReply s).reply = Config.freeWord s.draws
    ∧ (drawReply s).draws = s.draws + 1
    ∧ (drawReply s).written = s.written :=
  ⟨rfl, rfl, rfl, rfl, rfl, rfl, rfl, rfl, rfl, rfl, rfl, rfl, rfl, rfl, rfl, rfl, rfl, rfl, rfl⟩

@[simp] theorem markWritten_fields (r : Reg) (s : State) :
    (markWritten r s).height = s.height
    ∧ (markWritten r s).width = s.width
    ∧ (markWritten r s).cfa = s.cfa
    ∧ (markWritten r s).bl = s.bl
    ∧ (markWritten r s).wb = s.wb
    ∧ (markWritten r s).ccm = s.ccm
    ∧ (markWritten r s).status = s.status
    ∧ (markWritten r s).errinfo = s.errinfo
    ∧ (markWritten r s).raw = s.raw
    ∧ (markWritten r s).out = s.out
    ∧ (markWritten r s).artBlc = s.artBlc
    ∧ (markWritten r s).artDem = s.artDem
    ∧ (markWritten r s).artWbs = s.artWbs
    ∧ (markWritten r s).artCct = s.artCct
    ∧ (markWritten r s).gmax = s.gmax
    ∧ (markWritten r s).agenda = s.agenda
    ∧ (markWritten r s).reply = s.reply
    ∧ (markWritten r s).draws = s.draws
    ∧ (markWritten r s).written = s.written.set r.number.toNat true :=
  ⟨rfl, rfl, rfl, rfl, rfl, rfl, rfl, rfl, rfl, rfl, rfl, rfl, rfl, rfl, rfl, rfl, rfl, rfl, rfl⟩

@[simp] theorem applyReset_fields (s : State) :
    (applyReset s).height = State.reset.height
    ∧ (applyReset s).width = State.reset.width
    ∧ (applyReset s).cfa = State.reset.cfa
    ∧ (applyReset s).bl = State.reset.bl
    ∧ (applyReset s).wb = State.reset.wb
    ∧ (applyReset s).ccm = State.reset.ccm
    ∧ (applyReset s).status = State.reset.status
    ∧ (applyReset s).errinfo = State.reset.errinfo
    ∧ (applyReset s).raw = State.reset.raw
    ∧ (applyReset s).out = State.reset.out
    ∧ (applyReset s).artBlc = State.reset.artBlc
    ∧ (applyReset s).artDem = State.reset.artDem
    ∧ (applyReset s).artWbs = State.reset.artWbs
    ∧ (applyReset s).artCct = State.reset.artCct
    ∧ (applyReset s).gmax = State.reset.gmax
    ∧ (applyReset s).agenda = s.agenda
    ∧ (applyReset s).reply = s.reply
    ∧ (applyReset s).draws = s.draws
    ∧ (applyReset s).written = State.reset.written :=
  ⟨rfl, rfl, rfl, rfl, rfl, rfl, rfl, rfl, rfl, rfl, rfl, rfl, rfl, rfl, rfl, rfl, rfl, rfl, rfl⟩

end Sys2Proof.Machine
end

