-- ==== Sys2Proof/Laws/Ops.lean ====
section
/-! SUPPORT. What the shared operations of Machine/Ops.lean can do, said once for each: sequencing, the traversal of a
frame, the element spaces and the artifacts. -/

namespace Sys2Proof.Machine

section Results

variable {α β φ ρ V : Type}

@[simp] theorem andThen_next (a : α) (f : α → Host.Outcome β φ ρ) : andThen (.next a) f = f a := rfl

@[simp] theorem andThen_fault (r : φ) (f : α → Host.Outcome β φ ρ) : andThen (.fault r) f = .fault r := rfl

@[simp] theorem andThen_refused (r : ρ) (f : α → Host.Outcome β φ ρ) : andThen (.refused r) f = .refused r := rfl

/-- A sequence answers a value exactly if both its parts do. -/
theorem andThen_eq_next {o : Host.Outcome α φ ρ} {f : α → Host.Outcome β φ ρ} {b : β} :
    andThen o f = .next b ↔ ∃ a, o = .next a ∧ f a = .next b := by
  cases o <;> simp

/-- A sequence faults exactly if its first part does, or answers a value on which the second part does. -/
theorem andThen_eq_fault {o : Host.Outcome α φ ρ} {f : α → Host.Outcome β φ ρ} {r : φ} :
    andThen o f = .fault r ↔ o = .fault r ∨ ∃ a, o = .next a ∧ f a = .fault r := by
  cases o <;> simp

@[simp] theorem finite_some (v : V) : finite (some v) = .next v := rfl

@[simp] theorem finite_none : finite (none : Option V) = .refused .notFinite := rfl

theorem finite_eq_next {o : Option V} {v : V} : finite o = .next v ↔ o = some v := by
  cases o <;> simp

theorem finite_ne_fault (o : Option V) (r : Fault) : finite o ≠ .fault r := by
  cases o <;> simp

theorem artRead_eq_next {a : List V} {i : Nat} {v : V} : artRead a i = .next v ↔ a[i]? = some v := by
  unfold artRead
  cases h : a[i]? <;> simp

/-- An artifact read inside the artifact answers its element. -/
theorem artRead_of_lt {a : List V} {i : Nat} (h : i < a.length) : artRead a i = .next a[i] :=
  artRead_eq_next.2 (List.getElem?_eq_getElem h)

/-- A traversal answers a list exactly if every iteration answers that list's element. -/
theorem collect_eq_next {f : Nat → Host.Outcome α φ ρ} {k n : Nat} {l : List α} :
    collect f k n = .next l ↔ l.length = n ∧ ∀ i (h : i < l.length), f (k + i) = .next l[i] := by
  induction n generalizing k l with
  | zero =>
    cases l with
    | nil => simp [collect]
    | cons _ _ => simp [collect]
  | succ n ih =>
    cases l with
    | nil => simp [collect, andThen_eq_next]
    | cons v vs =>
      simp only [collect, andThen_eq_next, ih, List.length_cons, Nat.add_right_cancel_iff, Host.Outcome.next.injEq,
        List.cons.injEq]
      constructor
      · rintro ⟨a, ha, b, ⟨hb, hf⟩, rfl, rfl⟩
        refine ⟨hb, fun i hi => ?_⟩
        cases i with
        | zero => exact ha
        | succ i =>
          have := hf i (by omega)
          rwa [Nat.add_assoc, Nat.add_comm 1 i] at this
      · rintro ⟨hl, hf⟩
        refine ⟨v, hf 0 (by omega), vs, ⟨hl, fun i hi => ?_⟩, rfl, rfl⟩
        rw [show k + 1 + i = k + (i + 1) by omega]
        exact hf (i + 1) (by omega)

/-- A traversal whose iterations all answer a value answers a list. -/
theorem collect_completes {f : Nat → Host.Outcome α φ ρ} {k n : Nat} (h : ∀ i < n, ∃ a, f (k + i) = .next a) :
    ∃ l, collect f k n = .next l := by
  induction n generalizing k with
  | zero => exact ⟨[], rfl⟩
  | succ n ih =>
    obtain ⟨a, ha⟩ := h 0 (by omega)
    obtain ⟨l, hl⟩ := ih (k := k + 1) fun i hi => by
      have := h (i + 1) (by omega)
      rwa [Nat.add_comm i 1, ← Nat.add_assoc] at this
    exact ⟨a :: l, by simp only [collect, hl]; rw [show f k = _ from ha]; rfl⟩

/-- A traversal whose iterations answer a value or the refusal `r`, one of them the refusal, is refused with `r`. -/
theorem collect_refused {f : Nat → Host.Outcome α φ ρ} {k n : Nat} {r : ρ}
    (h : ∀ i < n, (∃ a, f (k + i) = .next a) ∨ f (k + i) = .refused r) (hr : ∃ i < n, f (k + i) = .refused r) :
    collect f k n = .refused r := by
  induction n generalizing k with
  | zero =>
    obtain ⟨i, hi, -⟩ := hr
    omega
  | succ n ih =>
    have shift (i : Nat) : k + (i + 1) = k + 1 + i := by omega
    rcases h 0 (by omega) with ⟨a, ha⟩ | ha
    · obtain ⟨i, hi, hf⟩ := hr
      cases i with
      | zero =>
        rw [ha] at hf
        cases hf
      | succ i =>
        have := ih (k := k + 1) (fun j hj => shift j ▸ h (j + 1) (by omega)) ⟨i, by omega, shift i ▸ hf⟩
        rw [collect, show f k = _ from ha, andThen_next, this, andThen_refused]
    · rw [collect, show f k = _ from ha, andThen_refused]

/-- A traversal that faults does so in one of its iterations. -/
theorem collect_fault {f : Nat → Host.Outcome α φ ρ} {k n : Nat} {r : φ} (h : collect f k n = .fault r) :
    ∃ i < n, f (k + i) = .fault r := by
  induction n generalizing k with
  | zero => simp [collect] at h
  | succ n ih =>
    rw [collect, andThen_eq_fault] at h
    obtain h | ⟨a, -, h⟩ := h
    · exact ⟨0, by omega, h⟩
    · rw [andThen_eq_fault] at h
      obtain h | ⟨b, -, h⟩ := h
      · obtain ⟨i, hi, hf⟩ := ih h
        exact ⟨i + 1, by omega, by rwa [Nat.add_comm i 1, ← Nat.add_assoc]⟩
      · simp at h

end Results

/-! ### The element spaces -/

/-- Reading back what was written, and every other element as before. -/
theorem Memory.read_write (m : Memory) (i j : Nat) (v : Val) (hm : m.wf) :
    (m.write i v).read j = if j = i then some v else m.read j := by
  induction m with
  | nil =>
    simp only [Memory.write, Memory.read]
  | cons e m ih =>
    obtain ⟨k, w⟩ := e
    obtain ⟨hk, hm'⟩ := List.pairwise_cons.1 hm
    simp only [Memory.write]
    split
    · simp only [Memory.read]
    · split
      · subst_vars
        simp only [Memory.read]
        split <;> rfl
      · simp only [Memory.read, ih hm']
        split
        · subst_vars
          split
          · omega
          · rfl
        · rfl

/-- An entry after a write is the one written or was there before. -/
theorem Memory.mem_write {m : Memory} {i : Nat} {v : Val} {e : Nat × Val} (h : e ∈ m.write i v) :
    e = (i, v) ∨ e ∈ m := by
  induction m with
  | nil => exact Or.inl (by simpa [Memory.write] using h)
  | cons a m ih =>
    obtain ⟨k, w⟩ := a
    simp only [Memory.write] at h
    split at h
    · simpa using h
    · split at h
      · simp only [List.mem_cons] at h ⊢
        tauto
      · simp only [List.mem_cons] at h ⊢
        obtain h | h := h
        · exact Or.inr (Or.inl h)
        · exact (ih h).imp id Or.inr

/-- A write keeps the canonical form. -/
theorem Memory.write_wf (m : Memory) (i : Nat) (v : Val) (hm : m.wf) : (m.write i v).wf := by
  induction m with
  | nil => simp [Memory.write]
  | cons a m ih =>
    obtain ⟨k, w⟩ := a
    obtain ⟨hk, hm'⟩ := List.pairwise_cons.1 hm
    simp only [Memory.write]
    split
    · refine List.pairwise_cons.2 ⟨fun e he => ?_, hm⟩
      obtain rfl | he := List.mem_cons.1 he
      · assumption
      · exact lt_trans ‹i < k› (hk e he)
    · split
      · subst_vars
        exact List.pairwise_cons.2 ⟨hk, hm'⟩
      · refine List.pairwise_cons.2 ⟨fun e he => ?_, ih hm'⟩
        obtain rfl | he := Memory.mem_write he
        · show k < i
          omega
        · exact hk e he

theorem Memory.writeAll_wf (m : Memory) (k : Nat) (vs : List Val) (hm : m.wf) : (m.writeAll k vs).wf := by
  induction vs generalizing m k with
  | nil => exact hm
  | cons v vs ih => exact ih _ _ (Memory.write_wf m k v hm)

/-- Reading after a run of writes: the values written, and every other element as before. -/
theorem Memory.read_writeAll (m : Memory) (k j : Nat) (vs : List Val) (hm : m.wf) :
    (m.writeAll k vs).read j = if k ≤ j ∧ j < k + vs.length then vs[j - k]? else m.read j := by
  induction vs generalizing m k with
  | nil =>
    rw [if_neg (by simp only [List.length_nil]; omega)]
    rfl
  | cons v vs ih =>
    rw [Memory.writeAll, ih _ _ (Memory.write_wf m k v hm), Memory.read_write m k j v hm]
    simp only [List.length_cons]
    by_cases h1 : k + 1 ≤ j ∧ j < k + 1 + vs.length
    · rw [if_pos h1, if_pos (by omega)]
      obtain ⟨d, rfl⟩ : ∃ d, j = k + 1 + d := ⟨j - (k + 1), by omega⟩
      rw [show k + 1 + d - (k + 1) = d by omega, show k + 1 + d - k = d + 1 by omega]
      rfl
    · rw [if_neg h1]
      by_cases h2 : j = k
      · subst h2
        rw [if_pos rfl, if_pos (by omega), Nat.sub_self]
        rfl
      · rw [if_neg h2, if_neg (by omega)]

theorem Memory.mem_writeAll {m : Memory} {k : Nat} {vs : List Val} {e : Nat × Val} (h : e ∈ m.writeAll k vs) :
    (k ≤ e.1 ∧ e.1 < k + vs.length) ∨ e ∈ m := by
  induction vs generalizing m k with
  | nil => exact Or.inr h
  | cons v vs ih =>
    simp only [List.length_cons]
    obtain h | h := ih h
    · exact Or.inl (by omega)
    · obtain rfl | h := Memory.mem_write h
      · exact Or.inl (by simp only; omega)
      · exact Or.inr h

/-- The reset state lists no element, so its spaces are canonical. -/
theorem reset_memories_wf : State.reset.raw.wf ∧ State.reset.out.wf :=
  ⟨List.Pairwise.nil, List.Pairwise.nil⟩

end Sys2Proof.Machine
end

