-- ==== Sys2Proof/Laws/PerInstr.lean ====
section
/-! SUPPORT. Statements about every instruction as syntax, one lemma per constructor. -/

namespace Sys2Proof.Laws.CodeWord

/-- The code word of a well-formed instruction has no bit beyond those its format decodes: a command word is below 16, its
ignored bits 0 (R61); a stage code is the 3-bit field itself (R62), and no instruction has both. -/
def Statement (i : Instr) : Prop :=
  i.wf = true →
    (∃ d : Word, encode i = .command d ∧ d.toNat < 16) ∨ (∃ c : BitVec 3, encode i = .stage c)

theorem start : Statement .start := fun _ => Or.inl ⟨_, rfl, by decide⟩

theorem clear : Statement .clear := fun _ => Or.inl ⟨_, rfl, by decide⟩

theorem reservedCmd (code : BitVec 4) : Statement (.reservedCmd code) := fun _ =>
  Or.inl ⟨_, rfl, by
    have := code.isLt
    rw [BitVec.toNat_setWidth, Nat.mod_eq_of_lt (by omega)]
    omega⟩

theorem idle : Statement .idle := fun _ => Or.inr ⟨_, rfl⟩

theorem chk : Statement .chk := fun _ => Or.inr ⟨_, rfl⟩

theorem blc : Statement .blc := fun _ => Or.inr ⟨_, rfl⟩

theorem dem : Statement .dem := fun _ => Or.inr ⟨_, rfl⟩

theorem wbs : Statement .wbs := fun _ => Or.inr ⟨_, rfl⟩

theorem cct : Statement .cct := fun _ => Or.inr ⟨_, rfl⟩

theorem gam : Statement .gam := fun _ => Or.inr ⟨_, rfl⟩

theorem endStage : Statement .endStage := fun _ => Or.inr ⟨_, rfl⟩

end Sys2Proof.Laws.CodeWord
end

