-- ==== Sys2Proof/Laws/Step.lean ====
section
/-! SUPPORT. What an instruction and a step can do, said once: when each operation answers a next state and which, the
shape of what it computes, every way `exec` can answer a next state, and every way a step can. -/

namespace Sys2Proof.Machine

open Sys2Proof.Safety

/-! ### The registers an operation reads -/

/-- With every register it reads holding a value, an operation does what it does; otherwise it is refused. -/
theorem withOperands_of_values {i : Instr} {s : State} (h : ∀ r ∈ registersRead i s, r.hasValue s = true)
    (o : Host.Outcome State Fault Refusal) : withOperands i s o = o := by
  unfold withOperands
  rw [List.find?_eq_none.2 fun r hr => by simp [h r hr]]

theorem withOperands_cases (i : Instr) (s : State) (o : Host.Outcome State Fault Refusal) :
    ((∀ r ∈ registersRead i s, r.hasValue s = true) ∧ withOperands i s o = o)
    ∨ ∃ r ∈ registersRead i s, r.hasValue s = false ∧ withOperands i s o = .refused (.registerNoValue r.number) := by
  cases h : (registersRead i s).find? fun r => !r.hasValue s with
  | none =>
    refine .inl ⟨fun r hr => by simpa using List.find?_eq_none.1 h r hr, ?_⟩
    unfold withOperands
    rw [h]
  | some r =>
    refine .inr ⟨r, List.mem_of_find?_eq_some h, by simpa using List.find?_some h, ?_⟩
    unfold withOperands
    rw [h]

theorem withOperands_eq_next {i : Instr} {s t : State} {o : Host.Outcome State Fault Refusal} :
    withOperands i s o = .next t ↔ (∀ r ∈ registersRead i s, r.hasValue s = true) ∧ o = .next t := by
  constructor
  · intro h
    rcases withOperands_cases i s o with ⟨hr, hw⟩ | ⟨r, -, -, hw⟩
    · exact ⟨hr, hw ▸ h⟩
    · rw [hw] at h
      cases h
  · rintro ⟨hr, rfl⟩
    exact withOperands_of_values hr _

theorem withOperands_fault {i : Instr} {s : State} {o : Host.Outcome State Fault Refusal} {r : Fault}
    (h : withOperands i s o = .fault r) : o = .fault r := by
  rcases withOperands_cases i s o with ⟨-, hw⟩ | ⟨_, -, -, hw⟩
  · exact hw ▸ h
  · rw [hw] at h
    cases h

/-! ### Each operation -/

theorem execChk_eq_next {s t : State} :
    exec .chk s = .next t ↔
      (∀ r ∈ registersRead .chk s, r.hasValue s = true)
      ∧ (if s.H % 2 ≠ 0 ∨ s.W % 2 ≠ 0 then raiseError .dimension 1 s
          else if cfaLegal s.cfa then toStage 2 s else raiseError .filterPattern 1 s) = t := by
  simp only [exec, execChk, withOperands_eq_next, Host.Outcome.next.injEq]

theorem execBlc_eq_next {s t : State} :
    exec .blc s = .next t ↔
      (∀ r ∈ registersRead .blc s, r.hasValue s = true)
      ∧ ∃ g, blcGrid Num.binary64 s.raw.read (fun n => s.bl[n]) s.cfa s.H s.W = .next g
        ∧ toStage 3 { s with artBlc := g } = t := by
  simp only [exec, execBlc, withOperands_eq_next, andThen_eq_next, Host.Outcome.next.injEq]

theorem execDem_eq_next {s t : State} :
    exec .dem s = .next t ↔
      (∀ r ∈ registersRead .dem s, r.hasValue s = true)
      ∧ ∃ g, demImage Num.binary64 s.cfa s.H s.W s.artBlc = .next g ∧ toStage 4 { s with artDem := g } = t := by
  simp only [exec, execDem, withOperands_eq_next, andThen_eq_next, Host.Outcome.next.injEq]

theorem execWbs_eq_next {s t : State} :
    exec .wbs s = .next t ↔
      (∀ r ∈ registersRead .wbs s, r.hasValue s = true)
      ∧ ∃ g, wbsImage Num.binary64 s.wb s.H s.W s.artDem = .next g ∧ toStage 5 { s with artWbs := g } = t := by
  simp only [exec, execWbs, withOperands_eq_next, andThen_eq_next, Host.Outcome.next.injEq]

theorem execCct_eq_next {s t : State} :
    exec .cct s = .next t ↔
      (∀ r ∈ registersRead .cct s, r.hasValue s = true)
      ∧ ∃ g, cctImage Num.binary64 s.ccm s.H s.W s.artWbs = .next g ∧ toStage 6 { s with artCct := g } = t := by
  simp only [exec, execCct, withOperands_eq_next, andThen_eq_next, Host.Outcome.next.injEq]

theorem blcGrid_length {V : Type} {N : Num V} {raw : Nat → Option V} {bl : Fin 4 → V} {cfa : BitVec 8} {H W : Nat}
    {g : List V} (h : blcGrid N raw bl cfa H W = .next g) : g.length = H * W :=
  (collect_eq_next.1 h).1

theorem demImage_length {V : Type} {N : Num V} {cfa : BitVec 8} {H W : Nat} {art g : List V}
    (h : demImage N cfa H W art = .next g) : g.length = H * W * 3 :=
  (collect_eq_next.1 h).1

theorem wbsImage_length {V : Type} {N : Num V} {wb : Vector (BitVec 32) 3} {H W : Nat} {art g : List V}
    (h : wbsImage N wb H W art = .next g) : g.length = H * W * 3 := by
  obtain ⟨_, -, h⟩ := andThen_eq_next.1 h
  exact (collect_eq_next.1 h).1

theorem cctImage_length {V : Type} {N : Num V} {ccm : Vector (BitVec 32) 9} {H W : Nat} {art g : List V}
    (h : cctImage N ccm H W art = .next g) : g.length = H * W * 3 :=
  (collect_eq_next.1 h).1

/-- Steps 2 and 3 of GAM element by element. -/
theorem encodeImage_eq_next {V : Type} {N : Num V} {g : V} {z px : List V} :
    encodeImage N g z = .next px ↔
      px.length = z.length ∧ ∀ i (h : i < z.length), ∃ q, N.div z[i] g = some q ∧ px[i]? = some (N.gpow q) := by
  induction z generalizing px with
  | nil => cases px <;> simp [encodeImage]
  | cons x z ih =>
    simp only [encodeImage, andThen_eq_next, finite_eq_next, Host.Outcome.next.injEq]
    constructor
    · rintro ⟨q, hq, vs, hvs, rfl⟩
      obtain ⟨hl, hi⟩ := ih.1 hvs
      refine ⟨by simp [hl], fun i h => ?_⟩
      cases i with
      | zero => exact ⟨q, by simpa using hq, by simp⟩
      | succ i => simpa using hi i (by simpa using h)
    · rintro ⟨hl, hi⟩
      cases px with
      | nil => simp at hl
      | cons v vs =>
        obtain ⟨q, hq, hv⟩ := hi 0 (by simp)
        refine ⟨q, by simpa using hq, vs, ih.2 ⟨by simpa using hl, fun i h => ?_⟩, ?_⟩
        · exact hi (i + 1) (by simpa using h)
        · simp only [List.getElem?_cons_zero, Option.some.injEq] at hv
          rw [hv]

theorem gamImage_length {V : Type} {N : Num V} {H W : Nat} {art px : List V} {m : V}
    (h : gamImage N H W art = .next (m, some px)) : px.length = H * W * 3 := by
  obtain ⟨z, hz, h⟩ := andThen_eq_next.1 h
  dsimp only at h
  split at h
  · simp only [Host.Outcome.next.injEq, Prod.mk.injEq, reduceCtorEq, and_false] at h
  · obtain ⟨px', hp, h⟩ := andThen_eq_next.1 h
    simp only [Host.Outcome.next.injEq, Prod.mk.injEq, Option.some.injEq] at h
    rw [← h.2, (encodeImage_eq_next.1 hp).1]
    exact (collect_eq_next.1 hz).1

/-! ### Every instruction -/

/-- Every way `exec` can answer a next state. -/
theorem exec_cases {i : Instr} {s t : State} (h : exec i s = .next t) :
    t = s
    ∨ (i = .start ∧ s.status.stage = 0 ∧ t = beginRun s)
    ∨ (i = .clear ∧ s.status.stage = 7 ∧ t = returnToIdle s)
    ∨ (i = .chk ∧ (s.H % 2 ≠ 0 ∨ s.W % 2 ≠ 0) ∧ t = raiseError .dimension 1 s)
    ∨ (i = .chk ∧ Checked s ∧ FrameSupplied s ∧ PatternSupplied s ∧ t = toStage 2 s)
    ∨ (i = .chk ∧ cfaLegal s.cfa = false ∧ t = raiseError .filterPattern 1 s)
    ∨ (i = .blc ∧ ∃ g : List Val, g.length = s.samples ∧ t = toStage 3 { s with artBlc := g })
    ∨ (i = .dem ∧ ∃ g : List Val, g.length = s.elements ∧ t = toStage 4 { s with artDem := g })
    ∨ (i = .wbs ∧ ∃ g : List Val, g.length = s.elements ∧ t = toStage 5 { s with artWbs := g })
    ∨ (i = .cct ∧ ∃ g : List Val, g.length = s.elements ∧ t = toStage 6 { s with artCct := g })
    ∨ (i = .gam ∧ ∃ m, t = raiseError .allZeroImage 6 { s with gmax := m })
    ∨ (i = .gam ∧ ∃ (m : Val) (px : List Val), px.length = s.elements
        ∧ t = complete { s with gmax := m, out := s.out.writeAll 0 px }) := by
  cases i with
  | start =>
    simp only [exec, execStart, Host.Outcome.next.injEq] at h
    split at h <;> simp_all
  | clear =>
    simp only [exec, execClear, Host.Outcome.next.injEq] at h
    split at h <;> simp_all
  | reservedCmd c =>
    simp only [exec, execReservedCmd, Host.Outcome.next.injEq] at h
    exact .inl h.symm
  | idle =>
    simp only [exec, execIdle, Host.Outcome.next.injEq] at h
    exact .inl h.symm
  | endStage =>
    simp only [exec, execEndStage, Host.Outcome.next.injEq] at h
    exact .inl h.symm
  | chk =>
    obtain ⟨hr, rfl⟩ := execChk_eq_next.1 h
    simp only [registersRead, List.forall_mem_cons] at hr
    split
    · simp_all
    · split <;> simp_all [Checked, FrameSupplied, PatternSupplied]
  | blc =>
    obtain ⟨-, g, hg, rfl⟩ := execBlc_eq_next.1 h
    simp only [reduceCtorEq, false_and, true_and, false_or, or_false]
    exact .inr ⟨g, blcGrid_length hg, rfl⟩
  | dem =>
    obtain ⟨-, g, hg, rfl⟩ := execDem_eq_next.1 h
    simp only [reduceCtorEq, false_and, true_and, false_or, or_false]
    exact .inr ⟨g, demImage_length hg, rfl⟩
  | wbs =>
    obtain ⟨-, g, hg, rfl⟩ := execWbs_eq_next.1 h
    simp only [reduceCtorEq, false_and, true_and, false_or, or_false]
    exact .inr ⟨g, wbsImage_length hg, rfl⟩
  | cct =>
    obtain ⟨-, g, hg, rfl⟩ := execCct_eq_next.1 h
    simp only [reduceCtorEq, false_and, true_and, false_or, or_false]
    exact .inr ⟨g, cctImage_length hg, rfl⟩
  | gam =>
    simp only [exec, execGam] at h
    obtain ⟨⟨m, o⟩, hr, h⟩ := andThen_eq_next.1 (withOperands_eq_next.1 h).2
    simp only [reduceCtorEq, false_and, true_and, false_or]
    cases o with
    | none =>
      simp only [Host.Outcome.next.injEq] at h
      exact .inr (.inl ⟨m, h.symm⟩)
    | some px =>
      simp only [Host.Outcome.next.injEq] at h
      exact .inr (.inr ⟨m, px, gamImage_length hr, h.symm⟩)

/-! ### The host port and a step -/

/-- A register's number names it. -/
@[simp] theorem Reg.ofNumber_number (r : Reg) : Reg.ofNumber r.number = some r := by
  cases r with
  | bl n =>
    revert n
    decide
  | wb n =>
    revert n
    decide
  | ccm n =>
    revert n
    decide
  | _ => rfl

/-- A store to a register is no access to the rest of the block. -/
theorem Reg.store_keeps (r : Reg) (d : Word) (s : State) :
    r.store d s = { s with
      height := (r.store d s).height, width := (r.store d s).width, cfa := (r.store d s).cfa
      bl := (r.store d s).bl, wb := (r.store d s).wb, ccm := (r.store d s).ccm
      written := (r.store d s).written } := by
  cases r <;> simp only [Reg.store, markWritten]
  split <;> rfl

/-- The sequencer's turn runs the operation STAGE selects, or changes nothing. -/
theorem sequencerTurn_cases {s t : State} (h : sequencerTurn s = .next t) :
    (s.status.busy = true ∧ exec (decodeStage s.status.stage) s = .next t) ∨ t = s := by
  unfold sequencerTurn at h
  split at h
  · next hb => exact .inl ⟨hb, h⟩
  · split at h <;>
      (simp only [exec, execIdle, execEndStage, Host.Outcome.next.injEq] at h
       exact .inr h.symm)

theorem rreg_sameBlock (n : BitVec 5) (s : State) : SameBlock s (rreg n s) := by
  unfold SameBlock rreg drawReply
  split
  · split <;> rfl
  · rfl

theorem rmem_sameBlock (e : ReadTarget) (s : State) : SameBlock s (rmem e s) := by
  unfold SameBlock rmem elementReply drawReply
  split <;> (try split) <;> (try split) <;> rfl

/-- What a decoded command word can be. -/
theorem decodeCommand_cases (d : Word) :
    decodeCommand d = .start ∨ decodeCommand d = .clear ∨ ∃ c, decodeCommand d = .reservedCmd c := by
  unfold decodeCommand
  split
  · exact .inl rfl
  · split
    · exact .inr (.inl rfl)
    · exact .inr (.inr ⟨_, rfl⟩)

/-- Every way a step can answer a next state: it runs an instruction, on a state that differs in the agenda only, and after
the mark `run` puts the mark back on the agenda; it changes nothing of the block; it stores an operand register or an
element of RAW while BUSY = 0; or it is a reset. -/
theorem step_cases {s t : State} (h : step s = .next t) :
    (∃ i s' t', SameBlock s s' ∧ exec i s' = .next t' ∧ SameBlock t' t
      ∧ ((i = decodeStage s.status.stage ∧ s.status.busy = true)
        ∨ i = .start ∨ i = .clear ∨ ∃ c, i = .reservedCmd c))
    ∨ SameBlock s t
    ∨ (s.status.busy = false ∧ ∃ (rest : List Event) (r : Reg) (d : Word), t = r.store d { s with agenda := rest })
    ∨ (s.status.busy = false ∧ ∃ (rest : List Event) (i : BitVec 32) (v : Val),
        t = { s with agenda := rest, raw := s.raw.write i.toNat v })
    ∨ ∃ rest, s.agenda = .reset :: rest ∧ t = applyReset { s with agenda := rest } := by
  have turn : ∀ s' t' : State, SameBlock s s' → sequencerTurn s' = .next t' →
      (exec (decodeStage s.status.stage) s' = .next t' ∧ s.status.busy = true) ∨ t' = s' := by
    intro s' t' hs h'
    have e : s'.status = s.status := by rw [hs]
    rcases sequencerTurn_cases h' with ⟨hb, hx⟩ | hx
    · exact .inl ⟨e ▸ hx, e ▸ hb⟩
    · exact .inr hx
  unfold step nextEvent at h
  split at h
  · rcases turn s t rfl h with ⟨hx, hb⟩ | rfl
    · exact .inl ⟨_, s, t, rfl, hx, rfl, .inl ⟨rfl, hb⟩⟩
    · exact .inr (.inl rfl)
  · next e rest ha =>
    cases e with
    | wreg n d =>
      simp only [perform, wreg] at h
      split at h
      · exact .inl ⟨_, { s with agenda := rest }, t, rfl, h, rfl, .inr (decodeCommand_cases d)⟩
      · next r _ _ =>
        simp only [Host.Outcome.next.injEq] at h
        subst h
        split
        · exact .inr (.inl rfl)
        · next hb => exact .inr (.inr (.inl ⟨by simpa using hb, rest, r, d, rfl⟩))
      · simp only [Host.Outcome.next.injEq] at h
        subst h
        exact .inr (.inl rfl)
    | rreg n =>
      simp only [perform, Host.Outcome.next.injEq] at h
      subst h
      exact .inr (.inl (by rw [SameBlock, rreg_sameBlock n { s with agenda := rest }]))
    | wmem i d =>
      simp only [perform, wmem, Host.Outcome.next.injEq] at h
      subst h
      split
      · exact .inr (.inl rfl)
      · next hb =>
        split
        · exact .inr (.inr (.inr (.inl ⟨by simpa using hb, rest, i, _, rfl⟩)))
        · exact .inr (.inl rfl)
    | rmem e =>
      simp only [perform, Host.Outcome.next.injEq] at h
      subst h
      exact .inr (.inl (by rw [SameBlock, rmem_sameBlock e { s with agenda := rest }]))
    | reset =>
      simp only [perform, Host.Outcome.next.injEq] at h
      exact .inr (.inr (.inr (.inr ⟨rest, ha, h.symm⟩)))
    | seq =>
      rcases turn { s with agenda := rest } t rfl h with ⟨hx, hb⟩ | rfl
      · exact .inl ⟨_, { s with agenda := rest }, t, rfl, hx, rfl, .inl ⟨rfl, hb⟩⟩
      · exact .inr (.inl rfl)
    | run =>
      simp only [perform, runMark] at h
      split at h
      · obtain ⟨t', h1, h2⟩ := andThen_eq_next.1 h
        simp only [Host.Outcome.next.injEq] at h2
        subst h2
        rcases turn { s with agenda := rest } t' rfl h1 with ⟨hx, hb⟩ | rfl
        · exact .inl ⟨_, { s with agenda := rest }, t', rfl, hx, rfl, .inl ⟨rfl, hb⟩⟩
        · exact .inr (.inl rfl)
      · simp only [Host.Outcome.next.injEq] at h
        subst h
        exact .inr (.inl rfl)
    | wait =>
      simp only [perform, Host.Outcome.next.injEq] at h
      subst h
      refine .inr (.inl ?_)
      unfold waitMark
      dsimp only
      split <;> rw [SameBlock, rreg_sameBlock Reg.status.number { s with agenda := rest }]

end Sys2Proof.Machine
end

