-- ==== Sys2Proof/Tests/Slice0.lean ====
section
/-! SUPPORT. Tests of the model on the vectors of 95_test_vectors.md and the worked examples of the rules, each one step on
a small state; and for every statement with hypotheses a state and operands that meet them together. -/

namespace Sys2Proof.Tests

-- One theorem after the other: checked side by side, the evaluations below take one thread each.
set_option Elab.async false

open Sys2Proof.Machine Sys2Proof.Safety

/-- The result is a next state that passes the check. -/
def nextIs {α : Type} (o : Host.Outcome α Fault Refusal) (p : α → Bool) : Bool :=
  match o with
  | .next t => p t
  | .fault _ => false
  | .refused _ => false

theorem exists_next {α : Type} {o : Host.Outcome α Fault Refusal} {p : α → Bool} (h : nextIs o p = true) :
    ∃ t, o = .next t ∧ p t = true := by
  cases o with
  | next t => exact ⟨t, rfl, h⟩
  | fault _ => cases h
  | refused _ => cases h

/-- The whole numbers `n` as `Val`s. -/
def vals (l : List Int) : List Val := l.map fun n => Val.ofInt (BitVec.ofInt 32 n)

/-- Elements 0, 1, … of a space. -/
def space (l : List Int) : Memory := (List.range l.length).zip (vals l)

/-- The 2×2 frame and the operands of program P2, every register written. -/
def p2 : State :=
  { State.reset with
    height := 2, width := 2, cfa := 0x94
    bl := #v[Val.ofInt 8, Val.ofInt 8, Val.ofInt 4, Val.ofInt 0]
    wb := #v[2048, 1024, 512]
    ccm := #v[1024, -1024, 0, 0, 1024, 0, 0, 0, 2048]
    raw := space [24, 40, 72, 132]
    written := .replicate 32 true }

/-- `s` with no host write noted for the registers of these numbers. -/
def unwritten (l : List (Fin 32)) (s : State) : State :=
  { s with written := l.foldl (fun w n => w.set n.val false) s.written }

/-- `s` in a run, at stage `g`. -/
def running (g : BitVec 3) (s : State) : State :=
  { s with status := { busy := true, done := false, err := false, stage := g } }

/-- `s` with an event to come. -/
def withEvents (l : List Event) (s : State) : State := { s with agenda := l }

/-! ### WellFormed, encodings -/

theorem test_wf_refuses_start_as_reserved : (Instr.reservedCmd 1).wf = false := by decide
theorem test_wf_refuses_clear_as_reserved : (Instr.reservedCmd 2).wf = false := by decide

/-- R61: the word 0xFFFF…FFF1, written out bit by bit, is START whatever its ignored bits. -/
theorem test_decode_start :
    decode (.command 0b1111111111111111111111111111111111111111111111111111111111110001) = .start := by decide
theorem test_decode_clear :
    decode (.command 0b0000000000000000000000000000000000000000000000000000000000000010) = .clear := by decide
theorem test_decode_reserved :
    decode (.command 0b1000000000000000000000000000000000000000000000000000000000001111) = .reservedCmd 0b1111 := by
  decide
theorem test_decode_nop : decode (.command 0b0000) = .reservedCmd 0b0000 := by decide
theorem test_decode_idle : decode (.stage 0b000) = .idle := by decide
theorem test_decode_chk : decode (.stage 0b001) = .chk := by decide
theorem test_decode_blc : decode (.stage 0b010) = .blc := by decide
theorem test_decode_dem : decode (.stage 0b011) = .dem := by decide
theorem test_decode_wbs : decode (.stage 0b100) = .wbs := by decide
theorem test_decode_cct : decode (.stage 0b101) = .cct := by decide
theorem test_decode_gam : decode (.stage 0b110) = .gam := by decide
theorem test_decode_end : decode (.stage 0b111) = .endStage := by decide

/-- R66 and 95_test_vectors.md section 2.9. -/
theorem test_data_words :
    (vals [100, 1, -16, 0, 132, -5]).map Val.enc =
      [0x4059000000000000, 0x3FF0000000000000, 0xC030000000000000, 0x0, 0x4060800000000000, 0xC014000000000000]
    ∧ Val.half.enc = 0x3FE0000000000000 ∧ Val.quarter.enc = 0x3FD0000000000000 := by decide +kernel
/-- R66: infinity and not-a-number words are no `Val`; both zeros are the one zero; the smallest positive number. -/
theorem test_dec_corner_words :
    [0x7FF0000000000000, 0x7FF8000000000000, 0xFFF0000000000001].map Val.dec = [none, none, none]
    ∧ Val.dec 0x8000000000000000 = some Val.zero
    ∧ (Val.dec 0x0000000000000001).map Val.units = some 1
    ∧ (Val.dec 0x7FEFFFFFFFFFFFFF).map Val.enc = some 0x7FEFFFFFFFFFFFFF := by decide +kernel
/-- The binary64 sum 0.1 + 0.2 is 0x3FD3333333333334: a rounding up. General knowledge, as R66's layout is. -/
theorem test_add_rounds :
    ((Val.dec 0x3FB999999999999A).bind fun x => (Val.dec 0x3FC999999999999A).bind fun y => Val.add x y).map Val.enc
      = some 0x3FD3333333333334 := by decide +kernel
/-- The largest finite number added to itself is not finite (U3). -/
theorem test_add_overflows :
    ((Val.dec 0x7FEFFFFFFFFFFFFF).bind fun x => Val.add x x) = none := by decide +kernel

/-! ### Commands and the sequencer (V-CMD, V-SEQ) -/

/-- V-CMD-2. -/
theorem test_start :
    nextIs (step (withEvents [.wreg 0x00 0xFFFFFFFFFFFFFFF1] State.reset))
      (fun t => t.status.word == 0x11 && t.errinfo.word == 0x00 && t.agenda == []) = true := by decide
/-- V-CMD-3. -/
theorem test_start_ignored_in_a_run :
    nextIs (step (withEvents [.wreg 0x00 0x1] (running 3 p2))) (fun t => t.status.word == 0x31) = true := by decide
/-- V-CMD-5. -/
theorem test_clear_after_error :
    nextIs (step (withEvents [Script.clear] (raiseError .allZeroImage 6 p2)))
      (fun t => t.status.word == 0x00 && t.errinfo.word == 0x00) = true := by decide
/-- V-CMD-8. -/
theorem test_clear_is_no_abort :
    nextIs (step (withEvents [Script.clear] (running 4 p2))) (fun t => t.status.word == 0x41) = true := by decide
/-- V-CMD-9. -/
theorem test_reserved_command :
    nextIs (step (withEvents [.wreg 0x00 0xF] (running 4 p2))) (fun t => t.status.word == 0x41) = true := by decide
/-- V-SEQ-4: a write to WIDTH in a run is lost. -/
theorem test_busy_lock :
    nextIs (step (withEvents [.wreg 0x04 6] (running 2 p2))) (fun t => t.width == 2) = true := by decide
/-- V-SEQ-5: −1024 is stored as a 32-bit pattern and read zero-extended. -/
theorem test_gain_reads_back :
    nextIs (steps 2 (withEvents [.wreg 0x0D 0xFFFFFFFFFFFFFC00, .rreg 0x0D] p2))
      (fun t => t.reply == 0x00000000FFFFFC00 && t.wb[1].toInt == -1024) = true := by decide
/-- V-SEQ-6. -/
theorem test_not_a_number_is_not_stored :
    nextIs (step (withEvents [.wreg 0x08 0x7FF8000000000000] p2)) (fun t => decide (t.bl = p2.bl)) = true := by
  decide +kernel
/-- V-SEQ-7. -/
theorem test_height_ignores_high_bits :
    nextIs (step (withEvents [.wreg 0x03 0x0000000000010004] p2)) (fun t => t.height == 4) = true := by decide
/-- R44: WMEM(2, 100) and then RMEM(RAW, 2), as two steps; RMEM(OUT, 0) of an element that holds 7. -/
theorem test_memory_transactions :
    nextIs (steps 2 (withEvents [.wmem 2 0x4059000000000000, .rmem (.raw 2)] p2))
      (fun t => t.reply == 0x4059000000000000 && decide (t.raw = space [24, 40, 100, 132]) && t.agenda == []) = true
    ∧ nextIs (step (withEvents [.rmem (.out 0)] { p2 with out := space [7] }))
      (fun t => t.reply == 0x401C000000000000) = true := by decide +kernel
/-- R20, R21: register 0x01 is STATUS, 0x02 ERRINFO. -/
theorem test_control_registers_read :
    [0x01, 0x02].map (fun n => (rreg n (raiseError .allZeroImage 6 p2)).reply) = [0x74, 0x63] := by decide
/-- V-CMD-12. -/
theorem test_reserved_numbers_read_zero :
    [0x00, 0x06, 0x1F].map (fun n => (rreg n { p2 with reply := 5 }).reply) = [0, 0, 0] := by decide
/-- R83: in IDLE and END the sequencer has no step. -/
theorem test_idle : nextIs (step State.reset) (fun t => decide (t = State.reset)) = true := by decide +kernel
theorem test_end :
    nextIs (step (complete (running 6 p2))) (fun t => t.status.word == 0x72) = true := by decide

/-- R72 and 95_test_vectors.md P2: a negative integer for an i32 register is its 32-bit pattern, zero-extended. -/
theorem test_wr_negative :
    Script.wr (.ccm 1) (-1024) = .wreg 0x11 0x00000000FFFFFC00
    ∧ Script.wr (.ccm 0) (-2147483648) = .wreg 0x10 0x0000000080000000 := by decide

/-! ### CHK (V-CHK) -/

/-- V-CHK-1, 5, 13: legal, adjacent greens, height 0. -/
theorem test_chk_passes :
    [(4, 4, 0x94), (2, 2, 0x85), (0, 4, 0x94), (65534, 65534, 0x94)].map (fun (x : _ × _ × _) =>
      nextIs (exec .chk (running 1 { p2 with height := x.1, width := x.2.1, cfa := x.2.2 }))
        (fun t => t.status.word == 0x21 && t.errinfo.word == 0)) = [true, true, true, true] := by decide
/-- V-CHK-6, 8, 15 (0x11: dimensions first) and V-CHK-9, 11, 12 (0x12). -/
theorem test_chk_raises :
    [(4, 3, 0x94, 0x11), (3, 4, 0x54, 0x11), (65535, 2, 0x94, 0x11), (2, 2, 0x54, 0x12), (2, 2, 0xD4, 0x12),
      (2, 2, 0x98, 0x12)].map (fun (x : _ × _ × _ × _) =>
      nextIs (exec .chk (running 1 { p2 with height := x.1, width := x.2.1, cfa := x.2.2.1 }))
        (fun t => t.status.word == 0x74 && t.errinfo.word == x.2.2.2)) = [true, true, true, true, true, true] := by
  decide

/-! ### The operations -/

/-- Program P2: `art.BLC`. -/
theorem test_blc :
    nextIs (exec .blc (running 2 p2)) (fun t => t.status.word == 0x31 && decide (t.artBlc = vals [16, 32, 64, 128]))
      = true := by decide +kernel
/-- V-BLC-4: the bias follows the pattern, not the position. -/
theorem test_blc_bias_follows_pattern :
    nextIs (exec .blc (running 2 { p2 with
        cfa := 0x16, bl := #v[Val.ofInt 1, Val.ofInt 2, Val.ofInt 3, Val.ofInt 99], raw := space [10, 20, 30, 40] }))
      (fun t => decide (t.artBlc = vals [7, 18, 28, 39])) = true := by decide +kernel
/-- Table of R112. -/
theorem test_refl :
    [refl (-1) 2, refl 2 2, refl (-1) 3, refl 3 3, refl (-1) 4, refl 4 4, refl 1 1, refl 65534 65534]
      = [1, 0, 1, 1, 1, 2, 0, 65532] := by decide
/-- V-DEM-1. -/
theorem test_dem :
    nextIs (exec .dem (running 3 { p2 with artBlc := vals [8, 16, 32, 64] }))
      (fun t => t.status.word == 0x41
        && decide (t.artDem = vals [8, 24, 64, 8, 16, 64, 8, 32, 64, 8, 24, 64])) = true := by decide +kernel
/-- V-DEM-4: greens not on a diagonal. -/
theorem test_dem_adjacent_greens :
    nextIs (exec .dem (running 3 { p2 with cfa := 0x85, artBlc := vals [8, 16, 32, 64] }))
      (fun t => decide (t.artDem = vals [32, 16, 64, 32, 20, 64, 32, 4, 64, 32, 8, 64])) = true := by decide +kernel
/-- V-WBS-2 on a frame of one row of one pixel (the function; a run has even frames). -/
theorem test_wbs :
    nextIs (exec .wbs (running 4 { p2 with height := 1, width := 1, artDem := vals [16, 48, 128] }))
      (fun t => t.status.word == 0x51 && decide (t.artWbs = vals [32, 48, 64])) = true := by decide +kernel
/-- V-WBS-3: a zero and a negative gain. -/
theorem test_wbs_negative_gain :
    nextIs (exec .wbs (running 4 { p2 with
        height := 1, width := 1, wb := #v[0, -1024, 1536], artDem := vals [10, 20, 30] }))
      (fun t => decide (t.artWbs = vals [0, -20, 45])) = true := by decide +kernel
/-- V-CCT-2. -/
theorem test_cct :
    nextIs (exec .cct (running 5 { p2 with height := 1, width := 1, artWbs := vals [32, 48, 64] }))
      (fun t => t.status.word == 0x61 && decide (t.artCct = vals [-16, 48, 128])) = true := by decide +kernel
/-- V-CCT-6: row-major, not column-major: (7/512, 1/32, 25/512). -/
theorem test_cct_row_major :
    nextIs (exec .cct (running 5 { p2 with
        height := 1, width := 1, ccm := #v[1, 2, 3, 4, 5, 6, 7, 8, 9], artWbs := vals [1, 2, 3] }))
      (fun t => decide (t.artCct.map (·.units * 512) = [7, 16, 25].map (· * (Val.unitsPerOne : Int)))) = true := by
  decide +kernel
/-- V-GAM-2: the maximum, the completed run, six elements written. -/
theorem test_gam :
    nextIs (exec .gam (running 6 { p2 with height := 1, width := 2, artCct := vals [-16, 48, 128, 0, 32, 128] }))
      (fun t => t.status.word == 0x72 && decide (t.gmax = Val.ofInt 128) && t.out.map (·.1) == [0, 1, 2, 3, 4, 5])
      = true := by decide +kernel
/-- V-GAM-3: no positive element. -/
theorem test_gam_all_zero :
    nextIs (exec .gam (running 6 { p2 with height := 1, width := 1, out := space [7], artCct := vals [-5, 0, -1] }))
      (fun t => t.status.word == 0x74 && t.errinfo.word == 0x63 && decide (t.out = space [7])) = true := by
  decide +kernel

/-! ### Registers that hold no value -/

/-- R29: with every register but CFA written a run is refused at CHK. R15, R192 item 3: a legal pattern selects BL0 to BL2;
BL3 need not be written, BL2 must. -/
theorem test_unwritten_registers :
    exec .chk (running 1 (unwritten [0x05] p2)) = .refused (.registerNoValue 0x05)
    ∧ nextIs (exec .blc (running 2 (unwritten [0x0B] p2))) (fun t => t.status.word == 0x31) = true
    ∧ exec .blc (running 2 (unwritten [0x0A, 0x0B] p2)) = .refused (.registerNoValue 0x0A) :=
  ⟨rfl, by decide +kernel, rfl⟩

/-! ### Witnesses: for every statement with hypotheses, a state and operands that meet them together -/

theorem witness_CommandsDecodeByTheirLowBits :
    (0xFFFFFFFFFFFFFFF1 : Word).toNat % 16 = 1 ∧ (0x12 : Word).toNat % 16 = 2
    ∧ (0xF0 : Word).toNat % 16 ≠ 1 ∧ (0xF0 : Word).toNat % 16 ≠ 2 := by decide

theorem witness_EncodeDecodeAgree :
    (Instr.reservedCmd 0).wf = true ∧ (Instr.reservedCmd 3).wf = true ∧ (Instr.reservedCmd 15).wf = true := by decide

/-- Words with the exponent fields 0, 1, 2046 decode, words with 2047 do not. -/
theorem witness_DataWordsEncodeValues :
    (Val.dec 0x000FFFFFFFFFFFFF).isSome = true ∧ (Val.dec 0x8010000000000000).isSome = true
    ∧ (Val.dec 0x7FEFFFFFFFFFFFFF).isSome = true ∧ (0x8010000000000000 : Word) ≠ 0x8000000000000000
    ∧ Val.dec 0x7FF0000000000000 = none := by decide +kernel

theorem witness_ArithmeticRoundsToNearestEven : Val.one ≠ Val.zero := by decide +kernel

/-- P7 at both ends of i32: −2^31 = 2 · −2^30 and 2^31 − 1 = −1 · −(2^31 − 1); and both sides of it in binary64 without
rounding: 16 under the gain 3 · 512. -/
theorem witness_HardwareNumbersHaveTheNamedProperties :
    (0x80000000 : BitVec 32).toInt = (2 : BitVec 32).toInt * (0xC0000000 : BitVec 32).toInt
    ∧ Num.binary64.Unrounded Val.toRat 3 512 1536 (Val.ofInt 16) (Val.ofInt 24) (Val.ofInt 24) :=
  ⟨by decide, (Val.div (Val.ofInt 1536) (Val.ofInt 1024)).get (by decide +kernel), Val.half, Val.ofInt 8, by decide +kernel⟩

/-- A `gpow` with P6 on the rationals that is not the identity: 0 below one half, 1 from there on. -/
def halfStep : RationalGammaFn where
  fn x := if x < 1 / 2 then 0 else 1
  at_zero := by norm_num
  at_one := by norm_num
  mono a b _ hab _ := by
    split <;> split <;> linarith

theorem witness_RationalNumbersHaveTheNamedProperties :
    (Num.reference halfStep).gpow (3 / 4) = 1 ∧ (0x80000000 : BitVec 32).toInt = (2 : BitVec 32).toInt * (0xC0000000 : BitVec 32).toInt
    ∧ (0x7FFFFFFF : BitVec 32).toInt = (-1 : BitVec 32).toInt * (0x80000001 : BitVec 32).toInt :=
  ⟨by unfold Num.reference Num.rational halfStep; norm_num, by decide, by decide⟩

theorem witness_ResetMayComeAtAnyTime :
    (withEvents [.reset, .seq] (running 4 p2)).agenda = .reset :: [.seq] := by decide

/-- Where a host write is noted for every register, every operand register holds a value. -/
theorem hasValue_of_written {s : State} (h : s.written = .replicate 32 true) (r : Reg) : r.hasValue s = true := by
  cases r <;> simp [Reg.hasValue, h]

theorem supplied_of_written {s : State} (h : s.written = .replicate 32 true) :
    FrameSupplied s ∧ PatternSupplied s ∧ BiasesSupplied s ∧ GainsSupplied s ∧ OperandsSupplied s :=
  have h' (r : Reg) := hasValue_of_written h r
  ⟨⟨h' _, h' _⟩, h' _, fun _ _ _ _ => h' _, fun _ => h' _, ⟨h' _, h' _⟩, h' _, fun _ => h' _, fun _ => h' _⟩

/-- Proves `BlockInv` of a state whose memories and artifacts are written out. -/
theorem inv_of_checks {s : State}
    (h1 : ((s.status.stage = 0 ∧ s.status.busy = false ∧ s.status.done = false ∧ s.status.err = false)
      ∨ (1 ≤ s.status.stage.toNat ∧ s.status.stage.toNat ≤ 6 ∧ s.status.busy = true ∧ s.status.done = false
        ∧ s.status.err = false)
      ∨ (s.status.stage = 7 ∧ s.status.busy = false ∧ s.status.done ≠ s.status.err))
      ∧ ((s.status.err = false ∧ s.errinfo = ⟨0, 0⟩)
        ∨ (s.status.err = true ∧ (s.errinfo = ⟨1, 1⟩ ∨ s.errinfo = ⟨2, 1⟩ ∨ s.errinfo = ⟨3, 6⟩))))
    (h2 : s.raw.wf ∧ (∀ e ∈ s.raw, e.1 < 2 ^ 32) ∧ s.out.wf ∧ (∀ e ∈ s.out, e.1 < 2 ^ 34))
    (h3 : (s.H % 2 = 0 ∧ s.W % 2 = 0 ∧ cfaLegal s.cfa = true) ∧ s.written = .replicate 32 true)
    (h4 : (s.status.stage = 3 → s.artBlc.length = s.samples) ∧ (s.status.stage = 4 → s.artDem.length = s.elements)
      ∧ (s.status.stage = 5 → s.artWbs.length = s.elements) ∧ (s.status.stage = 6 → s.artCct.length = s.elements)) :
    BlockInv s :=
  ⟨h1.1, h1.2, h2, fun _ _ => ⟨h3.1, (supplied_of_written h3.2).1, (supplied_of_written h3.2).2.1⟩, h4⟩

/-- A state in the middle of a run: the Demosaic Engine next. -/
def midRun : State := running 3 { p2 with artBlc := vals [8, 16, 32, 64] }

theorem midRun_inv : BlockInv midRun :=
  inv_of_checks (by decide +kernel) (by decide +kernel) (by decide +kernel) (by decide +kernel)

/-- The run of P2 with only CHK's step to come first, and with every other step before GAM done. -/
theorem startedRun_inv : BlockInv (running 1 p2) :=
  inv_of_checks (by decide +kernel) (by decide +kernel) (by decide +kernel) (by decide +kernel)

theorem witness_StepKeepsTheInvariant :
    BlockInv (running 1 p2) ∧ ∃ t, step (running 1 p2) = .next t := ⟨startedRun_inv, _, rfl⟩

theorem witness_NoStepFaults : BlockInv midRun := midRun_inv

theorem witness_StatusStaysLegal :
    StatusLegal (running 1 p2).status ∧ StatusLegal (running 6 p2).status ∧ StatusLegal State.reset.status
    ∧ StatusLegal (complete (running 6 p2)).status ∧ ∃ t, step (running 1 p2) = .next t := by
  unfold StatusLegal
  exact ⟨by decide, by decide, by decide, by decide, _, rfl⟩

theorem witness_ErrinfoRecordsTheError :
    ErrinfoLegal (raiseError .dimension 1 p2) ∧ ErrinfoLegal (raiseError .allZeroImage 6 p2)
    ∧ ErrinfoLegal (running 1 p2) ∧ (∃ t, step (raiseError .dimension 1 p2) = .next t)
    ∧ (p2.status.stage = 0 ∧ ∃ t, exec .start p2 = .next t)
    ∧ ((complete p2).status.stage = 7 ∧ ∃ t, exec .clear (complete p2) = .next t) := by
  unfold ErrinfoLegal
  exact ⟨by decide, by decide, by decide, ⟨_, rfl⟩, ⟨by decide, _, rfl⟩, ⟨by decide, _, rfl⟩⟩

theorem witness_StepRunsTheDecodedInstruction :
    (withEvents [.wreg 0x04 6, .seq] p2).agenda = .wreg 0x04 6 :: [.seq]
    ∧ (withEvents [.rreg 0x01] p2).agenda = .rreg 0x01 :: []
    ∧ (withEvents [.wmem 0xFFFFFFFF 0] p2).agenda = .wmem 0xFFFFFFFF 0 :: []
    ∧ (withEvents [.rmem (.out 0)] (running 6 p2)).agenda = .rmem (.out 0) :: []
    ∧ (withEvents [.wreg 0x00 0x1] p2).agenda = .wreg 0x00 0x1 :: []
    ∧ (withEvents [.seq] (running 1 p2)).agenda = .seq :: [] ∧ (running 1 p2).status.busy = true
    ∧ (withEvents [.seq] p2).agenda = .seq :: [] ∧ p2.status.busy = false
    ∧ (running 1 p2).agenda = [] ∧ p2.agenda = []
    ∧ 0xFFFFFFFFFFFFFFFF < 2 ^ 64 ∧ (1 : BitVec 3) ≠ 0 ∧ (6 : BitVec 3) ≠ 7 := by decide

theorem witness_StartBeginsARunInIdleOnly :
    State.reset.status.stage = 0 ∧ (running 1 p2).status.stage ≠ 0 ∧ (complete p2).status.stage ≠ 0
    ∧ (0xFFFFFFFFFFFFFFF1 : Word).toNat % 16 = 1 := by decide

theorem witness_ClearReturnsToIdleFromEndOnly :
    (complete p2).status.stage = 7 ∧ (running 6 p2).status.stage ≠ 7 ∧ p2.status.stage ≠ 7
    ∧ (0x12 : Word).toNat % 16 = 2 := by decide

theorem witness_ReservedAndRestingChangeNothing :
    (0x0 : Word).toNat % 16 ≠ 1 ∧ (0x0 : Word).toNat % 16 ≠ 2 ∧ (0x13 : Word).toNat % 16 ≠ 1
    ∧ (0x13 : Word).toNat % 16 ≠ 2 := by decide

theorem witness_TheHostCannotDisturbARun :
    (running 1 p2).status.busy = true ∧ (running 1 p2).status.stage ≠ 0 ∧ (running 1 p2).status.stage ≠ 7
    ∧ (running 6 p2).status.stage ≠ 7 ∧ IsTransaction (.wreg 0x04 6) = true
    ∧ (withEvents [.wreg 0x04 6] (running 1 p2)).agenda = .wreg 0x04 6 :: [] := by decide

/-- An image with a positive element, one without. -/
def gamState : State := running 6 { p2 with height := 1, width := 1, artCct := vals [-16, 48, 128] }
def blackState : State := running 6 { p2 with height := 1, width := 1, artCct := vals [-5, 0, -1] }

theorem witness_StagesFollowTheTransferTable :
    (∃ t, exec .chk (running 1 p2) = .next t) ∧ (∃ t, exec .chk (running 1 { p2 with height := 3 }) = .next t)
    ∧ (∃ t, exec .blc (running 2 p2) = .next t) ∧ (∃ t, exec .dem (running 3 { p2 with height := 0 }) = .next t)
    ∧ (∃ t, exec .wbs (running 4 { p2 with height := 0 }) = .next t)
    ∧ (∃ t, exec .cct (running 5 { p2 with height := 0 }) = .next t)
    ∧ (∃ t, exec .gam gamState = .next t) ∧ ∃ t, exec .gam blackState = .next t := by
  have h {i : Instr} {s : State} (h : nextIs (exec i s) (fun _ => true) = true) : ∃ t, exec i s = .next t :=
    (exists_next h).imp fun _ ht => ht.1
  exact ⟨h (by decide +kernel), h (by decide +kernel), h (by decide +kernel), h (by decide +kernel),
    h (by decide +kernel), h (by decide +kernel), h (by decide +kernel), h (by decide +kernel)⟩

theorem witness_RunsEndWithinTheStagesLeft :
    BlockInv (running 1 p2) ∧ (running 1 p2).status.busy = true ∧ (running 1 p2).agenda = []
    ∧ BlockInv midRun ∧ midRun.status.busy = true ∧ midRun.agenda = [] :=
  ⟨startedRun_inv, by decide, by decide, midRun_inv, by decide, by decide⟩

theorem witness_WaitAndRunEnd :
    BlockInv (withEvents [.wait, .seq] (running 1 p2)) ∧ (withEvents [.wait, .seq] (running 1 p2)).agenda = .wait :: [.seq]
    ∧ BlockInv (withEvents [.run] (running 1 p2)) ∧ (withEvents [.run] (running 1 p2)).agenda = .run :: []
    ∧ BlockInv (withEvents [.wait] p2) :=
  ⟨startedRun_inv, by decide, startedRun_inv, by decide,
    inv_of_checks (by decide +kernel) (by decide +kernel) (by decide +kernel) (by decide +kernel)⟩

/-- A host that has written everything issues START. -/
def atStart (s : State) : State := withEvents [.wreg 0x00 0x1] s

theorem atStart_of_idle {s : State} (h : s.status.stage = 0) : AtStart (atStart s) := ⟨h, 0x1, by decide, rfl⟩

/-- A run of each kind: the errors of CHK, the empty frame's error, an image, a frame with no value in RAW, a register
that holds no value. -/
theorem witness_ARunIsOneEvaluation :
    AtStart (atStart p2)
    ∧ nextIs (evaluate { p2 with cfa := 0xD4 }) (fun r => decide (r = .error .filterPattern)) = true
    ∧ nextIs (evaluate p2) (fun r => match r with | .image px => px.length == 12 | .error _ => false) = true
    ∧ evaluate (unwritten [0x0E] { p2 with height := 0 }) = .refused (.registerNoValue 0x0E)
    ∧ nextIs (evaluate { p2 with height := 3 }) (fun r => decide (r = .error .dimension)) = true
    ∧ nextIs (evaluate { p2 with height := 0 }) (fun r => decide (r = .error .allZeroImage)) = true
    ∧ evaluate { p2 with raw := [] } = .refused (.rawNoValue 0) :=
  ⟨atStart_of_idle (by decide), by decide +kernel, by decide +kernel, rfl, by decide +kernel, by decide +kernel, rfl⟩

/-- A second state with the same operands and another BL3, never written, other RAW elements past the frame, another OUT, other
artifacts. -/
def p2' : State :=
  { p2 with bl := #v[Val.ofInt 8, Val.ofInt 8, Val.ofInt 4, Val.ofInt 7], raw := space [24, 40, 72, 132, 1]
            out := space [3], artBlc := vals [9], draws := 3, written := (Vector.replicate 32 true).set 0x0B false }

theorem sameValues (r : Reg) (h : r.isOperand = true) (h3 : r ≠ .bl 3) :
    r.hasValue (atStart p2) = r.hasValue (atStart p2') := by
  cases r with
  | ctrl => cases h
  | status => cases h
  | errinfo => cases h
  | height => rfl
  | width => rfl
  | cfa => rfl
  | bl n => revert h3; revert n; decide
  | wb n => revert n; decide
  | ccm n => rfl

theorem witness_OutcomeDependsOnTheOperandsOnly :
    AtStart (atStart p2) ∧ AtStart (atStart p2') ∧ (atStart p2).height = (atStart p2').height
    ∧ (atStart p2).width = (atStart p2').width ∧ (atStart p2).cfa = (atStart p2').cfa
    ∧ (atStart p2).wb = (atStart p2').wb ∧ (atStart p2).ccm = (atStart p2').ccm
    ∧ (∀ n : Fin 3, (atStart p2).bl[n.castSucc] = (atStart p2').bl[n.castSucc])
    ∧ (∀ r : Reg, r.isOperand = true → r ≠ .bl 3 → r.hasValue (atStart p2) = r.hasValue (atStart p2'))
    ∧ (∀ i, i < (atStart p2).samples → (atStart p2).raw.read i = (atStart p2').raw.read i)
    ∧ (atStart p2).out.wf ∧ (atStart p2').out.wf ∧ (∃ t, steps 7 (atStart { p2 with height := 3 }) = .next t)
    ∧ ∃ r, steps 7 (atStart { p2 with raw := [] }) = .refused r :=
  ⟨atStart_of_idle (by decide), atStart_of_idle (by decide), by decide, by decide, by decide, by decide, by decide,
    by decide +kernel, sameValues, by decide +kernel, by decide +kernel, by decide +kernel,
    (exists_next (p := fun _ => true) (by decide +kernel)).imp fun _ h => h.1, _, rfl⟩

theorem witness_OperandRegistersAreTheHosts :
    Reg.isOperand (.ccm 8) = true ∧ Reg.hasValue p2 (.ccm 8) = true
    ∧ Reg.isOperand .height = true ∧ Reg.hasValue (markWritten .height p2) .height = true
    ∧ (running 1 p2).status.busy = true ∧ p2.status.busy = false ∧ ∃ t, exec .start p2 = .next t :=
  ⟨by decide, by decide, by decide, by decide, by decide, by decide, _, rfl⟩

theorem witness_WrittenOperandsReadBack :
    Reg.isOperand .width = true ∧ Reg.isOperand .cfa = true ∧ Reg.isOperand (.bl 3) = true
    ∧ Reg.isOperand (.wb 0) = true ∧ Reg.isOperand (.ccm 4) = true ∧ p2.status.busy = false
    ∧ Val.dec 0x4059000000000000 = some (Val.ofInt 100) ∧ Val.dec 0x7FF8000000000000 = none
    ∧ (Reg.cfa ≠ Reg.width) := by decide +kernel

/-- R14: the pattern (1, 1, 0, 2) of the word 0x85, cell by cell; P01 and P10 differ. -/
theorem test_cfa_cells : [cfaAt 0x85 2 4, cfaAt 0x85 2 5, cfaAt 0x85 3 4, cfaAt 0x85 3 5] = [1, 1, 0, 2] := by decide

theorem witness_ReservedNumbersReadZero :
    ((0x06 : BitVec 5) = 0x06) ∧ 0x19 ≤ (0x19 : BitVec 5).toNat ∧ 0x19 ≤ (0x1F : BitVec 5).toNat := by decide

theorem witness_CtrlIsTheCommandPort :
    (0x1 : Word).toNat % 16 = (0xFFFFFFFFFFFFFFF1 : Word).toNat % 16 := by decide

theorem witness_ReadsHaveNoSideEffects :
    Reg.hasValue p2 .status = true ∧ Reg.hasValue (markWritten (.bl 3) p2) (.bl 3) = true
    ∧ (p2.raw.read (3 : BitVec 32).toNat).isSome = true
    ∧ p2'.status.busy = false ∧ (p2'.out.read (0 : BitVec 34).toNat).isSome = true := by decide

theorem witness_RawHoldsWhatTheHostWrites :
    (running 1 p2).status.busy = true ∧ p2.status.busy = false
    ∧ Val.dec 0x4059000000000000 = some (Val.ofInt 100) ∧ p2.raw.wf := by decide +kernel

theorem witness_OutIsReadWhileNotBusy :
    p2'.status.busy = false ∧ p2'.out.read (0 : BitVec 34).toNat = some (Val.ofInt 3)
    ∧ (running 6 p2).status.busy = true ∧ p2.raw.read (3 : BitVec 32).toNat = some (Val.ofInt 132)
    ∧ (withEvents [.rreg 0x01] p2).agenda.head? ≠ some .reset
    ∧ (withEvents [.rreg 0x01] p2).status.busy = false := by decide +kernel

theorem witness_ReadsOfNoValueAreFree :
    Reg.hasValue State.reset .height = false ∧ Reg.hasValue State.reset (.wb 2) = false
    ∧ p2.raw.read (4 : BitVec 32).toNat = none ∧ p2.out.read (0 : BitVec 34).toNat = none := by decide

theorem witness_ChkTestsDimensionsThenPattern :
    (FrameSupplied { p2 with height := 65535 } ∧ PatternSupplied { p2 with height := 65535 })
    ∧ (FrameSupplied { p2 with height := 0, width := 65534, cfa := 0x98 }
      ∧ PatternSupplied { p2 with height := 0, width := 65534, cfa := 0x98 })
    ∧ ({ p2 with height := 65535 } : State).H % 2 = 1 ∧ ({ p2 with width := 1 } : State).W % 2 = 1
    ∧ ({ p2 with height := 0, width := 65534 } : State).H % 2 = 0
    ∧ ({ p2 with height := 0, width := 65534 } : State).W % 2 = 0
    ∧ ¬ [cfaCell 0x98 0 0, cfaCell 0x98 0 1, cfaCell 0x98 1 0, cfaCell 0x98 1 1].Perm [0, 1, 1, 2]
    ∧ [cfaCell 0x85 0 0, cfaCell 0x85 0 1, cfaCell 0x85 1 0, cfaCell 0x85 1 1].Perm [0, 1, 1, 2] :=
  ⟨⟨(supplied_of_written rfl).1, (supplied_of_written rfl).2.1⟩,
    ⟨(supplied_of_written rfl).1, (supplied_of_written rfl).2.1⟩, by decide⟩

theorem witness_ErrorEntryTouchesNothingElse :
    (running 1 p2).status.err = false
    ∧ (∃ t, exec .chk (running 1 { p2 with height := 3 }) = .next t ∧ t.status.err = true)
    ∧ ∃ t, exec .gam blackState = .next t ∧ t.status.err = true :=
  ⟨by decide, exists_next (by decide +kernel), exists_next (by decide +kernel)⟩

theorem witness_OnlyGamWritesOut :
    gamState.out.wf ∧ (∃ t, exec .gam gamState = .next t) ∧ gamState.elements ≤ 3 ∧ Instr.chk ≠ Instr.gam :=
  ⟨by decide +kernel, (exists_next (p := fun _ => true) (by decide +kernel)).imp fun _ h => h.1, by decide, by decide⟩

theorem witness_OnlyBlcReadsRawAndBiases : Instr.dem ≠ Instr.blc ∧ Instr.start ≠ Instr.blc := by decide

/-- The hypothesis on the differences, as a check on a bounded range. -/
theorem differences_of_check {s : State} {n : Nat}
    (h : ∀ i < n, ((s.raw.read i).bind fun x => Val.sub x s.bl[cfaAt s.cfa (i / s.W) (i % s.W)]).isSome = true) :
    ∀ i, i < n → ∃ x d, s.raw.read i = some x ∧ Val.sub x s.bl[cfaAt s.cfa (i / s.W) (i % s.W)] = some d := by
  intro i hi
  obtain ⟨d, hd⟩ := Option.isSome_iff_exists.1 (h i hi)
  obtain ⟨x, hx, hs⟩ := Option.bind_eq_some_iff.1 hd
  exact ⟨x, d, hx, hs⟩

theorem p2_supplied :
    FrameSupplied p2 ∧ PatternSupplied p2 ∧ BiasesSupplied p2 ∧ GainsSupplied p2 ∧ OperandsSupplied p2 :=
  supplied_of_written rfl

/-- The largest `Val`, 2^1024 − 2^971. -/
def top : Val := (Val.dec 0x7FEFFFFFFFFFFFFF).get (by decide +kernel)
/-- The least `Val`. -/
def bottom : Val := (Val.dec 0xFFEFFFFFFFFFFFFF).get (by decide +kernel)

/-- Frames whose operations form a number that is not finite (U3): the least number less the largest; a sum of weights above
one on adjacent greens; a gain of two; a matrix entry of two. -/
def overflow : State :=
  { p2 with
    height := 1, width := 1, cfa := 0x85, bl := .replicate 4 top, raw := [(0, bottom)]
    artDem := .replicate 3 top, artWbs := .replicate 3 top, ccm := #v[2048, 0, 0, 0, 1024, 0, 0, 0, 1024] }
def overflowDem : State := { p2 with cfa := 0x85, artBlc := .replicate 4 top }

theorem test_not_finite_refuses :
    [exec .blc overflow, exec .dem overflowDem, exec .wbs overflow, exec .cct overflow].map (fun o => match o with
      | .refused r => decide (r = .notFinite)
      | .next _ => false
      | .fault _ => false) = [true, true, true, true] := by decide +kernel

theorem witness_overflow :
    (∀ i, i < overflow.samples → (overflow.raw.read i).isSome = true)
    ∧ (∃ x, overflow.raw.read (0 * overflow.W + 0) = some x ∧ Val.sub x overflow.bl[cfaAt overflow.cfa 0 0] = none)
    ∧ demFormula overflowDem 1 0 1 = none ∧ overflowDem.artBlc.length = overflowDem.samples
    ∧ wbsFormula overflow 0 top = none ∧ cctFormula overflow 0 top top top = none
    ∧ (∀ ch : Fin 3, overflow.artDem[imageIndex overflow.W 0 0 ch]? = some top)
    ∧ (∀ ch : Fin 3, overflow.artWbs[imageIndex overflow.W 0 0 ch]? = some top)
    ∧ overflow.artDem.length = overflow.elements ∧ overflow.artWbs.length = overflow.elements
    ∧ FrameSupplied overflow ∧ PatternSupplied overflow ∧ BiasesSupplied overflow ∧ GainsSupplied overflow :=
  have h := supplied_of_written (s := overflow) rfl
  ⟨by decide +kernel, ⟨_, rfl, by decide +kernel⟩, by decide +kernel, by decide +kernel, by decide +kernel,
    by decide +kernel, by decide +kernel, by decide +kernel, by decide +kernel, by decide +kernel, h.1, h.2.1, h.2.2.1,
    h.2.2.2.1⟩

theorem witness_BlcSubtractsTheBias :
    FrameSupplied p2 ∧ PatternSupplied p2 ∧ BiasesSupplied p2 ∧ ∀ i, i < p2.samples → ∃ x d, p2.raw.read i = some x
      ∧ Val.sub x p2.bl[cfaAt p2.cfa (i / p2.W) (i % p2.W)] = some d :=
  ⟨p2_supplied.1, p2_supplied.2.1, p2_supplied.2.2.1, differences_of_check (by decide +kernel)⟩

/-- Every sample equals its bias: the frame of program P3. -/
def p3 : State :=
  { p2 with bl := #v[Val.ofInt 64, Val.ofInt 64, Val.ofInt 64, Val.ofInt 0], raw := space [64, 64, 64, 64] }

theorem witness_BlcOnBlackAndWithoutBias :
    (FrameSupplied p3 ∧ PatternSupplied p3 ∧ BiasesSupplied p3)
    ∧ BiasesSupplied { p2 with bl := .replicate 4 Val.zero }
    ∧ (∀ i, i < p3.samples → p3.raw.read i = some p3.bl[cfaAt p3.cfa (i / p3.W) (i % p3.W)])
    ∧ (∀ n : Fin 4, ({ p2 with bl := .replicate 4 Val.zero } : State).bl[n] = Val.zero)
    ∧ ∀ i, i < p2.samples → (p2.raw.read i).isSome = true :=
  have h := supplied_of_written (s := p3) rfl
  ⟨⟨h.1, h.2.1, h.2.2.1⟩, (supplied_of_written rfl).2.2.1, by decide +kernel⟩

/-- Two of four samples written: element 2 is the first that holds no value. -/
theorem witness_BlcRefusesMissingSamples :
    BiasesSupplied { p2 with raw := space [24, 40] } ∧ 2 < ({ p2 with raw := space [24, 40] } : State).samples
    ∧ ({ p2 with raw := space [24, 40] } : State).raw.read 2 = none
    ∧ ∀ j, j < 2 → ∃ x d, ({ p2 with raw := space [24, 40] } : State).raw.read j = some x
        ∧ Val.sub x ({ p2 with raw := space [24, 40] } : State).bl[cfaAt p2.cfa (j / p2.W) (j % p2.W)] = some d :=
  ⟨(supplied_of_written rfl).2.2.1, by decide, by decide +kernel, differences_of_check (s := { p2 with raw := space [24, 40] }) (by decide +kernel)⟩

theorem witness_ReflectionMirrorsWithoutRepeating :
    2 ≤ 2 ∧ 2 % 2 = 0 ∧ (-1 : Int) ≤ -1 ∧ (2 : Int) ≤ (2 : Nat) ∧ 0 < 1 ∧ 1 ≤ 3 ∧ 3 ≠ 1 := by decide

theorem midRun_supplied : FrameSupplied midRun ∧ PatternSupplied midRun :=
  ⟨(supplied_of_written rfl).1, (supplied_of_written rfl).2.1⟩

theorem witness_DemSumsTheWindow :
    FrameSupplied midRun ∧ PatternSupplied midRun ∧ midRun.artBlc.length = midRun.samples
    ∧ ∀ (r c : Nat) (ch : Fin 3), r < midRun.H → c < midRun.W → (demFormula midRun ch r c).isSome = true := by
  have h : ∀ r < midRun.H, ∀ c < midRun.W, ∀ ch : Fin 3, (demFormula midRun ch r c).isSome = true := by
    decide +kernel
  exact ⟨midRun_supplied.1, midRun_supplied.2, by decide, fun r c ch hr hc => h r hr c hc ch⟩

theorem midRun_frame : EvenFrame midRun ∧ GreensOnDiagonal midRun.cfa := by
  unfold EvenFrame GreensOnDiagonal
  decide

theorem midRun_dem : ∃ t, exec .dem midRun = .next t :=
  (exists_next (p := fun _ => true) (by decide +kernel)).imp fun _ h => h.1

/-- Both positions of the green cells are there: (0, 1) and (1, 0) are green, (0, 0) red, (1, 1) blue. -/
theorem witness_DemPreservesSamples :
    EvenFrame midRun ∧ GreensOnDiagonal midRun.cfa ∧ midRun.artBlc.length = midRun.samples
    ∧ (∃ t, exec .dem midRun = .next t) ∧ 1 < midRun.H ∧ 1 < midRun.W
    ∧ (cfaAt midRun.cfa 0 0).val = (0 : Fin 3).val ∧ (cfaAt midRun.cfa 0 1).val = (1 : Fin 3).val
    ∧ (cfaAt midRun.cfa 1 1).val = (2 : Fin 3).val :=
  ⟨midRun_frame.1, midRun_frame.2, by decide, midRun_dem, by decide, by decide, by decide, by decide, by decide⟩

/-- A position for each of the four closed forms. -/
theorem witness_DemClosedForms :
    EvenFrame midRun ∧ GreensOnDiagonal midRun.cfa ∧ midRun.artBlc.length = midRun.samples
    ∧ (∃ t, exec .dem midRun = .next t) ∧ cfaAt midRun.cfa 0 0 ≠ 1
    ∧ (cfaAt midRun.cfa 0 1 = 1 ∧ (cfaAt midRun.cfa 0 (1 + 1)).val = (0 : Fin 3).val)
    ∧ (cfaAt midRun.cfa 0 1 = 1 ∧ (cfaAt midRun.cfa (0 + 1) 1).val = (2 : Fin 3).val)
    ∧ (cfaAt midRun.cfa 1 1 ≠ 1 ∧ (cfaAt midRun.cfa 1 1).val ≠ (0 : Fin 3).val) :=
  ⟨midRun_frame.1, midRun_frame.2, by decide, midRun_dem, by decide, by decide, by decide, by decide⟩

theorem witness_DemKeepsUniformGrids :
    (FrameSupplied midRun ∧ PatternSupplied midRun)
    ∧ EvenFrame { midRun with artBlc := .replicate midRun.samples (Val.ofInt 0x80000000) }
    ∧ GreensOnDiagonal midRun.cfa := ⟨midRun_supplied, midRun_frame⟩

theorem witness_DemOnSmallGrids : cfaCell 0x94 0 0 = 0 ∧ cfaCell 0x94 0 1 = 1 := by decide

theorem witness_DemIsLinear : ([1, 2] : List ℚ).length = 1 * 2 ∧ ([] : List ℚ).length = 0 * 4 := by decide

/-- A formula holds of every element where it holds of a list of candidates. -/
theorem witness_WbsScalesEachChannel :
    (FrameSupplied { p2 with height := 1, width := 1, artDem := vals [16, 48, 128] }
      ∧ GainsSupplied { p2 with height := 1, width := 1, artDem := vals [16, 48, 128] })
    ∧ ({ p2 with height := 1, width := 1, artDem := vals [16, 48, 128] } : State).artDem.length
        = ({ p2 with height := 1, width := 1, artDem := vals [16, 48, 128] } : State).elements
    ∧ ∀ (r c : Nat) (ch : Fin 3) (x : Val),
        r < ({ p2 with height := 1, width := 1 } : State).H → c < ({ p2 with height := 1, width := 1 } : State).W →
        (vals [16, 48, 128])[imageIndex ({ p2 with height := 1, width := 1 } : State).W r c ch]? = some x →
        (wbsFormula { p2 with height := 1, width := 1, artDem := vals [16, 48, 128] } ch x).isSome = true := by
  have h : ∀ x ∈ vals [16, 48, 128], ∀ ch : Fin 3,
      (wbsFormula { p2 with height := 1, width := 1, artDem := vals [16, 48, 128] } ch x).isSome = true := by
    decide +kernel
  exact ⟨⟨(supplied_of_written rfl).1, (supplied_of_written rfl).2.2.2.1⟩, by decide,
    fun r c ch x _ _ hx => h x (List.mem_of_getElem? hx) ch⟩

theorem witness_WbsChannelsAreIndependent :
    (#v[2048, 7, 9] : Vector (BitVec 32) 3)[(0 : Fin 3)] = p2.wb[(0 : Fin 3)]
    ∧ (∃ t, exec .wbs { p2 with height := 1, width := 1, artDem := vals [16, 48, 128] } = .next t)
    ∧ (∃ t, exec .wbs { p2 with
        height := 1, width := 1, artDem := vals [16, 48, 128], wb := #v[2048, 7, 9] } = .next t)
    ∧ ((3 * 1024 : BitVec 32).toInt = (3 : ℤ) * (1024 : BitVec 32).toInt
      ∧ (0x80000000 : BitVec 32).toInt = (-2097152 : ℤ) * (1024 : BitVec 32).toInt)
    ∧ (∃ a, wbsImage (Num.rational id) (.replicate 3 1024) 1 1 [10, 20, 30] = .next a)
    ∧ (∃ a, wbsImage (Num.rational id) ((Vector.replicate 3 (1024 : BitVec 32)).set 0 (3 * 1024)) 1 1 [10, 20, 30]
        = .next a)
    ∧ (∃ a, wbsImage (Num.rational id) ((Vector.replicate 3 (1024 : BitVec 32)).set 2 0x80000000) 1 1 [10, 20, 30]
        = .next a)
    ∧ (FrameSupplied { p2 with wb := .replicate 3 1024 } ∧ GainsSupplied { p2 with wb := .replicate 3 1024 })
    ∧ (∀ ch : Fin 3, ({ p2 with wb := .replicate 3 1024 } : State).wb[ch] = 1024)
    ∧ ({ p2 with artDem := .replicate p2.elements Val.zero } : State).artDem.length = p2.elements := by
  have h {α : Type} {o : Host.Outcome α Fault Refusal} (h : nextIs o (fun _ => true) = true) : ∃ t, o = .next t :=
    (exists_next h).imp fun _ ht => ht.1
  exact ⟨by decide, h (by decide +kernel), h (by decide +kernel), by decide, h (by decide +kernel),
    h (by decide +kernel), h (by decide +kernel), ⟨(supplied_of_written rfl).1, (supplied_of_written rfl).2.2.2.1⟩,
    by decide, by decide +kernel⟩

theorem witness_CctMultipliesByTheMatrix :
    FrameSupplied { p2 with height := 1, width := 1 }
    ∧ (vals [32, 48, 64]).length = ({ p2 with height := 1, width := 1 } : State).elements
    ∧ ∀ (r c : Nat) (ch : Fin 3) (x0 x1 x2 : Val),
        (vals [32, 48, 64])[imageIndex 1 r c 0]? = some x0 → (vals [32, 48, 64])[imageIndex 1 r c 1]? = some x1 →
        (vals [32, 48, 64])[imageIndex 1 r c 2]? = some x2 → (cctFormula p2 ch x0 x1 x2).isSome = true := by
  have h : ∀ x0 ∈ vals [32, 48, 64], ∀ x1 ∈ vals [32, 48, 64], ∀ x2 ∈ vals [32, 48, 64], ∀ ch : Fin 3,
      (cctFormula p2 ch x0 x1 x2).isSome = true := by decide +kernel
  exact ⟨(supplied_of_written rfl).1, by decide, fun r c ch x0 x1 x2 h0 h1 h2 =>
    h x0 (List.mem_of_getElem? h0) x1 (List.mem_of_getElem? h1) x2 (List.mem_of_getElem? h2) ch⟩

/-- The largest magnitude the bound admits is just below 2^1014. -/
theorem witness_CctIdentityKeepsTheImage :
    FrameSupplied { p2 with height := 1, width := 1 }
    ∧ (vals [32, 48, -64]).length = ({ p2 with height := 1, width := 1 } : State).elements
    ∧ ({ p2 with ccm := Config.ccmDefault } : State).ccm = State.reset.ccm
    ∧ (∀ v ∈ vals [32, 48, -64], v.units.natAbs < 2 ^ (Val.magBits - 10))
    ∧ ((Val.dec 0x7F4FFFFFFFFFFFFF).map fun v => decide (v.units.natAbs < 2 ^ (Val.magBits - 10))) = some true :=
  ⟨(supplied_of_written rfl).1, by decide +kernel⟩

theorem witness_CctIsTheMatrixOverTheRationals : ([1, 2, 3] : List ℚ).length = 1 * 1 * 3 := by decide

theorem witness_GamEncodesTheImage :
    FrameSupplied gamState ∧ gamState.artCct.length = gamState.elements ∧ (∃ v ∈ gamState.artCct, 0 < v.units) ∧ gamState.out.wf
    ∧ ∃ t, exec .gam gamState = .next t :=
  ⟨(supplied_of_written rfl).1, by decide, by decide +kernel, by decide +kernel,
    (exists_next (p := fun _ => true) (by decide +kernel)).imp fun _ h => h.1⟩

/-- An image of negative and zero elements, and the empty image. -/
theorem witness_GamRaisesOnNoPositiveElement :
    (FrameSupplied blackState ∧ FrameSupplied { p2 with height := 0, artCct := [] } ∧ FrameSupplied gamState)
    ∧ blackState.artCct.length = blackState.elements ∧ (∀ v ∈ blackState.artCct, v.units ≤ 0)
    ∧ ({ p2 with height := 0, artCct := [] } : State).artCct.length = ({ p2 with height := 0 } : State).elements
    ∧ (∃ v ∈ gamState.artCct, 0 < v.units) :=
  ⟨⟨(supplied_of_written rfl).1, (supplied_of_written rfl).1, (supplied_of_written rfl).1⟩, by decide +kernel⟩

theorem witness_GamOutputIsOrderedInTheUnitInterval :
    gamState.artCct.length = gamState.elements ∧ (∃ v ∈ gamState.artCct, 0 < v.units) ∧ gamState.out.wf
    ∧ (∃ t, exec .gam gamState = .next t)
    ∧ gamState.artCct[0]? = some (Val.ofInt (-16)) ∧ (Val.ofInt (-16)).units ≤ 0
    ∧ gamState.artCct[1]? = some (Val.ofInt 48) ∧ (Val.ofInt (-16)).units ≤ (Val.ofInt 48).units :=
  ⟨by decide, by decide +kernel, by decide +kernel,
    (exists_next (p := fun _ => true) (by decide +kernel)).imp fun _ h => h.1, by decide +kernel, by decide +kernel,
    by decide +kernel, by decide +kernel⟩

theorem witness_GamIsScaleInvariant : (0 : ℚ) < 1 / 3 := by norm_num

/-- The hypotheses of each of the five clauses, on the frame of P2 with the artifacts filled in. -/
def filled : State :=
  { p2 with artBlc := vals [16, 32, 64, 128], artDem := .replicate 12 (Val.ofInt 5), artWbs := .replicate 12 Val.one,
            artCct := .replicate 12 Val.zero }

theorem witness_OperationsCompleteOnBoundedOperands :
    (FrameSupplied filled ∧ PatternSupplied filled ∧ BiasesSupplied filled ∧ GainsSupplied filled)
    ∧ (∀ i, i < filled.samples →
      ∃ x, filled.raw.read i = some x ∧ x.units.natAbs ≤ 2 ^ (Val.unitBits + 980))
    ∧ (∀ n : Fin 4, filled.bl[n].units.natAbs ≤ 2 ^ (Val.unitBits + 980))
    ∧ (filled.artBlc.length = filled.samples ∧ ∀ v ∈ filled.artBlc, v.units.natAbs ≤ 2 ^ (Val.unitBits + 980))
    ∧ (filled.artDem.length = filled.elements ∧ ∀ v ∈ filled.artDem, v.units.natAbs ≤ 2 ^ (Val.unitBits + 980))
    ∧ (filled.artWbs.length = filled.elements ∧ ∀ v ∈ filled.artWbs, v.units.natAbs ≤ 2 ^ (Val.unitBits + 980))
    ∧ filled.artCct.length = filled.elements := by
  have h : ∀ i < filled.samples,
      ((filled.raw.read i).any fun x => decide (x.units.natAbs ≤ 2 ^ (Val.unitBits + 980))) = true := by decide +kernel
  have hs := supplied_of_written (s := filled) rfl
  refine ⟨⟨hs.1, hs.2.1, hs.2.2.1, hs.2.2.2.1⟩, fun i hi => ?_, by decide +kernel, by decide +kernel, by decide +kernel, by decide +kernel,
    by decide +kernel⟩
  obtain ⟨x, hx, hb⟩ := (Option.any_eq_true _ _).1 (h i hi)
  exact ⟨x, hx, of_decide_eq_true hb⟩

theorem witness_AllBlackFramesEndInAllZeroImageError :
    AtStart (atStart p3) ∧ OperandsSupplied (atStart p3) ∧ Checked (atStart p3)
    ∧ ∀ i, i < (atStart p3).samples → (atStart p3).raw.read i
        = some (atStart p3).bl[cfaAt (atStart p3).cfa (i / (atStart p3).W) (i % (atStart p3).W)] := by
  refine ⟨atStart_of_idle (by decide), (supplied_of_written rfl).2.2.2.2, ?_, by decide +kernel⟩
  unfold Checked
  decide

/-- A 2×2 frame of 100: the scenario S1 on the smallest legal frame. -/
def s1 : State :=
  atStart { p2 with bl := .replicate 4 Val.zero, wb := .replicate 3 1024, ccm := Config.ccmDefault
                    raw := space [100, 100, 100, 100] }

theorem witness_UniformFramesEncodeToOne :
    AtStart s1 ∧ OperandsSupplied s1 ∧ EvenFrame s1 ∧ GreensOnDiagonal s1.cfa ∧ 0 < (100 : BitVec 32).toInt
    ∧ (∀ i, i < s1.samples → s1.raw.read i = some (Val.ofInt 100))
    ∧ (∀ k : Fin 3, s1.bl[k.castSucc] = Val.zero) ∧ (∀ k : Fin 3, s1.wb[k] = 1024) ∧ s1.ccm = State.reset.ccm
    ∧ s1.out.wf := by
  refine ⟨atStart_of_idle (by decide), (supplied_of_written rfl).2.2.2.2, ?_, ?_, by decide, by decide +kernel, by decide +kernel, by decide +kernel,
    by decide +kernel, by decide +kernel⟩
  · unfold EvenFrame
    decide
  · unfold GreensOnDiagonal
    decide

/-- One register of each group unwritten: HEIGHT, CFA, a bias of the pattern, a gain; and a refusal that names one. -/
theorem witness_OperationsRefuseRegistersWithoutValue :
    ¬ FrameSupplied (unwritten [0x03] p2) ∧ ¬ PatternSupplied (unwritten [0x05] p2)
    ∧ ¬ BiasesSupplied (unwritten [0x0A] p2) ∧ ¬ GainsSupplied (unwritten [0x0E] p2)
    ∧ exec .cct (unwritten [0x04] p2) = .refused (.registerNoValue 0x04) := by
  refine ⟨fun h => absurd h.1 (by decide), fun h => absurd h (by unfold PatternSupplied; decide), fun h => ?_,
    fun h => absurd (h 2) (by decide), rfl⟩
  exact absurd (h 1 1 (by decide) (by decide)) (by decide)

end Sys2Proof.Tests
end

/-! ## Rounding to nearest, ties to even (O6)

What the four operations on `Val` answer, over the exact rationals. The lemmas below complete those of
Laws/Arith.lean: which magnitude overflows, and that a tie goes to the even significand. -/

section

namespace Sys2Proof

/-! ### Rounding to a whole number -/

/-- The rounded quotient is at most half a unit away from the exact one. -/
theorem roundHalfEven_within_half (n : Nat) {d : Nat} (hd : 0 < d) :
    2 * n ≤ 2 * (roundHalfEven n d * d) + d ∧ 2 * (roundHalfEven n d * d) ≤ 2 * n + d := by
  have hn : n / d * d + n % d = n := Nat.div_add_mod' n d
  have hr : n % d < d := Nat.mod_lt n hd
  have hsucc : (n / d + 1) * d = n / d * d + d := Nat.succ_mul _ _
  unfold roundHalfEven
  split
  · omega
  · split
    · omega
    · split <;> omega

/-- Halfway between two whole numbers the even one is taken. -/
theorem roundHalfEven_even_of_tie {n d : Nat} (hd : 0 < d)
    (h : 2 * n = 2 * (roundHalfEven n d * d) + d ∨ 2 * (roundHalfEven n d * d) = 2 * n + d) :
    roundHalfEven n d % 2 = 0 := by
  have hn : n / d * d + n % d = n := Nat.div_add_mod' n d
  have hr : n % d < d := Nat.mod_lt n hd
  have hsucc : (n / d + 1) * d = n / d * d + d := Nat.succ_mul _ _
  unfold roundHalfEven at h ⊢
  split_ifs at h ⊢ <;> omega

/-- A quotient is rounded to at least the even number `m` exactly from half a unit below `m` on. -/
theorem even_le_roundHalfEven_iff {n d m : Nat} (hd : 0 < d) (hm : m % 2 = 0) :
    m ≤ roundHalfEven n d ↔ 2 * (m * d) ≤ 2 * n + d := by
  obtain ⟨hlow, hhigh⟩ := roundHalfEven_within_half n hd
  have htie := roundHalfEven_even_of_tie (n := n) hd
  generalize roundHalfEven n d = R at *
  constructor
  · intro h
    have := Nat.mul_le_mul_right d h
    omega
  · intro h
    by_contra hlt
    have hle : (R + 1) * d ≤ m * d := Nat.mul_le_mul_right d (by omega)
    have hsucc : (R + 1) * d = R * d + d := Nat.succ_mul R d
    have hmR : m * d = (R + 1) * d := by omega
    have : m = R + 1 := Nat.eq_of_mul_eq_mul_right hd hmR
    have := htie (.inl (by omega))
    omega

/-- Where the exact quotient lies halfway between the rounded number and another one, the rounded number is even. -/
theorem roundHalfEven_even_of_equidistant {n d c : Nat} (hd : 0 < d) (hc : c ≠ roundHalfEven n d)
    (h : (roundHalfEven n d + c) * d = 2 * n) : roundHalfEven n d % 2 = 0 := by
  obtain ⟨hlow, hhigh⟩ := roundHalfEven_within_half n hd
  refine roundHalfEven_even_of_tie hd ?_
  rw [Nat.add_mul] at h
  rcases Nat.lt_or_gt_of_ne hc with hlt | hgt
  · have : (c + 1) * d ≤ roundHalfEven n d * d := Nat.mul_le_mul_right d hlt
    rw [Nat.succ_mul] at this
    omega
  · have : (roundHalfEven n d + 1) * d ≤ c * d := Nat.mul_le_mul_right d hgt
    rw [Nat.succ_mul] at this
    omega

/-! ### Rounding a magnitude to 53 significant bits -/

/-- The number of bits a magnitude loses when it is rounded to 53 significant bits. -/
def lostBits (m : Nat) : Nat := m.log2 - 52

theorem roundMagnitude_eq_lostBits (n d : Nat) :
    roundMagnitude n d = roundHalfEven n (d * 2 ^ lostBits (n / d)) * 2 ^ lostBits (n / d) :=
  roundMagnitude_eq n d

/-- A magnitude that loses bits has 53 significant bits before them. -/
theorem two_pow_le_of_lostBits_pos {m : Nat} (h : 0 < lostBits m) : 2 ^ 52 * 2 ^ lostBits m ≤ m := by
  unfold lostBits at *
  have hm : m ≠ 0 := by
    rintro rfl
    simp at h
  rw [← pow_add, Nat.add_sub_cancel' (by omega)]
  exact Nat.log2_self_le hm

theorem lt_two_pow_lostBits (m : Nat) : m < 2 ^ 53 * 2 ^ lostBits m := by
  unfold lostBits
  rcases Nat.eq_zero_or_pos m with rfl | hm
  · positivity
  · refine Nat.lt_log2_self.trans_le ?_
    rw [← pow_add]
    exact Nat.pow_le_pow_right (by norm_num) (by omega)

theorem lostBits_le_of_lt {m k : Nat} (h : m < 2 ^ 53 * 2 ^ k) : lostBits m ≤ k := by
  unfold lostBits
  rcases Nat.eq_zero_or_pos m with rfl | hm
  · simp
  · rw [← pow_add] at h
    have := (Nat.log2_lt hm.ne').2 h
    omega

/-- Which magnitudes are rounded to `2 ^ (53 + k)` or more: those from half a unit in the last place below it on. -/
theorem two_pow_le_roundMagnitude_iff {n d k : Nat} (hd : 0 < d) :
    2 ^ 53 * 2 ^ k ≤ roundMagnitude n d ↔ 2 ^ 54 * (2 ^ k * d) ≤ 2 * n + 2 ^ k * d := by
  have hlow : n / d * d ≤ n := Nat.div_mul_le_self n d
  have hhigh : n < (n / d + 1) * d := by
    rw [Nat.succ_mul]
    exact Nat.lt_div_mul_add hd
  rw [roundMagnitude_eq_lostBits]
  rcases lt_trichotomy (lostBits (n / d)) k with hlt | heq | hgt
  · -- below the binade of `2 ^ (53 + k)`, and so is the rounded magnitude
    have hk : 2 * 2 ^ lostBits (n / d) ≤ 2 ^ k := by
      rw [← pow_succ']
      exact Nat.pow_le_pow_right (by norm_num) hlt
    have hpos := Nat.two_pow_pos (lostBits (n / d))
    have hleft := Nat.mul_le_mul_right (2 ^ lostBits (n / d)) (roundHalfEven_le n d)
    have hq : n / d + 1 ≤ 2 ^ 52 * 2 ^ k := by
      have := lt_two_pow_lostBits (n / d)
      omega
    have hn := hhigh.trans_le (Nat.mul_le_mul_right d hq)
    rw [Nat.mul_assoc] at hn
    have hD : 0 < 2 ^ k * d := by positivity
    unfold lostBits at *
    constructor <;> intro h <;> omega
  · -- in the binade below it, where numbers lie `2 ^ k` apart
    subst heq
    rw [Nat.mul_le_mul_right_iff (by positivity), even_le_roundHalfEven_iff (by positivity) (by norm_num),
      Nat.mul_comm d]
    omega
  · -- in its own binade or above
    have hk : 2 * 2 ^ k ≤ 2 ^ lostBits (n / d) := by
      rw [← pow_succ']
      exact Nat.pow_le_pow_right (by norm_num) hgt
    have hq := two_pow_le_of_lostBits_pos (m := n / d) (by omega)
    have hn := (Nat.mul_le_mul_right d hq).trans hlow
    have hR : 2 ^ 52 ≤ roundHalfEven n (d * 2 ^ lostBits (n / d)) := by
      rw [even_le_roundHalfEven_iff (by positivity) (by norm_num), Nat.mul_comm d]
      rw [Nat.mul_assoc] at hn
      omega
    have hleft := Nat.mul_le_mul_right (2 ^ lostBits (n / d)) hR
    have hq' : 2 ^ 53 * 2 ^ k ≤ n / d := by omega
    have hright := (Nat.mul_le_mul_right d hq').trans hlow
    rw [Nat.mul_assoc] at hright
    constructor <;> intro h <;> omega

/-- A multiple of `2 ^ k` by an even number of at most 53 bits has an even significand. -/
theorem even_significand_mul_two_pow {r k : Nat} (hr : r % 2 = 0) (hle : r ≤ 2 ^ 53) :
    r * 2 ^ k / 2 ^ lostBits (r * 2 ^ k) % 2 = 0 := by
  rcases Nat.lt_or_eq_of_le hle with hlt | rfl
  · have hk : lostBits (r * 2 ^ k) ≤ k :=
      lostBits_le_of_lt ((Nat.mul_lt_mul_right (Nat.two_pow_pos k)).2 hlt)
    generalize lostBits (r * 2 ^ k) = l at hk ⊢
    obtain ⟨e, rfl⟩ := Nat.exists_eq_add_of_le' hk
    rw [pow_add, ← Nat.mul_assoc, Nat.mul_div_cancel _ (Nat.two_pow_pos _), Nat.mul_mod, hr, Nat.zero_mul,
      Nat.zero_mod]
  · have hk : lostBits (2 ^ 53 * 2 ^ k) = k + 1 := by
      rw [lostBits, ← pow_add, Nat.log2_two_pow]
      omega
    rw [hk, show (2 : Nat) ^ 53 * 2 ^ k = 2 ^ 52 * 2 ^ (k + 1) by ring, Nat.mul_div_cancel _ (Nat.two_pow_pos _)]
    norm_num

/-- A magnitude as near to the exact one as the rounded magnitude is a multiple of the last place that rounding kept. -/
theorem two_pow_dvd_of_equidistant {n d : Nat} (hd : 0 < d) {v : Val}
    (h : (roundMagnitude n d + v.units.natAbs) * d = 2 * n) : 2 ^ lostBits (n / d) ∣ v.units.natAbs := by
  refine (Nat.pow_dvd_pow 2 ?_).trans (Nat.dvd_of_mod_eq_zero v.significant)
  change lostBits (n / d) ≤ lostBits v.units.natAbs
  generalize v.units.natAbs = w at *
  by_contra hlt
  -- otherwise `w` lies below the binade of the exact magnitude, whose least number is nearer
  have hw : w < 2 ^ 52 * 2 ^ lostBits (n / d) := by
    have h1 := lt_two_pow_lostBits w
    have h2 : 2 ^ (lostBits w + 1) ≤ 2 ^ lostBits (n / d) := Nat.pow_le_pow_right (by norm_num) (by omega)
    rw [pow_succ] at h2
    omega
  have hwd := (Nat.mul_lt_mul_right hd).2 hw
  have hn := (Nat.mul_le_mul_right d (two_pow_le_of_lostBits_pos (m := n / d) (by omega))).trans
    (Nat.div_mul_le_self n d)
  have near := roundHalfEven_nearest n (d := d * 2 ^ lostBits (n / d)) (by positivity) (2 ^ 52)
  rw [show 2 ^ 52 * 2 ^ lostBits (n / d) * d = 2 ^ 52 * (d * 2 ^ lostBits (n / d)) by ring] at hn hwd
  rw [roundMagnitude_eq_lostBits, Nat.add_mul, Nat.mul_right_comm, Nat.mul_assoc] at h
  rw [← Nat.cast_mul, ← Nat.cast_mul, abs_of_nonpos (a := ((2 ^ 52 * _ : Nat) : Int) - n) (by omega)] at near
  have := (abs_le.1 near).2
  omega

/-- Where another binary64 magnitude is as near to the exact one, the rounded magnitude has an even significand. -/
theorem roundMagnitude_even_of_equidistant {n d : Nat} (hd : 0 < d) {v : Val}
    (hv : v.units.natAbs ≠ roundMagnitude n d) (h : (roundMagnitude n d + v.units.natAbs) * d = 2 * n) :
    roundMagnitude n d / 2 ^ lostBits (roundMagnitude n d) % 2 = 0 := by
  obtain ⟨c, hc⟩ := two_pow_dvd_of_equidistant hd h
  have hle := roundHalfEven_le n d
  rw [hc, Nat.mul_comm _ c] at h hv
  rw [roundMagnitude_eq_lostBits] at h hv ⊢
  refine even_significand_mul_two_pow (roundHalfEven_even_of_equidistant (c := c) (by positivity) ?_ ?_) hle
  · rintro rfl
    exact hv rfl
  · rw [← h]
    ring

/-! ### Rounding to a `Val` -/

theorem Val.units_injective : Function.Injective Val.units := by
  rintro ⟨u, _⟩ ⟨v, _⟩ rfl
  rfl

theorem Val.unitsPerOne_pos : 0 < Val.unitsPerOne := Nat.two_pow_pos _

theorem roundMagnitude_zero {d : Nat} (hd : 0 < d) : roundMagnitude 0 d = 0 := by
  simpa using roundMagnitude_exact (m := 0) hd (by simp)

/-- Rounding answers a number where the rounded magnitude is below 2^1024. -/
theorem Val.round_of_lt {n : Int} {d : Nat} (hd : 0 < d) (h : roundMagnitude n.natAbs d < Val.magLimit) :
    ∃ z, Val.round n d = some z := by
  have habs : (n.sign * (roundMagnitude n.natAbs d : Int)).natAbs = roundMagnitude n.natAbs d := by
    rcases eq_or_ne n 0 with rfl | hn
    · simp [roundMagnitude_zero hd]
    · rw [Int.natAbs_mul, Int.natAbs_sign_of_ne_zero hn, Nat.one_mul, Int.natAbs_natCast]
  have hfits : Val.Fits (n.sign * (roundMagnitude n.natAbs d : Int)) := by
    unfold Val.Fits
    rw [habs, bitLog_eq]
    exact ⟨h, roundMagnitude_significant _ _⟩
  exact ⟨⟨_, hfits⟩, (Val.round_eq_some hd).2 ⟨h, rfl⟩⟩

/-- Rounding has no result exactly where the rounded magnitude is 2^1024 or more. -/
theorem Val.round_eq_none_iff {n : Int} {d : Nat} (hd : 0 < d) :
    Val.round n d = none ↔ Val.magLimit ≤ roundMagnitude n.natAbs d := by
  constructor
  · intro h
    by_contra hlt
    obtain ⟨z, hz⟩ := Val.round_of_lt hd (by omega : roundMagnitude n.natAbs d < Val.magLimit)
    rw [h] at hz
    cases hz
  · intro h
    cases hz : Val.round n d with
    | none => rfl
    | some z =>
      have := ((Val.round_eq_some hd).1 hz).1
      omega

/-- The rounded units have the sign of the exact ones and the rounded magnitude. -/
theorem Val.natAbs_of_round {n : Int} {d : Nat} (hd : 0 < d) {z : Val} (hz : Val.round n d = some z) :
    z.units.natAbs = roundMagnitude n.natAbs d ∧ z.units = n.sign * (z.units.natAbs : Int) := by
  obtain ⟨-, hu⟩ := (Val.round_eq_some hd).1 hz
  have habs : z.units.natAbs = roundMagnitude n.natAbs d := by
    rcases eq_or_ne n 0 with rfl | hn
    · simp [hu, roundMagnitude_zero hd]
    · rw [hu, Int.natAbs_mul, Int.natAbs_sign_of_ne_zero hn, Nat.one_mul, Int.natAbs_natCast]
  exact ⟨habs, by rwa [habs]⟩

/-- The distance of the rounded number from the exact one is that of the magnitudes. -/
theorem Val.round_error {n : Int} {d : Nat} (hd : 0 < d) {z : Val} (hz : Val.round n d = some z) :
    |z.units * d - n| = |(roundMagnitude n.natAbs d : Int) * d - n.natAbs| := by
  obtain ⟨habs, hu⟩ := Val.natAbs_of_round hd hz
  rw [habs] at hu
  have hn : n = n.sign * (n.natAbs : Int) := (Int.sign_mul_natAbs n).symm
  rcases eq_or_ne n 0 with rfl | h0
  · simp [hu, roundMagnitude_zero hd]
  · have hs : |n.sign| = 1 := by
      rw [Int.abs_eq_natAbs, Int.natAbs_sign_of_ne_zero h0]
      rfl
    calc |z.units * d - n| = |n.sign * ((roundMagnitude n.natAbs d : Int) * d - n.natAbs)| := by
          rw [hu, mul_sub, ← hn, mul_assoc]
      _ = _ := by rw [abs_mul, hs, one_mul]

/-- Taking magnitudes brings no number farther away. -/
theorem abs_natAbs_mul_sub_le (u n : Int) (d : Nat) : |(u.natAbs : Int) * d - n.natAbs| ≤ |u * d - n| := by
  have h := abs_abs_sub_abs_le_abs_sub (u * d) n
  rwa [abs_mul, Nat.abs_cast, Int.abs_eq_natAbs u, Int.abs_eq_natAbs n] at h

/-- The rounded number is as near to the exact one as any binary64 number. -/
theorem Val.round_nearest {n : Int} {d : Nat} (hd : 0 < d) {z : Val} (hz : Val.round n d = some z) (w : Val) :
    |z.units * d - n| ≤ |w.units * d - n| := by
  rw [Val.round_error hd hz]
  exact (roundMagnitude_nearest _ hd w).trans (abs_natAbs_mul_sub_le _ _ _)

/-- A binary64 number as near to the exact one as the rounded number lies on the same side of zero. -/
theorem Val.mul_natAbs_of_equidistant {n : Int} {d : Nat} (hd : 0 < d) {z w : Val} (hz : Val.round n d = some z)
    (h : |z.units * d - n| = |w.units * d - n|) : w.units = n.sign * (w.units.natAbs : Int) := by
  have hzero := Val.round_nearest hd hz Val.zero
  rw [h, Val.zero_units, zero_mul, zero_sub, abs_neg] at hzero
  have hd' : (1 : Int) ≤ d := by exact_mod_cast hd
  rcases lt_trichotomy n 0 with hn | rfl | hn
  · rw [Int.sign_eq_neg_one_of_neg hn]
    rw [abs_of_neg hn] at hzero
    have := (abs_le.1 hzero).2
    have hw : w.units ≤ 0 := by nlinarith
    omega
  · rw [abs_zero, sub_zero, abs_mul, Nat.abs_cast] at hzero
    have : |w.units| = 0 := by nlinarith [abs_nonneg w.units]
    simp [abs_eq_zero.1 this]
  · rw [Int.sign_eq_one_of_pos hn]
    rw [abs_of_pos hn] at hzero
    have := (abs_le.1 hzero).1
    have hw : 0 ≤ w.units := by nlinarith
    omega

/-- Where another binary64 number is as near to the exact one, the rounded number has an even significand. -/
theorem Val.round_even_of_equidistant {n : Int} {d : Nat} (hd : 0 < d) {z w : Val} (hz : Val.round n d = some z)
    (hw : w ≠ z) (h : |z.units * d - n| = |w.units * d - n|) : Safety.EvenSignificand z := by
  obtain ⟨habs, hu⟩ := Val.natAbs_of_round hd hz
  have hwu := Val.mul_natAbs_of_equidistant hd hz h
  have hne : w.units.natAbs ≠ roundMagnitude n.natAbs d := by
    intro he
    refine hw (Val.units_injective ?_)
    rw [hwu, hu, he, habs]
  have hdist : |(roundMagnitude n.natAbs d : Int) * d - n.natAbs| = |(w.units.natAbs : Int) * d - n.natAbs| := by
    refine le_antisymm (roundMagnitude_nearest _ hd w) ?_
    rw [← Val.round_error hd hz, h]
    exact abs_natAbs_mul_sub_le _ _ _
  have hmid : (roundMagnitude n.natAbs d + w.units.natAbs) * d = 2 * n.natAbs := by
    rcases abs_eq_abs.1 hdist with he | he
    · have : (roundMagnitude n.natAbs d : Int) * d = (w.units.natAbs : Int) * d := by omega
      have : roundMagnitude n.natAbs d = w.units.natAbs :=
        Nat.eq_of_mul_eq_mul_right hd (by exact_mod_cast this)
      exact absurd this.symm hne
    · have : ((roundMagnitude n.natAbs d + w.units.natAbs : Nat) : Int) * d = 2 * n.natAbs := by
        rw [Nat.cast_add, add_mul]
        omega
      exact_mod_cast this
  have := roundMagnitude_even_of_equidistant hd hne hmid
  rwa [← habs] at this

/-! ### Over the exact rationals -/

theorem Val.unitsPerOne_cast_pos : (0 : ℚ) < Val.unitsPerOne := by exact_mod_cast Val.unitsPerOne_pos

/-- The distance of a `Val` from `n / d` units, counted in units. -/
theorem Val.abs_toRat_sub (v : Val) (n : Int) {d : Nat} (hd : 0 < d) :
    |v.toRat - (n : ℚ) / (d * Val.unitsPerOne)| = ((|v.units * d - n| : Int) : ℚ) / (d * Val.unitsPerOne) := by
  have hd' : (0 : ℚ) < d := by exact_mod_cast hd
  have hU := Val.unitsPerOne_cast_pos
  have hpos : (0 : ℚ) < d * Val.unitsPerOne := mul_pos hd' hU
  rw [Int.cast_abs, ← abs_of_pos hpos, ← abs_div, abs_of_pos hpos]
  congr 1
  unfold Val.toRat
  push_cast
  field_simp

/-- The bound of U3 in units: half a unit in the last place above the largest finite number is 2^1024 - 2^970. -/
theorem Val.overflow_iff (n : Int) {d : Nat} (hd : 0 < d) :
    Val.magLimit ≤ roundMagnitude n.natAbs d ↔ (2 : ℚ) ^ 1024 - 2 ^ 970 ≤ |(n : ℚ) / (d * Val.unitsPerOne)| := by
  have hd' : (0 : ℚ) < d := by exact_mod_cast hd
  have hU := Val.unitsPerOne_cast_pos
  have hlimit : Val.magLimit = 2 ^ 53 * 2 ^ 2045 := by
    rw [Val.magLimit, Val.magBits, ← pow_add]
  have hunits : (Val.unitsPerOne : ℚ) = 2 ^ 1074 := by
    rw [Val.unitsPerOne, Val.unitBits, Nat.cast_pow, Nat.cast_ofNat]
  have habs : |(n : ℚ)| = n.natAbs := by rw [Nat.cast_natAbs, Int.cast_abs]
  rw [hlimit, two_pow_le_roundMagnitude_iff hd, abs_div, abs_of_pos (mul_pos hd' hU), le_div_iff₀ (mul_pos hd' hU),
    habs, hunits]
  have htop : (2 : ℚ) ^ 1024 = 2 ^ 54 * 2 ^ 970 := pow_add 2 54 970
  have hlast : (2 : ℚ) ^ 2045 = 2 * (2 ^ 970 * 2 ^ 1074) := by rw [← pow_add, ← pow_succ']
  rw [← Nat.cast_le (α := ℚ)]
  simp only [Nat.cast_mul, Nat.cast_add, Nat.cast_pow, Nat.cast_ofNat]
  rw [htop, hlast]
  generalize (2 : ℚ) ^ 970 = a
  generalize (2 : ℚ) ^ 1074 = b
  constructor <;> intro h <;> linarith

/-- Rounding `n / d` units: to nearest, ties to even, and no result exactly where that is not finite. -/
theorem Val.isRounded_round (n : Int) {d : Nat} (hd : 0 < d) :
    Safety.IsRounded ((n : ℚ) / (d * Val.unitsPerOne)) (Val.round n d) := by
  have hpos : (0 : ℚ) < d * Val.unitsPerOne := mul_pos (by exact_mod_cast hd) Val.unitsPerOne_cast_pos
  refine ⟨(Val.round_eq_none_iff hd).trans (Val.overflow_iff n hd), fun z hz => ⟨fun w => ?_, fun w hw h => ?_⟩⟩
  · rw [Val.abs_toRat_sub z n hd, Val.abs_toRat_sub w n hd, div_le_div_iff_of_pos_right hpos]
    exact_mod_cast Val.round_nearest hd hz w
  · rw [Val.abs_toRat_sub z n hd, Val.abs_toRat_sub w n hd, div_left_inj' hpos.ne'] at h
    exact Val.round_even_of_equidistant hd hz hw (by exact_mod_cast h)

/-- A quotient of `Val`s in units of the divisor's magnitude, the sign moved to the dividend. -/
theorem Val.toRat_div_toRat (x y : Val) (hy : y.units ≠ 0) :
    x.toRat / y.toRat =
      ((x.units * y.units.sign * (Val.unitsPerOne : Int) : Int) : ℚ) / (y.units.natAbs * Val.unitsPerOne) := by
  have hU := Val.unitsPerOne_cast_pos.ne'
  have hy' : (y.units : ℚ) ≠ 0 := by exact_mod_cast hy
  have hsign : (y.units.sign : ℚ) * y.units = (y.units.natAbs : ℚ) := by
    rw [← Int.cast_mul, Int.sign_mul_self_eq_natAbs, Int.cast_natCast]
  have hs : (y.units.sign : ℚ) ≠ 0 := by exact_mod_cast (Int.sign_eq_zero_iff_zero).not.2 hy
  rw [← hsign]
  unfold Val.toRat
  push_cast
  field_simp

/-- Settles O6: each operation rounds a fraction of units that stands for its exact result. -/
theorem arithmeticRoundsToNearestEven : Obligations.ArithmeticRoundsToNearestEven := by
  intro x y
  have hU := Val.unitsPerOne_cast_pos.ne'
  have hadd : x.toRat + y.toRat = ((x.units + y.units : Int) : ℚ) / ((1 : Nat) * Val.unitsPerOne) := by
    unfold Val.toRat
    push_cast
    field_simp
  have hsub : x.toRat - y.toRat = ((x.units - y.units : Int) : ℚ) / ((1 : Nat) * Val.unitsPerOne) := by
    unfold Val.toRat
    push_cast
    field_simp
  have hmul : x.toRat * y.toRat = ((x.units * y.units : Int) : ℚ) / (Val.unitsPerOne * Val.unitsPerOne) := by
    unfold Val.toRat
    push_cast
    field_simp
  refine ⟨?_, ?_, ?_, fun hy => ?_⟩
  · rw [hadd]
    exact Val.isRounded_round _ one_pos
  · rw [hsub]
    exact Val.isRounded_round _ one_pos
  · rw [hmul]
    exact Val.isRounded_round _ Val.unitsPerOne_pos
  · have hy0 : y.units ≠ 0 := (Val.eq_zero_iff y).not.1 hy
    rw [Val.toRat_div_toRat x y hy0, Val.div, if_neg hy0]
    exact Val.isRounded_round _ (Int.natAbs_pos.2 hy0)

end Sys2Proof

end

/-! ## The named properties of the number systems (O7, O8)

P1 to P7 of R9 for the hardware numbers and for the reference numbers. An operation on `Val` whose exact result is a
`Val` answers that `Val`; P1 to P4 are cases of this. -/

section

namespace Sys2Proof

/-! ### Exact results -/

@[simp] theorem Val.ofInt_units (n : BitVec 32) : (Val.ofInt n).units = n.toInt * (Val.unitsPerOne : Int) := rfl

@[simp] theorem Val.one_units : Val.one.units = (Val.unitsPerOne : Int) := one_mul _

theorem Val.add_of_exact {x y v : Val} (h : x.units + y.units = v.units) : Val.add x y = some v := by
  unfold Val.add
  rw [h]
  simpa using Val.round_exact v one_pos

theorem Val.sub_of_exact {x y v : Val} (h : x.units - y.units = v.units) : Val.sub x y = some v := by
  unfold Val.sub
  rw [h]
  simpa using Val.round_exact v one_pos

theorem Val.mul_of_exact {x y v : Val} (h : x.units * y.units = v.units * (Val.unitsPerOne : Int)) :
    Val.mul x y = some v := by
  unfold Val.mul
  rw [h]
  exact Val.round_exact v Val.unitsPerOne_pos

theorem Val.div_of_exact {x y v : Val} (hy : y.units ≠ 0)
    (h : x.units * (Val.unitsPerOne : Int) = v.units * y.units) : Val.div x y = some v := by
  unfold Val.div
  rw [if_neg hy, mul_right_comm, h, mul_assoc, Int.mul_sign_self]
  exact Val.round_exact v (Int.natAbs_pos.2 hy)

/-- A number of at most 53 significant bits is kept, if it is finite. -/
theorem Val.round_of_significant {u : Int} {d : Nat} (hd : 0 < d) (hu : u.natAbs % 2 ^ (u.natAbs.log2 - 52) = 0) :
    Val.round (u * (d : Int)) d = Val.ofUnits u := by
  unfold Val.round
  rw [Int.sign_mul, Int.sign_eq_one_of_pos (a := (d : Int)) (by exact_mod_cast hd), Int.mul_one, Int.natAbs_mul,
    Int.natAbs_natCast, roundMagnitude_exact hd hu, Int.sign_mul_natAbs]

/-- Multiplying by a power of two adds no significant bit. -/
theorem Val.significant_two_pow_mul (v : Val) (k : Nat) :
    (2 ^ k * v.units.natAbs) % 2 ^ ((2 ^ k * v.units.natAbs).log2 - 52) = 0 := by
  have hdvd : 2 ^ (k + lostBits v.units.natAbs) ∣ 2 ^ k * v.units.natAbs := by
    rw [pow_add]
    exact Nat.mul_dvd_mul_left _ (Nat.dvd_of_mod_eq_zero v.significant)
  have hbits : lostBits (2 ^ k * v.units.natAbs) ≤ k + lostBits v.units.natAbs := by
    refine lostBits_le_of_lt ?_
    rw [pow_add, Nat.mul_left_comm]
    exact (Nat.mul_lt_mul_left (Nat.two_pow_pos k)).2 (lt_two_pow_lostBits _)
  exact Nat.mod_eq_zero_of_dvd ((Nat.pow_dvd_pow 2 hbits).trans hdvd)

/-- 1024 times a `Val` is exact, if it is finite. -/
theorem Val.mul_ofInt_1024 (x : Val) : Val.mul (Val.ofInt 1024) x = Val.ofUnits (1024 * x.units) := by
  have h : (Val.ofInt 1024).units * x.units = 1024 * x.units * (Val.unitsPerOne : Int) := by
    rw [Val.ofInt_units, show (1024 : BitVec 32).toInt = 1024 from rfl]
    ring
  unfold Val.mul
  rw [h]
  refine Val.round_of_significant Val.unitsPerOne_pos ?_
  rw [Int.natAbs_mul]
  exact Val.significant_two_pow_mul x 10

/-! ### Signs and bounds -/

theorem Val.round_nonneg {n : Int} {d : Nat} (hd : 0 < d) (hn : 0 ≤ n) {z : Val} (hz : Val.round n d = some z) :
    0 ≤ z.units := by
  obtain ⟨-, hu⟩ := Val.natAbs_of_round hd hz
  rw [hu]
  exact mul_nonneg (Int.sign_nonneg_iff.2 hn) (Int.natCast_nonneg _)

/-- A positive divisor brings no sign into the quotient. -/
theorem Val.div_of_pos (x : Val) {y : Val} (hy : 0 < y.units) :
    Val.div x y = Val.round (x.units * (Val.unitsPerOne : Int)) y.units.natAbs := by
  rw [Val.div, if_neg hy.ne', Int.sign_eq_one_of_pos hy, mul_one]

theorem Val.mul_unitsPerOne_nonneg {x : Val} (hx : 0 ≤ x.units) : 0 ≤ x.units * (Val.unitsPerOne : Int) :=
  mul_nonneg hx (Int.natCast_nonneg _)

/-- P5: a quotient of a value by a value at least as large lies between zero and one. -/
theorem Val.div_mem_unitInterval {x y : Val} (hy : 0 < y.units) (hx : 0 ≤ x.units) (hxy : x.units ≤ y.units) :
    ∃ q, Val.div x y = some q ∧ 0 ≤ q.units ∧ q.units ≤ Val.one.units := by
  have hd : 0 < y.units.natAbs := Int.natAbs_pos.2 hy.ne'
  have hbound : (x.units * (Val.unitsPerOne : Int)).natAbs ≤ Val.one.units.natAbs * y.units.natAbs := by
    rw [Val.one_units, Int.natAbs_mul, Int.natAbs_natCast, Nat.mul_comm]
    exact Nat.mul_le_mul_left _ (by omega)
  obtain ⟨q, hq, hle⟩ := Val.round_completes hd hbound
  have h0 := Val.round_nonneg hd (Val.mul_unitsPerOne_nonneg hx) hq
  have h1 := Val.one_units
  exact ⟨q, (Val.div_of_pos x hy).trans hq, h0, by omega⟩

theorem Val.ofInt_1024_units : (Val.ofInt 1024).units = 1024 * (Val.unitsPerOne : Int) := rfl

theorem Val.ofInt_1024_pos : 0 < (Val.ofInt 1024).units := by
  have := Val.unitsPerOne_pos
  rw [Val.ofInt_1024_units]
  omega

/-- A number divided by 1024 is finite, and no greater than the number. -/
theorem Val.div_ofInt_1024 (x : Val) :
    ∃ q, Val.div x (Val.ofInt 1024) = some q ∧ q.units.natAbs ≤ x.units.natAbs := by
  have habs : (Val.ofInt 1024).units.natAbs = 1024 * Val.unitsPerOne := by
    rw [Val.ofInt_1024_units]
    omega
  rw [Val.div_of_pos x Val.ofInt_1024_pos]
  refine Val.round_completes (Int.natAbs_pos.2 Val.ofInt_1024_pos.ne') ?_
  rw [habs, Int.natAbs_mul, Int.natAbs_natCast]
  exact Nat.mul_le_mul_left _ (by omega)

/-! ### The hardware numbers -/

theorem binary64_le_iff {x y : Val} : Num.binary64.Le x y ↔ x.units ≤ y.units := by
  simp [Num.Le, Num.binary64, Val.lt]

theorem binary64_zeroAbsorbs : Num.binary64.ZeroAbsorbs := by
  refine ⟨fun x => Val.mul_of_exact ?_, fun x => Val.mul_of_exact ?_, fun x => Val.mul_of_exact ?_,
    Val.add_of_exact ?_, fun x => Val.sub_of_exact ?_, fun d hd => Val.div_of_exact ((Val.eq_zero_iff d).not.1 hd) ?_⟩
  all_goals simp [Num.binary64]

theorem binary64_neutralElements : Num.binary64.NeutralElements := by
  refine ⟨fun x => Val.add_of_exact ?_, fun x => Val.add_of_exact ?_, fun x => Val.sub_of_exact ?_,
    fun x => Val.mul_of_exact ?_, fun x => Val.mul_of_exact ?_⟩
  all_goals simp [Num.binary64, mul_comm]

theorem binary64_selfDivision : Num.binary64.SelfDivision := fun x hx =>
  Val.div_of_exact ((Val.eq_zero_iff x).not.1 hx) (by simp [Num.binary64, mul_comm])

theorem binary64_scaleCancels : Num.binary64.ScaleCancels := by
  refine ⟨binary64_selfDivision _ ((Val.eq_zero_iff _).not.2 Val.ofInt_1024_pos.ne'), fun x y h => ?_⟩
  have hy : y.units = 1024 * x.units := Val.ofUnits_eq_some.1 ((Val.mul_ofInt_1024 x).symm.trans h)
  refine Val.div_of_exact Val.ofInt_1024_pos.ne' ?_
  rw [hy]
  change 1024 * x.units * (Val.unitsPerOne : Int) = x.units * (1024 * (Val.unitsPerOne : Int))
  ring

theorem binary64_ordered : Num.binary64.Ordered := by
  refine ⟨fun x => by simp [Num.binary64, Val.lt], fun x y z hxy hyz => ?_, fun x y hne => ?_, ?_,
    fun x d hd hx hxd => ?_⟩
  · simp only [Num.binary64, Val.lt, decide_eq_true_eq] at *
    omega
  · simp only [Num.binary64, Val.lt, decide_eq_true_eq]
    exact lt_or_gt_of_ne fun h => hne (Val.units_injective h)
  · simpa [Num.binary64, Val.lt] using Val.unitsPerOne_pos
  · have hd' : 0 < d.units := by simpa [Num.binary64, Val.lt] using hd
    have hx' : 0 ≤ x.units := by simpa [Num.binary64] using binary64_le_iff.1 hx
    obtain ⟨q, hq, h0, h1⟩ := Val.div_mem_unitInterval hd' hx' (binary64_le_iff.1 hxd)
    exact ⟨q, hq, binary64_le_iff.2 (by simpa [Num.binary64] using h0), binary64_le_iff.2 h1⟩

theorem Config.gpow_zero : Config.gpow Val.zero = Val.zero := GammaFn.at_zero _

theorem Config.gpow_one : Config.gpow Val.one = Val.one := GammaFn.at_one _

theorem Config.gpow_mono {a b : Val} (h0 : 0 ≤ a.units) (h : a.units ≤ b.units) (h1 : b.units ≤ Val.one.units) :
    (Config.gpow a).units ≤ (Config.gpow b).units := GammaFn.mono _ a b h0 h h1

/-- P6: the gamma function stays in [zero, one]. -/
theorem Config.gpow_mem_unitInterval {x : Val} (h0 : 0 ≤ x.units) (h1 : x.units ≤ Val.one.units) :
    0 ≤ (Config.gpow x).units ∧ (Config.gpow x).units ≤ Val.one.units := by
  have hlow := Config.gpow_mono (a := Val.zero) (by simp) (by simpa using h0) h1
  have hhigh := Config.gpow_mono h0 h1 le_rfl
  rw [Config.gpow_zero, Val.zero_units] at hlow
  rw [Config.gpow_one] at hhigh
  exact ⟨hlow, hhigh⟩

theorem binary64_gammaProperties : Num.binary64.GammaProperties := by
  refine ⟨Config.gpow_zero, Config.gpow_one, fun a b ha hab hb => ?_, fun x h0 h1 => ?_⟩
  · have hab' : a.units < b.units := by simpa [Num.binary64, Val.lt] using hab
    have ha' : 0 ≤ a.units := by simpa [Num.binary64] using binary64_le_iff.1 ha
    exact binary64_le_iff.2 (Config.gpow_mono ha' hab'.le (binary64_le_iff.1 hb))
  · have h0' : 0 ≤ x.units := by simpa [Num.binary64] using binary64_le_iff.1 h0
    obtain ⟨hlow, hhigh⟩ := Config.gpow_mem_unitInterval h0' (binary64_le_iff.1 h1)
    exact ⟨binary64_le_iff.2 (by simpa [Num.binary64] using hlow), binary64_le_iff.2 hhigh⟩

theorem Val.toRat_injective : Function.Injective Val.toRat := by
  intro x y h
  have := (div_left_inj' Val.unitsPerOne_cast_pos.ne').1 h
  exact Val.units_injective (by exact_mod_cast this)

theorem Val.toRat_ofInt (n : BitVec 32) : (Val.ofInt n).toRat = (n.toInt : ℚ) := by
  have := Val.unitsPerOne_cast_pos.ne'
  unfold Val.toRat
  rw [Val.ofInt_units]
  push_cast
  field_simp

theorem binary64_homogeneousUnrounded : Num.binary64.HomogeneousUnrounded Val.toRat := by
  rintro k g kg x l r hkg ⟨a, b, y, -, ha, -, hl, -, hb, -, hy, -, hr⟩
  refine Val.toRat_injective ?_
  rw [hl, hr, ha, hy, hb, hkg]
  push_cast
  ring

/-- `2 ^ k` times the units of `2 ^ -k` make 1. -/
theorem Val.two_pow_mul_two_pow {k : Nat} (hk : k ≤ 1074) : 2 ^ k * 2 ^ (Val.unitBits - k) = Val.unitsPerOne := by
  rw [← pow_add, Val.unitsPerOne, Nat.add_sub_cancel' (by rwa [Val.unitBits])]

theorem Val.two_mul_half : 2 * Val.half.units = Val.unitsPerOne := by
  have h := Val.two_pow_mul_two_pow (k := 1) (by norm_num)
  rw [show Val.half.units = ((2 ^ (Val.unitBits - 1) : Nat) : Int) from rfl]
  exact_mod_cast h

theorem Val.four_mul_quarter : 4 * Val.quarter.units = Val.unitsPerOne := by
  have h := Val.two_pow_mul_two_pow (k := 2) (by norm_num)
  rw [show Val.quarter.units = ((2 ^ (Val.unitBits - 2) : Nat) : Int) from rfl]
  exact_mod_cast h

theorem Val.one_div_two : Val.div (Val.ofInt 1) (Val.ofInt 2) = some Val.half := by
  have h2 : (Val.ofInt 2).units = 2 * (Val.unitsPerOne : Int) := rfl
  have hU := Val.unitsPerOne_pos
  refine Val.div_of_exact (by omega) ?_
  rw [h2, show (Val.ofInt 1).units = Val.unitsPerOne from Val.one_units, ← Val.two_mul_half]
  ring

theorem Val.one_div_four : Val.div (Val.ofInt 1) (Val.ofInt 4) = some Val.quarter := by
  have h4 : (Val.ofInt 4).units = 4 * (Val.unitsPerOne : Int) := rfl
  have hU := Val.unitsPerOne_pos
  refine Val.div_of_exact (by omega) ?_
  rw [h4, show (Val.ofInt 1).units = Val.unitsPerOne from Val.one_units, ← Val.four_mul_quarter]
  ring

/-- Settles O7: the properties one by one, the constants by exact division. -/
theorem hardwareNumbersHaveTheNamedProperties : Obligations.HardwareNumbersHaveTheNamedProperties := by
  exact ⟨binary64_zeroAbsorbs, binary64_neutralElements, binary64_scaleCancels, binary64_selfDivision,
    binary64_ordered, binary64_gammaProperties, binary64_homogeneousUnrounded,
    Val.one_div_two, Val.one_div_four, Val.toRat_ofInt⟩

/-! ### The reference numbers -/

section

variable (g : ℚ → ℚ)

theorem rational_le_iff {x y : ℚ} : (Num.rational g).Le x y ↔ x ≤ y := by
  simp [Num.Le, Num.rational]

theorem rational_zeroAbsorbs : (Num.rational g).ZeroAbsorbs := by
  refine ⟨fun x => ?_, fun x => ?_, fun x => ?_, ?_, fun x => ?_, fun d hd => ?_⟩
  all_goals simp_all [Num.rational]

theorem rational_neutralElements : (Num.rational g).NeutralElements := by
  refine ⟨fun x => ?_, fun x => ?_, fun x => ?_, fun x => ?_, fun x => ?_⟩
  all_goals simp [Num.rational]

theorem rational_scaleCancels : (Num.rational g).ScaleCancels := by
  refine ⟨by simp [Num.rational], fun x y hy => ?_⟩
  simp only [Num.rational, Option.some.injEq] at hy ⊢
  simp [← hy]

theorem rational_selfDivision : (Num.rational g).SelfDivision := by
  intro x hx
  have : x ≠ 0 := hx
  simp [Num.rational, this]

theorem rational_ordered : (Num.rational g).Ordered := by
  refine ⟨fun x => by simp [Num.rational], fun x y z hxy hyz => ?_, fun x y hne => ?_, by simp [Num.rational],
    fun x d hd hx hxd => ?_⟩
  · simp only [Num.rational, decide_eq_true_eq] at *
    exact hxy.trans hyz
  · simpa [Num.rational] using lt_or_gt_of_ne hne
  · have hd' : 0 < d := by simpa [Num.rational] using hd
    have hx' : 0 ≤ x := (rational_le_iff g).1 hx
    have hxd' : x ≤ d := (rational_le_iff g).1 hxd
    exact ⟨x / d, if_neg hd'.ne', (rational_le_iff g).2 (div_nonneg hx' hd'.le),
      (rational_le_iff g).2 ((div_le_one hd').2 hxd')⟩

theorem rational_homogeneous : (Num.rational g).Homogeneous := by
  intro k g' kg x hkg
  have h : (1024 : BitVec 32).toInt = 1024 := rfl
  simp only [Num.scaleTwice, Num.scaleOnce, Num.rational, h, hkg]
  norm_num
  ring

end

/-- P6 of the reference numbers is what their gamma function carries. -/
theorem reference_gammaProperties (g : RationalGammaFn) : (Num.reference g).GammaProperties := by
  refine ⟨g.at_zero, g.at_one, fun a b ha hab hb => ?_, fun x h0 h1 => ?_⟩
  · have hab' : a < b := by simpa [Num.reference, Num.rational] using hab
    exact (rational_le_iff g.fn).2 (g.mono a b ((rational_le_iff g.fn).1 ha) hab'.le ((rational_le_iff g.fn).1 hb))
  · have hx0 : 0 ≤ x := (rational_le_iff g.fn).1 h0
    have hx1 : x ≤ 1 := (rational_le_iff g.fn).1 h1
    exact ⟨(rational_le_iff g.fn).2 (g.at_zero.symm.le.trans (g.mono 0 x le_rfl hx0 hx1)),
      (rational_le_iff g.fn).2 ((g.mono x 1 hx0 hx1 le_rfl).trans g.at_one.le)⟩

/-- Settles O8: the properties one by one, over the field of the rationals. -/
theorem rationalNumbersHaveTheNamedProperties : Obligations.RationalNumbersHaveTheNamedProperties := by
  refine ⟨fun g => ⟨rfl, reference_gammaProperties g⟩, fun g => ⟨rational_zeroAbsorbs g, rational_neutralElements g,
    rational_scaleCancels g, rational_selfDivision g, rational_ordered g, ?_, ?_, rational_homogeneous g⟩⟩
  · simp [Num.rational]
  · simp [Num.rational]

end Sys2Proof

end

/-! ## The operand registers through the host port (O27)

What a store to a register leaves in it and in every other register, and what the port returns. -/

section

namespace Sys2Proof.Machine

/-! ### The cells of CFA -/

theorem cfaCell_val (p : BitVec 8) (i j : Nat) : (cfaCell p i j).val = p.toNat / 4 ^ (2 * i + j) % 4 := by
  change (p.extractLsb' (2 * (2 * i + j)) 2).toNat = _
  rw [BitVec.extractLsb'_toNat, Nat.shiftRight_eq_div_pow, pow_mul]
  rfl

/-! ### Registers by number -/

theorem Reg.number_injective : Function.Injective Reg.number := fun r r' h => by
  have := congrArg Reg.ofNumber h
  rwa [Reg.ofNumber_number, Reg.ofNumber_number, Option.some.injEq] at this

/-- A register's number returns its word if it holds a value, and a free word otherwise. -/
theorem rreg_number (r : Reg) (s : State) :
    rreg r.number s = if r.hasValue s then { s with reply := r.word s } else drawReply s := by
  unfold rreg
  rw [Reg.ofNumber_number]

theorem rreg_number_of_hasValue {r : Reg} {s : State} (h : r.hasValue s = true) :
    rreg r.number s = { s with reply := r.word s } := by
  rw [rreg_number, if_pos h]

/-- A write to an operand register is stored while BUSY = 0. -/
theorem wreg_number_of_not_busy {r : Reg} {d : Word} {s : State} (hr : r.isOperand = true)
    (hb : s.status.busy = false) : wreg r.number d s = .next (r.store d s) := by
  unfold wreg
  rw [Reg.ofNumber_number]
  cases r with
  | ctrl => cases hr
  | _ => simp [hb]

/-! ### The notes of what was written -/

theorem Reg.word_markWritten (r r' : Reg) (s : State) : r'.word (markWritten r s) = r'.word s := by
  cases r' <;> rfl

theorem Reg.hasValue_markWritten_self (r : Reg) (s : State) : r.hasValue (markWritten r s) = true := by
  cases r <;> simp [Reg.hasValue]

theorem Reg.hasValue_markWritten_of_ne {r r' : Reg} (h : r' ≠ r) (s : State) :
    r'.hasValue (markWritten r s) = r'.hasValue s := by
  have hne : r.number.toNat ≠ r'.number.toNat := fun he => h (Reg.number_injective (BitVec.eq_of_toNat_eq he.symm))
  cases r' <;> simp only [Reg.hasValue, markWritten_fields] <;> exact Vector.getElem_set_ne _ _ hne

/-- Whether a register holds a value is told by the notes alone. -/
theorem Reg.hasValue_congr {s t : State} (h : t.written = s.written) (r : Reg) : r.hasValue t = r.hasValue s := by
  cases r <;> simp only [Reg.hasValue, h]

/-! ### Stores -/

/-- A register that was stored holds a value; a word that is no `Val` is not stored. -/
theorem Reg.hasValue_store_self {r : Reg} {d : Word} (s : State) (hr : r.isOperand = true)
    (hd : ∀ n, r = .bl n → Val.dec d ≠ none) : r.hasValue (r.store d s) = true := by
  cases r with
  | ctrl => cases hr
  | status => cases hr
  | errinfo => cases hr
  | bl n =>
    obtain ⟨v, hv⟩ := Option.ne_none_iff_exists'.1 (hd n rfl)
    simp only [Reg.store, hv, Reg.hasValue_markWritten_self]
  | _ => exact Reg.hasValue_markWritten_self _ _

/-- A store leaves the word of every other register and whether it holds a value. -/
theorem Reg.store_other {r r' : Reg} (h : r' ≠ r) (d : Word) (s : State) :
    r'.word (r.store d s) = r'.word s ∧ r'.hasValue (r.store d s) = r'.hasValue s := by
  have noted : ∀ t : State, t.written = s.written → r'.word t = r'.word s →
      r'.word (markWritten r t) = r'.word s ∧ r'.hasValue (markWritten r t) = r'.hasValue s := fun t ht hw =>
    ⟨(Reg.word_markWritten r r' t).trans hw, (Reg.hasValue_markWritten_of_ne h t).trans (Reg.hasValue_congr ht r')⟩
  cases r with
  | ctrl => exact ⟨rfl, rfl⟩
  | status => exact ⟨rfl, rfl⟩
  | errinfo => exact ⟨rfl, rfl⟩
  | height =>
    refine noted _ rfl ?_
    cases r' with
    | height => exact absurd rfl h
    | _ => rfl
  | width =>
    refine noted _ rfl ?_
    cases r' with
    | width => exact absurd rfl h
    | _ => rfl
  | cfa =>
    refine noted _ rfl ?_
    cases r' with
    | cfa => exact absurd rfl h
    | _ => rfl
  | bl n =>
    simp only [Reg.store]
    split
    · refine noted _ rfl ?_
      cases r' with
      | bl m =>
        have : n.val ≠ m.val := fun he => h (by rw [Fin.ext he])
        simp [Reg.word, this]
      | _ => rfl
    · exact ⟨rfl, rfl⟩
  | wb n =>
    refine noted _ rfl ?_
    cases r' with
    | wb m =>
      have : n.val ≠ m.val := fun he => h (by rw [Fin.ext he])
      simp [Reg.word, this]
    | _ => rfl
  | ccm n =>
    refine noted _ rfl ?_
    cases r' with
    | ccm m =>
      have : n.val ≠ m.val := fun he => h (by rw [Fin.ext he])
      simp [Reg.word, this]
    | _ => rfl

/-- The low bits of a data word, zero-extended. -/
theorem toNat_setWidth_extractLsb' (d : Word) {k : Nat} (hk : k ≤ 64) :
    ((d.extractLsb' 0 k).setWidth 64).toNat = d.toNat % 2 ^ k := by
  rw [BitVec.toNat_setWidth, BitVec.extractLsb'_toNat, Nat.shiftRight_zero, Nat.mod_eq_of_lt]
  exact (Nat.mod_lt _ (Nat.two_pow_pos k)).trans_le (Nat.pow_le_pow_right (by norm_num) hk)

/-- Settles O27: what is stored, read back through the port, and the frame of the store. -/
theorem writtenOperandsReadBack : Obligations.WrittenOperandsReadBack := by
  refine ⟨fun p i j _ _ => cfaCell_val p i j, fun p r c => cfaCell_val p (r % 2) (c % 2), fun s r d hr hb => ?_⟩
  have reads : (∀ n, r = .bl n → Val.dec d ≠ none) → (rreg r.number (r.store d s)).reply = r.word (r.store d s) :=
    fun hd => by rw [rreg_number_of_hasValue (Reg.hasValue_store_self s hr hd)]
  refine ⟨r.store d s, wreg_number_of_not_busy hr hb, ?_, ?_, ?_, ?_, ?_, ?_, fun r' h => Reg.store_other h d s,
    Reg.store_keeps r d s⟩
  · rintro (rfl | rfl) <;> rw [reads nofun] <;> exact toNat_setWidth_extractLsb' d (by norm_num)
  · rintro rfl
    rw [reads nofun]
    exact toNat_setWidth_extractLsb' d (by norm_num)
  · rintro n rfl
    have hw : ((Reg.wb n).store d s).wb[n] = d.extractLsb' 0 32 := by simp [Reg.store]
    rw [reads nofun, Reg.word, hw, toNat_setWidth_extractLsb' d (by norm_num)]
    exact ⟨rfl, by rw [BitVec.extractLsb'_toNat, Nat.shiftRight_zero]⟩
  · rintro n rfl
    have hw : ((Reg.ccm n).store d s).ccm[n] = d.extractLsb' 0 32 := by simp [Reg.store]
    rw [reads nofun, Reg.word, hw, toNat_setWidth_extractLsb' d (by norm_num)]
    exact ⟨rfl, by rw [BitVec.extractLsb'_toNat, Nat.shiftRight_zero]⟩
  · rintro n v rfl hv
    have hw : ((Reg.bl n).store d s).bl[n] = v := by simp [Reg.store, hv]
    rw [reads fun _ _ => by simp [hv], Reg.word, hw]
    exact ⟨rfl, rfl⟩
  · rintro n rfl hd
    simp only [Reg.store, hd]

end Sys2Proof.Machine

end

/-! ## Traversals of finite results, and BLC (O38)

An operation of the block is a traversal whose iterations each form one number by a formula of the spec. Said once: such
a traversal answers the list of the numbers if all are finite, and is refused with `notFinite` if one is not. -/

section

namespace Sys2Proof.Machine

open Sys2Proof.Safety

section Traversals

variable {V : Type}

/-- A result formed in two steps is refused where the first or the second is not finite. -/
theorem finite_bind {α : Type} (o : Option α) (f : α → Option V) :
    finite (o.bind f) = andThen (finite o) fun a => finite (f a) := by
  cases o <;> rfl

variable {f : Nat → Host.Outcome V Fault Refusal} {F : Nat → Option V} {n : Nat}

/-- A traversal whose iterations form the numbers `F i`, all finite, answers them. -/
theorem collect_eq_next_of_finite (hf : ∀ i < n, f i = finite (F i)) (h : ∀ i < n, (F i).isSome = true) :
    ∃ g, collect f 0 n = .next g ∧ g.length = n ∧ ∀ i < n, g[i]? = F i := by
  obtain ⟨g, hg⟩ := collect_completes (f := f) (k := 0) (n := n) fun i hi => by
    obtain ⟨v, hv⟩ := Option.isSome_iff_exists.1 (h i hi)
    exact ⟨v, by rw [Nat.zero_add, hf i hi, hv, finite_some]⟩
  obtain ⟨hl, hi⟩ := collect_eq_next.1 hg
  refine ⟨g, hg, hl, fun i hin => ?_⟩
  have hval := hi i (hl ▸ hin)
  rw [Nat.zero_add, hf i hin, finite_eq_next] at hval
  rw [hval, List.getElem?_eq_getElem]

/-- A traversal whose iterations form the numbers `F i`, one of them not finite, is refused. -/
theorem collect_eq_refused_of_not_finite (hf : ∀ i < n, f i = finite (F i)) (h : ∃ i < n, F i = none) :
    collect f 0 n = .refused .notFinite := by
  refine collect_refused (fun i hi => ?_) ?_
  · rw [Nat.zero_add, hf i hi]
    cases F i with
    | some v => exact .inl ⟨v, rfl⟩
    | none => exact .inr rfl
  · obtain ⟨i, hi, hF⟩ := h
    exact ⟨i, hi, by rw [Nat.zero_add, hf i hi, hF, finite_none]⟩

end Traversals

/-! ### Positions of a frame -/

theorem sampleIndex_lt {H W r c : Nat} (hr : r < H) (hc : c < W) : r * W + c < H * W :=
  calc r * W + c < r * W + W := by omega
    _ = (r + 1) * W := (Nat.succ_mul r W).symm
    _ ≤ H * W := Nat.mul_le_mul_right W hr

theorem sampleIndex_div {W c : Nat} (r : Nat) (hc : c < W) : (r * W + c) / W = r := by
  rw [Nat.mul_comm, Nat.mul_add_div (by omega), Nat.div_eq_of_lt hc, Nat.add_zero]

theorem sampleIndex_mod {W c : Nat} (r : Nat) (hc : c < W) : (r * W + c) % W = c := by
  rw [Nat.mul_comm, Nat.mul_add_mod, Nat.mod_eq_of_lt hc]

/-- Every sample of the frame stands at a row and a column. -/
theorem position_of_lt {H W i : Nat} (hi : i < H * W) : i / W < H ∧ i % W < W ∧ i / W * W + i % W = i := by
  have hW : 0 < W := Nat.pos_of_ne_zero (by rintro rfl; simp at hi)
  exact ⟨(Nat.div_lt_iff_lt_mul hW).2 hi, Nat.mod_lt i hW, Nat.div_add_mod' i W⟩

/-! ### BLC -/

/-- Element `i` of `art.BLC` by the formula of R100, where the sample holds a value. -/
def blcFormula (s : State) (i : Nat) : Option Val :=
  (s.raw.read i).bind fun x => Val.sub x s.bl[cfaAt s.cfa (i / s.W) (i % s.W)]

theorem blcSample_eq_finite {s : State} {i : Nat} (h : (s.raw.read i).isSome = true) :
    blcSample Num.binary64 s.raw.read (fun n => s.bl[n]) s.cfa s.W i = finite (blcFormula s i) := by
  obtain ⟨x, hx⟩ := Option.isSome_iff_exists.1 h
  simp only [blcSample, blcFormula, hx, Option.bind_some]
  rfl

/-- With the registers it reads supplied, BLC is its traversal of the frame. -/
theorem execBlc_of_supplied {s : State} (hf : FrameSupplied s) (hp : PatternSupplied s) (hb : BiasesSupplied s) :
    exec .blc s =
      andThen (blcGrid Num.binary64 s.raw.read (fun n => s.bl[n]) s.cfa s.H s.W) fun g =>
        .next (toStage 3 { s with artBlc := g }) := by
  refine withOperands_of_values ?_ _
  simp only [registersRead, cfaCells, List.map_cons, List.map_nil, List.cons_append, List.nil_append,
    List.forall_mem_cons, List.not_mem_nil, false_implies, implies_true, and_true]
  exact ⟨hf.1, hf.2, hp, hb 0 0 (by norm_num) (by norm_num), hb 0 1 (by norm_num) (by norm_num),
    hb 1 0 (by norm_num) (by norm_num), hb 1 1 (by norm_num) (by norm_num)⟩

/-- BLC completes with the elements of R100 where all of them are finite. -/
theorem execBlc_completes {s : State} (hf : FrameSupplied s) (hp : PatternSupplied s) (hb : BiasesSupplied s)
    (h : ∀ i < s.samples, (blcFormula s i).isSome = true) :
    ∃ g, exec .blc s = .next (toStage 3 { s with artBlc := g }) ∧ g.length = s.samples
      ∧ ∀ i < s.samples, g[i]? = blcFormula s i := by
  have hread : ∀ i < s.samples, (s.raw.read i).isSome = true := fun i hi => by
    obtain ⟨d, hd⟩ := Option.isSome_iff_exists.1 (h i hi)
    obtain ⟨x, hx, -⟩ := Option.bind_eq_some_iff.1 hd
    rw [hx, Option.isSome_some]
  obtain ⟨g, hg, hl, hi⟩ := collect_eq_next_of_finite (fun i hin => blcSample_eq_finite (hread i hin)) h
  refine ⟨g, ?_, hl, hi⟩
  rw [execBlc_of_supplied hf hp hb, blcGrid]
  change andThen (collect _ 0 s.samples) _ = _
  rw [hg, andThen_next]

/-- BLC is refused where every sample is there and a difference is not finite. -/
theorem execBlc_not_finite {s : State} (hf : FrameSupplied s) (hp : PatternSupplied s) (hb : BiasesSupplied s)
    (hread : ∀ i < s.samples, (s.raw.read i).isSome = true) (h : ∃ i < s.samples, blcFormula s i = none) :
    exec .blc s = .refused .notFinite := by
  rw [execBlc_of_supplied hf hp hb, blcGrid]
  change andThen (collect _ 0 s.samples) _ = _
  rw [collect_eq_refused_of_not_finite (fun i hi => blcSample_eq_finite (hread i hi)) h, andThen_refused]

/-- The element at row `r` and column `c`. -/
theorem blcFormula_position {s : State} {r c : Nat} (hc : c < s.W) {x : Val} (hx : s.raw.read (r * s.W + c) = some x) :
    blcFormula s (r * s.W + c) = Val.sub x s.bl[cfaAt s.cfa r c] := by
  simp only [blcFormula, hx, Option.bind_some, sampleIndex_div r hc, sampleIndex_mod r hc]

/-- Settles O38: BLC is a traversal that forms the differences of R100. -/
theorem blcSubtractsTheBias : Obligations.BlcSubtractsTheBias := by
  intro s hf hp hb
  refine ⟨fun h => ?_, fun hread ⟨r, c, x, hr, hc, hx, hnone⟩ => ?_⟩
  · obtain ⟨g, hg, hl, hi⟩ := execBlc_completes hf hp hb fun i hin => by
      obtain ⟨x, d, hx, hd⟩ := h i hin
      simp only [blcFormula, hx, Option.bind_some, hd, Option.isSome_some]
    refine ⟨g, hg, hl, fun r c hr hc => ?_⟩
    have hin : r * s.W + c < s.samples := sampleIndex_lt hr hc
    obtain ⟨x, d, hx, -⟩ := h _ hin
    exact ⟨x, hx, by rw [hi _ hin, blcFormula_position hc hx]⟩
  · exact execBlc_not_finite hf hp hb hread ⟨_, sampleIndex_lt hr hc, by rw [blcFormula_position hc hx, hnone]⟩

end Sys2Proof.Machine

end

/-! ## Images, and DEM (O42)

The positions of an image of the frame, the traversals of one, and the sum of R114: the model's fold over the taps of a
kernel is the sum that the spec writes out, since no index outside the grid is formed. -/

section

namespace Sys2Proof.Machine

open Sys2Proof.Safety

/-! ### Positions of an image -/

theorem imageIndex_div (W r c : Nat) (ch : Fin 3) : imageIndex W r c ch / 3 = r * W + c := by
  unfold imageIndex
  omega

theorem imageIndex_channel (W r c : Nat) (ch : Fin 3) : Fin.ofNat 3 (imageIndex W r c ch) = ch := by
  ext
  simp only [Fin.ofNat, imageIndex]
  omega

theorem imageIndex_lt {H W r c : Nat} (ch : Fin 3) (hr : r < H) (hc : c < W) : imageIndex W r c ch < H * W * 3 := by
  have := sampleIndex_lt hr hc
  unfold imageIndex
  omega

/-- Every element of an image of the frame stands at a row, a column and a channel. -/
theorem imageIndex_of_lt {H W j : Nat} (hj : j < H * W * 3) :
    j / 3 / W < H ∧ j / 3 % W < W ∧ imageIndex W (j / 3 / W) (j / 3 % W) (Fin.ofNat 3 j) = j := by
  obtain ⟨hr, hc, hi⟩ := position_of_lt (show j / 3 < H * W by omega)
  refine ⟨hr, hc, ?_⟩
  unfold imageIndex
  rw [hi]
  exact Nat.div_add_mod' j 3

section ImageTraversals

variable {f : Nat → Host.Outcome Val Fault Refusal} {F : Nat → Nat → Fin 3 → Option Val} {H W : Nat}

/-- A traversal of an image that forms finite numbers answers, at each position and channel, the number formed there. -/
theorem collect_image_completes
    (hf : ∀ (r c : Nat) (ch : Fin 3), r < H → c < W → f (imageIndex W r c ch) = finite (F r c ch))
    (h : ∀ (r c : Nat) (ch : Fin 3), r < H → c < W → (F r c ch).isSome = true) :
    ∃ g, collect f 0 (H * W * 3) = .next g ∧ g.length = H * W * 3
      ∧ ∀ (r c : Nat) (ch : Fin 3), r < H → c < W → g[imageIndex W r c ch]? = F r c ch := by
  obtain ⟨g, hg, hl, hi⟩ := collect_eq_next_of_finite (f := f)
    (F := fun j => F (j / 3 / W) (j / 3 % W) (Fin.ofNat 3 j)) (n := H * W * 3)
    (fun j hj => by
      obtain ⟨hr, hc, hj⟩ := imageIndex_of_lt hj
      rw [← hf _ _ _ hr hc, hj])
    fun j hj => by
      obtain ⟨hr, hc, -⟩ := imageIndex_of_lt hj
      exact h _ _ _ hr hc
  refine ⟨g, hg, hl, fun r c ch hr hc => ?_⟩
  rw [hi _ (imageIndex_lt ch hr hc), imageIndex_div, imageIndex_channel, sampleIndex_div r hc, sampleIndex_mod r hc]

/-- A traversal of an image that forms a number which is not finite is refused. -/
theorem collect_image_not_finite
    (hf : ∀ (r c : Nat) (ch : Fin 3), r < H → c < W → f (imageIndex W r c ch) = finite (F r c ch))
    (h : ∃ (r c : Nat) (ch : Fin 3), r < H ∧ c < W ∧ F r c ch = none) :
    collect f 0 (H * W * 3) = .refused .notFinite := by
  obtain ⟨r, c, ch, hr, hc, hnone⟩ := h
  refine collect_eq_refused_of_not_finite (F := fun j => F (j / 3 / W) (j / 3 % W) (Fin.ofNat 3 j)) (fun j hj => ?_)
    ⟨imageIndex W r c ch, imageIndex_lt ch hr hc, ?_⟩
  · obtain ⟨hr, hc, hj⟩ := imageIndex_of_lt hj
    rw [← hf _ _ _ hr hc, hj]
  · rw [imageIndex_div, imageIndex_channel, sampleIndex_div r hc, sampleIndex_mod r hc, hnone]

end ImageTraversals

/-! ### The planes -/

/-- R112: no index outside the grid is formed. -/
theorem refl_lt {n : Nat} (i : Int) (hn : 1 ≤ n) : refl i n < n := by
  unfold refl
  split
  · omega
  · next h1 =>
    have h0 := Int.emod_nonneg i (b := 2 * ((n : Int) - 1)) (by omega)
    have hlt := Int.emod_lt_of_pos i (b := 2 * ((n : Int) - 1)) (by omega)
    dsimp only
    split <;> omega

/-- On a grid that holds all its elements a plane has a value at every position. -/
theorem plane_eq_next {cfa : BitVec 8} {H W : Nat} {art : List Val} (hart : art.length = H * W) (ch : Fin 3) {r c : Nat}
    (hr : r < H) (hc : c < W) : plane Num.binary64 cfa W art ch r c = .next (planeValue cfa W art ch r c) := by
  unfold plane planeValue
  split
  · have hlt : r * W + c < art.length := hart ▸ sampleIndex_lt hr hc
    rw [artRead_of_lt hlt, List.getD_eq_getElem _ _ hlt]
  · rfl

/-! ### The sum -/

section

variable {s : State}

/-- The product of R114 that the model forms at the tap `t` of a kernel. -/
def tapProduct (s : State) (ch : Fin 3) (r c : Nat) (t : Fin 3 × Fin 3) : Option Val :=
  product s ch r c ((kernel ch)[t.1][t.2].value Num.binary64) ((t.1.val : Int) - 1) ((t.2.val : Int) - 1)

theorem demTap_eq_finite (hart : s.artBlc.length = s.samples) (ch : Fin 3) {r c : Nat} (hr : r < s.H) (hc : c < s.W)
    (t : Fin 3 × Fin 3) : demTap Num.binary64 s.cfa s.H s.W s.artBlc ch r c t = finite (tapProduct s ch r c t) := by
  unfold demTap tapProduct product
  rw [add_sub_assoc, add_sub_assoc, plane_eq_next hart ch (refl_lt _ (by omega)) (refl_lt _ (by omega)), andThen_next]
  rfl

/-- The fold over the taps is the sum from the left. -/
theorem andThen_addTaps {tap : Fin 3 × Fin 3 → Host.Outcome Val Fault Refusal} {T : Fin 3 × Fin 3 → Option Val}
    (h : ∀ t, tap t = finite (T t)) (acc : Option Val) (ts : List (Fin 3 × Fin 3)) :
    (andThen (finite acc) fun x => addTaps Num.binary64 tap x ts) = finite (leftSum acc (ts.map T)) := by
  induction ts generalizing acc with
  | nil => cases acc <;> rfl
  | cons t ts ih =>
    rw [List.map_cons, leftSum, ← ih]
    cases acc with
    | none => rfl
    | some x =>
      simp only [finite_some, andThen_next, addTaps, h, Option.bind_some, finite_bind]
      cases T t <;> rfl

/-- The model's element is the sum from the left of the products at the kernel's taps. -/
theorem demElement_of_taps (hart : s.artBlc.length = s.samples) {ch : Fin 3} {r c : Nat} (hr : r < s.H) (hc : c < s.W)
    {t : Fin 3 × Fin 3} {ts : List (Fin 3 × Fin 3)} (ht : taps ch = t :: ts) :
    demElement Num.binary64 s.cfa s.H s.W s.artBlc ch r c =
      finite (leftSum (tapProduct s ch r c t) (ts.map (tapProduct s ch r c))) := by
  have tap := demTap_eq_finite hart ch hr hc
  simp only [demElement, ht, tap t, andThen_addTaps tap]

theorem taps_green : taps 1 = [(0, 1), (1, 0), (1, 1), (1, 2), (2, 1)] := by decide

theorem taps_redBlue {ch : Fin 3} (h : ch ≠ 1) : taps ch = window := by
  revert ch
  decide

/-- The products at the taps are those that R114 writes out: five for green, nine for red and blue. -/
theorem demElement_eq_finite (hart : s.artBlc.length = s.samples) (ch : Fin 3) {r c : Nat} (hr : r < s.H)
    (hc : c < s.W) :
    demElement Num.binary64 s.cfa s.H s.W s.artBlc ch r c = finite (demFormula s ch r c) := by
  by_cases h : ch = 1
  · subst h
    rw [demElement_of_taps hart hr hc taps_green]
    rfl
  · rw [demElement_of_taps hart hr hc (taps_redBlue h), demFormula, if_neg h]
    have hk : kernel ch = kernelRedBlue := if_neg h
    simp only [List.map_cons, List.map_nil, tapProduct, hk]
    rfl

/-! ### DEM -/

/-- Iteration `j` of DEM. -/
def demIteration (s : State) (j : Nat) : Host.Outcome Val Fault Refusal :=
  demElement Num.binary64 s.cfa s.H s.W s.artBlc (Fin.ofNat 3 j) (j / 3 / s.W) (j / 3 % s.W)

theorem demImage_eq_collect (s : State) :
    demImage Num.binary64 s.cfa s.H s.W s.artBlc = collect (demIteration s) 0 (s.H * s.W * 3) := rfl

theorem demIteration_eq_finite (hart : s.artBlc.length = s.samples) (r c : Nat) (ch : Fin 3) (hr : r < s.H)
    (hc : c < s.W) : demIteration s (imageIndex s.W r c ch) = finite (demFormula s ch r c) := by
  rw [demIteration, imageIndex_div, imageIndex_channel, sampleIndex_div r hc, sampleIndex_mod r hc,
    demElement_eq_finite hart ch hr hc]

/-- With the registers it reads supplied, DEM is its traversal of the image. -/
theorem execDem_of_supplied (hf : FrameSupplied s) (hp : PatternSupplied s) :
    exec .dem s =
      andThen (demImage Num.binary64 s.cfa s.H s.W s.artBlc) fun g => .next (toStage 4 { s with artDem := g }) := by
  refine withOperands_of_values ?_ _
  simp only [registersRead, List.forall_mem_cons, List.not_mem_nil, false_implies, implies_true, and_true]
  exact ⟨hf.1, hf.2, hp⟩

/-- DEM completes with the sums of R114 where all of them are finite. -/
theorem execDem_completes (hf : FrameSupplied s) (hp : PatternSupplied s) (hart : s.artBlc.length = s.samples)
    (h : ∀ (r c : Nat) (ch : Fin 3), r < s.H → c < s.W → (demFormula s ch r c).isSome = true) :
    ∃ g, exec .dem s = .next (toStage 4 { s with artDem := g }) ∧ g.length = s.elements
      ∧ ∀ (r c : Nat) (ch : Fin 3), r < s.H → c < s.W → g[imageIndex s.W r c ch]? = demFormula s ch r c := by
  obtain ⟨g, hg, hl, hi⟩ := collect_image_completes (demIteration_eq_finite hart) h
  exact ⟨g, by rw [execDem_of_supplied hf hp, demImage_eq_collect, hg, andThen_next], hl, hi⟩

theorem execDem_not_finite (hf : FrameSupplied s) (hp : PatternSupplied s) (hart : s.artBlc.length = s.samples)
    (h : ∃ (r c : Nat) (ch : Fin 3), r < s.H ∧ c < s.W ∧ demFormula s ch r c = none) :
    exec .dem s = .refused .notFinite := by
  rw [execDem_of_supplied hf hp, demImage_eq_collect, collect_image_not_finite (demIteration_eq_finite hart) h,
    andThen_refused]

end

/-- Settles O42: DEM is a traversal that forms the sums of R114. -/
theorem demSumsTheWindow : Obligations.DemSumsTheWindow := fun _ hf hp hart =>
  ⟨execDem_completes hf hp hart, execDem_not_finite hf hp hart⟩

end Sys2Proof.Machine

end

/-! ## WBS and CCT (O48, O50)

Both are traversals of an image. The gains are formed first and are finite whatever the registers hold, so only the
products with the elements can refuse WBS. -/

section

namespace Sys2Proof.Machine

open Sys2Proof.Safety

section

variable {s : State}

/-! ### WBS -/

/-- The gains of R130 are finite, whatever the registers hold. -/
theorem gains_eq_next (wb : Vector (BitVec 32) 3) :
    ∃ g : Vector Val 3, gains Num.binary64 wb = .next g
      ∧ ∀ ch : Fin 3, Val.div (Val.ofInt wb[ch]) (Val.ofInt 1024) = some g[ch] := by
  obtain ⟨g0, h0, -⟩ := Val.div_ofInt_1024 (Val.ofInt wb[0])
  obtain ⟨g1, h1, -⟩ := Val.div_ofInt_1024 (Val.ofInt wb[1])
  obtain ⟨g2, h2, -⟩ := Val.div_ofInt_1024 (Val.ofInt wb[2])
  refine ⟨#v[g0, g1, g2], ?_, fun ch => ?_⟩
  · simp only [gains, Num.binary64, Config.scale, h0, h1, h2, finite_some, andThen_next]
  · fin_cases ch
    · exact h0
    · exact h1
    · exact h2

/-- The element of `art.WBS` at a position, where `art.DEM` holds one there. -/
def wbsAt (s : State) (r c : Nat) (ch : Fin 3) : Option Val :=
  s.artDem[imageIndex s.W r c ch]?.bind (wbsFormula s ch)

theorem wbsAt_of_getElem {r c : Nat} {ch : Fin 3} {x : Val} (hx : s.artDem[imageIndex s.W r c ch]? = some x) :
    wbsAt s r c ch = wbsFormula s ch x := by
  rw [wbsAt, hx, Option.bind_some]

theorem wbsElement_eq_finite {g : Vector Val 3}
    (hg : ∀ ch : Fin 3, Val.div (Val.ofInt s.wb[ch]) (Val.ofInt 1024) = some g[ch])
    (hart : s.artDem.length = s.elements) (r c : Nat) (ch : Fin 3) (hr : r < s.H) (hc : c < s.W) :
    wbsElement Num.binary64 g s.artDem (imageIndex s.W r c ch) = finite (wbsAt s r c ch) := by
  have hlt : imageIndex s.W r c ch < s.artDem.length := hart ▸ imageIndex_lt ch hr hc
  unfold wbsElement wbsAt wbsFormula
  rw [artRead_of_lt hlt, andThen_next, List.getElem?_eq_getElem hlt, Option.bind_some, hg, Option.bind_some]
  simp only [imageIndex_channel]
  rfl

/-- With the registers it reads supplied, WBS is its traversal of the image. -/
theorem execWbs_of_supplied (hf : FrameSupplied s) (hw : GainsSupplied s) :
    exec .wbs s =
      andThen (wbsImage Num.binary64 s.wb s.H s.W s.artDem) fun g => .next (toStage 5 { s with artWbs := g }) := by
  refine withOperands_of_values ?_ _
  simp only [registersRead, List.forall_mem_cons, List.not_mem_nil, false_implies, implies_true, and_true]
  exact ⟨hf.1, hf.2, hw 0, hw 1, hw 2⟩

/-- WBS completes with the products of R130 where all of them are finite. -/
theorem execWbs_completes (hf : FrameSupplied s) (hw : GainsSupplied s) (hart : s.artDem.length = s.elements)
    (h : ∀ (r c : Nat) (ch : Fin 3), r < s.H → c < s.W → (wbsAt s r c ch).isSome = true) :
    ∃ g, exec .wbs s = .next (toStage 5 { s with artWbs := g }) ∧ g.length = s.elements
      ∧ ∀ (r c : Nat) (ch : Fin 3), r < s.H → c < s.W → g[imageIndex s.W r c ch]? = wbsAt s r c ch := by
  obtain ⟨gain, hgain, hg⟩ := gains_eq_next s.wb
  obtain ⟨g, himg, hl, hi⟩ := collect_image_completes (wbsElement_eq_finite hg hart) h
  exact ⟨g, by rw [execWbs_of_supplied hf hw, wbsImage, hgain, andThen_next, himg, andThen_next], hl, hi⟩

theorem execWbs_not_finite (hf : FrameSupplied s) (hw : GainsSupplied s) (hart : s.artDem.length = s.elements)
    (h : ∃ (r c : Nat) (ch : Fin 3), r < s.H ∧ c < s.W ∧ wbsAt s r c ch = none) :
    exec .wbs s = .refused .notFinite := by
  obtain ⟨gain, hgain, hg⟩ := gains_eq_next s.wb
  rw [execWbs_of_supplied hf hw, wbsImage, hgain, andThen_next,
    collect_image_not_finite (wbsElement_eq_finite hg hart) h, andThen_refused]

/-! ### CCT -/

/-- The model's sum is the formula of R140. -/
theorem cctDot_eq_finite (s : State) (ch : Fin 3) (x0 x1 x2 : Val) :
    cctDot Num.binary64 (matrixEntry Num.binary64 s.ccm ch 0) (matrixEntry Num.binary64 s.ccm ch 1)
        (matrixEntry Num.binary64 s.ccm ch 2) x0 x1 x2 =
      finite (cctFormula s ch x0 x1 x2) := by
  simp only [cctDot, cctFormula, finite_bind]
  rfl

/-- The element of `art.CCT` at a position, where `art.WBS` holds the pixel. -/
def cctAt (s : State) (r c : Nat) (ch : Fin 3) : Option Val :=
  s.artWbs[imageIndex s.W r c 0]?.bind fun x0 => s.artWbs[imageIndex s.W r c 1]?.bind fun x1 =>
    s.artWbs[imageIndex s.W r c 2]?.bind fun x2 => cctFormula s ch x0 x1 x2

theorem cctAt_of_pixel {r c : Nat} {ch : Fin 3} {x0 x1 x2 : Val} (h0 : s.artWbs[imageIndex s.W r c 0]? = some x0)
    (h1 : s.artWbs[imageIndex s.W r c 1]? = some x1) (h2 : s.artWbs[imageIndex s.W r c 2]? = some x2) :
    cctAt s r c ch = cctFormula s ch x0 x1 x2 := by
  simp only [cctAt, h0, h1, h2, Option.bind_some]

/-- An image that holds all its elements has three at every position. -/
theorem exists_pixel {art : List Val} {H W : Nat} (hart : art.length = H * W * 3) {r c : Nat} (hr : r < H)
    (hc : c < W) : ∃ x0 x1 x2, art[imageIndex W r c 0]? = some x0 ∧ art[imageIndex W r c 1]? = some x1
      ∧ art[imageIndex W r c 2]? = some x2 :=
  have at_ (ch : Fin 3) := List.getElem?_eq_getElem (hart ▸ imageIndex_lt ch hr hc : imageIndex W r c ch < art.length)
  ⟨_, _, _, at_ 0, at_ 1, at_ 2⟩

theorem cctElement_eq_finite (hart : s.artWbs.length = s.elements) (r c : Nat) (ch : Fin 3) (hr : r < s.H)
    (hc : c < s.W) :
    cctElement Num.binary64 s.ccm s.artWbs (imageIndex s.W r c ch) = finite (cctAt s r c ch) := by
  obtain ⟨x0, x1, x2, h0, h1, h2⟩ := exists_pixel hart hr hc
  rw [cctAt_of_pixel h0 h1 h2]
  change s.artWbs[(r * s.W + c) * 3]? = some x0 at h0
  change s.artWbs[(r * s.W + c) * 3 + 1]? = some x1 at h1
  change s.artWbs[(r * s.W + c) * 3 + 2]? = some x2 at h2
  unfold cctElement
  rw [imageIndex_div, artRead_eq_next.2 h0, andThen_next, artRead_eq_next.2 h1, andThen_next, artRead_eq_next.2 h2,
    andThen_next, imageIndex_channel, cctDot_eq_finite]

/-- With the registers it reads supplied, CCT is its traversal of the image. -/
theorem execCct_of_supplied (hf : FrameSupplied s) :
    exec .cct s =
      andThen (cctImage Num.binary64 s.ccm s.H s.W s.artWbs) fun g => .next (toStage 6 { s with artCct := g }) := by
  refine withOperands_of_values (fun r hr => ?_) _
  simp only [registersRead, List.mem_append, List.mem_cons, List.not_mem_nil, or_false, List.mem_map] at hr
  obtain (rfl | rfl) | ⟨n, -, rfl⟩ := hr
  · exact hf.1
  · exact hf.2
  · rfl

/-- CCT completes with the numbers of R140 where all of them are finite. -/
theorem execCct_completes (hf : FrameSupplied s) (hart : s.artWbs.length = s.elements)
    (h : ∀ (r c : Nat) (ch : Fin 3), r < s.H → c < s.W → (cctAt s r c ch).isSome = true) :
    ∃ g, exec .cct s = .next (toStage 6 { s with artCct := g }) ∧ g.length = s.elements
      ∧ ∀ (r c : Nat) (ch : Fin 3), r < s.H → c < s.W → g[imageIndex s.W r c ch]? = cctAt s r c ch := by
  obtain ⟨g, hg, hl, hi⟩ := collect_image_completes (cctElement_eq_finite hart) h
  exact ⟨g, by rw [execCct_of_supplied hf, cctImage, hg, andThen_next], hl, hi⟩

theorem execCct_not_finite (hf : FrameSupplied s) (hart : s.artWbs.length = s.elements)
    (h : ∃ (r c : Nat) (ch : Fin 3), r < s.H ∧ c < s.W ∧ cctAt s r c ch = none) :
    exec .cct s = .refused .notFinite := by
  rw [execCct_of_supplied hf, cctImage, collect_image_not_finite (cctElement_eq_finite hart) h, andThen_refused]

end

/-! ### The obligations -/

/-- Settles O48: with the gains formed, WBS is a traversal that forms the products of R130. -/
theorem wbsScalesEachChannel : Obligations.WbsScalesEachChannel := by
  intro s hf hw hart
  refine ⟨fun h => ?_, fun ⟨r, c, ch, x, hr, hc, hx, hnone⟩ => ?_⟩
  · obtain ⟨g, hg, hl, hi⟩ := execWbs_completes hf hw hart fun r c ch hr hc => by
      have hx := List.getElem?_eq_getElem (hart ▸ imageIndex_lt ch hr hc : imageIndex s.W r c ch < s.artDem.length)
      rw [wbsAt_of_getElem hx]
      exact h r c ch _ hr hc hx
    exact ⟨g, hg, hl, fun r c ch x hr hc hx => by rw [hi r c ch hr hc, wbsAt_of_getElem hx]⟩
  · exact execWbs_not_finite hf hw hart ⟨r, c, ch, hr, hc, by rw [wbsAt_of_getElem hx, hnone]⟩

/-- Settles O50: CCT is a traversal that forms the numbers of R140. -/
theorem cctMultipliesByTheMatrix : Obligations.CctMultipliesByTheMatrix := by
  intro s hf hart
  refine ⟨fun h => ?_, fun ⟨r, c, ch, x0, x1, x2, hr, hc, h0, h1, h2, hnone⟩ => ?_⟩
  · obtain ⟨g, hg, hl, hi⟩ := execCct_completes hf hart fun r c ch hr hc => by
      obtain ⟨x0, x1, x2, h0, h1, h2⟩ := exists_pixel hart hr hc
      rw [cctAt_of_pixel h0 h1 h2]
      exact h r c ch x0 x1 x2 hr hc h0 h1 h2
    exact ⟨g, hg, hl, fun r c ch x0 x1 x2 hr hc h0 h1 h2 => by rw [hi r c ch hr hc, cctAt_of_pixel h0 h1 h2]⟩
  · exact execCct_not_finite hf hart ⟨r, c, ch, hr, hc, by rw [cctAt_of_pixel h0 h1 h2, hnone]⟩

end Sys2Proof.Machine

end

/-! ## GAM (O55)

The clamped image, its greatest element, the quotients between zero and one and the gamma function: what GAM computes,
and range and order of its output. -/

section

namespace Sys2Proof

/-! ### Quotients keep the order -/

/-- Rounding keeps the order of magnitudes. -/
theorem roundMagnitude_mono {m n d : Nat} (hd : 0 < d) {v w : Val} (hv : v.units.natAbs = roundMagnitude m d)
    (hw : w.units.natAbs = roundMagnitude n d) (h : m ≤ n) : roundMagnitude m d ≤ roundMagnitude n d := by
  rcases Nat.eq_or_lt_of_le h with rfl | hlt
  · exact le_rfl
  · by_contra hgt
    -- each rounded magnitude is the nearer one to its own number, so they cannot stand in the wrong order
    have hm := sq_le_sq.2 (roundMagnitude_nearest m hd w)
    have hn := sq_le_sq.2 (roundMagnitude_nearest n hd v)
    rw [hw] at hm
    rw [hv] at hn
    have hgap := (Nat.mul_lt_mul_right hd).2 (not_le.1 hgt)
    zify at hgap hlt
    nlinarith [mul_pos (sub_pos.2 hgap) (sub_pos.2 hlt)]

/-- Quotients by one positive divisor keep the order of dividends that are not negative. -/
theorem Val.div_mono {x y m a b : Val} (hm : 0 < m.units) (hx : 0 ≤ x.units) (hxy : x.units ≤ y.units)
    (ha : Val.div x m = some a) (hb : Val.div y m = some b) : a.units ≤ b.units := by
  have hd : 0 < m.units.natAbs := Int.natAbs_pos.2 hm.ne'
  have hy := hx.trans hxy
  rw [Val.div_of_pos x hm] at ha
  rw [Val.div_of_pos y hm] at hb
  have hxy' : (x.units * (Val.unitsPerOne : Int)).natAbs ≤ (y.units * (Val.unitsPerOne : Int)).natAbs := by
    rw [Int.natAbs_mul, Int.natAbs_mul]
    exact Nat.mul_le_mul_right _ (by omega)
  obtain ⟨haabs, -⟩ := Val.natAbs_of_round hd ha
  obtain ⟨hbabs, -⟩ := Val.natAbs_of_round hd hb
  have ha0 := Val.round_nonneg hd (Val.mul_unitsPerOne_nonneg hx) ha
  have hb0 := Val.round_nonneg hd (Val.mul_unitsPerOne_nonneg hy) hb
  have := roundMagnitude_mono hd haabs hbabs hxy'
  omega

end Sys2Proof

namespace Sys2Proof.Machine

open Sys2Proof.Safety

/-! ### The clamped image and its greatest element -/

theorem clamp_eq_clamped (x : Val) : clamp Num.binary64 x = clamped x := by
  simp [clamp, clamped, Num.binary64, Val.lt]

theorem clamped_units (x : Val) : (clamped x).units = max 0 x.units := by
  unfold clamped
  split
  · rw [Val.zero_units, max_eq_left (by omega)]
  · rw [max_eq_right (by omega)]

theorem clamped_of_nonpos {x : Val} (h : x.units ≤ 0) : clamped x = Val.zero :=
  (Val.eq_zero_iff _).2 (by rw [clamped_units, max_eq_left h])

theorem clamped_of_pos {x : Val} (h : 0 < x.units) : clamped x = x := if_neg (by omega)

theorem clampImage_eq_next {H W : Nat} {art : List Val} (hart : art.length = H * W * 3) :
    clampImage Num.binary64 H W art = .next (art.map clamped) := by
  refine collect_eq_next.2 ⟨by rw [List.length_map, hart], fun i hi => ?_⟩
  rw [List.length_map] at hi
  rw [Nat.zero_add, artRead_of_lt hi, andThen_next, clamp_eq_clamped, List.getElem_map]

/-- One step of the fold of R151. -/
def greater (g x : Val) : Val := if Val.lt g x then x else g

theorem gmax_eq_foldl (z : List Val) : gmax Num.binary64 z = z.foldl greater Val.zero := rfl

theorem greater_units (g x : Val) : (greater g x).units = max g.units x.units := by
  simp only [greater, Val.lt, decide_eq_true_eq, apply_ite Val.units]
  omega

theorem greater_eq_or (g x : Val) : greater g x = g ∨ greater g x = x := by
  unfold greater
  split
  · exact .inr rfl
  · exact .inl rfl

/-- The fold is an upper bound of its start and of the list. -/
theorem le_foldl_greater (z : List Val) (a : Val) : ∀ x ∈ a :: z, x.units ≤ (z.foldl greater a).units := by
  induction z generalizing a with
  | nil => simp
  | cons y z ih =>
    have hstep := ih (greater a y) _ List.mem_cons_self
    rw [greater_units] at hstep
    intro x hx
    rw [List.foldl_cons]
    obtain rfl | hx := List.mem_cons.1 hx
    · omega
    · obtain rfl | hx := List.mem_cons.1 hx
      · omega
      · exact ih _ x (List.mem_cons_of_mem _ hx)

/-- The fold is its start or an element of the list. -/
theorem foldl_greater_mem (z : List Val) (a : Val) : z.foldl greater a ∈ a :: z := by
  induction z generalizing a with
  | nil => simp
  | cons y z ih =>
    have := ih (greater a y)
    rw [List.foldl_cons]
    simp only [List.mem_cons] at this ⊢
    rcases this with h | h
    · rw [h]
      rcases greater_eq_or a y with h | h <;> simp [h]
    · exact .inr (.inr h)

/-- Without a positive element the greatest clamped element is zero. -/
theorem gmax_of_no_positive {art : List Val} (h : ∀ v ∈ art, v.units ≤ 0) :
    gmax Num.binary64 (art.map clamped) = Val.zero := by
  rcases List.mem_cons.1 (foldl_greater_mem (art.map clamped) Val.zero) with hm | hm
  · exact hm
  · obtain ⟨v, hv, he⟩ := List.mem_map.1 hm
    rw [gmax_eq_foldl, ← he, clamped_of_nonpos (h v hv)]

/-- With a positive element the greatest clamped element is the greatest element of the image, and positive. -/
theorem gmax_of_positive {art : List Val} (h : ∃ v ∈ art, 0 < v.units) :
    0 < (gmax Num.binary64 (art.map clamped)).units ∧ gmax Num.binary64 (art.map clamped) ∈ art
    ∧ ∀ v ∈ art, v.units ≤ (gmax Num.binary64 (art.map clamped)).units := by
  have bound : ∀ v ∈ art, v.units ≤ (gmax Num.binary64 (art.map clamped)).units := fun v hv => by
    have := le_foldl_greater (art.map clamped) Val.zero _ (List.mem_cons_of_mem _ (List.mem_map_of_mem hv))
    rw [clamped_units] at this
    exact (le_max_right _ _).trans this
  obtain ⟨v, hv, hpos⟩ := h
  have hm : 0 < (gmax Num.binary64 (art.map clamped)).units := hpos.trans_le (bound v hv)
  refine ⟨hm, ?_, bound⟩
  rcases List.mem_cons.1 (foldl_greater_mem (art.map clamped) Val.zero) with h0 | h0
  · rw [gmax_eq_foldl, h0, Val.zero_units] at hm
    omega
  · obtain ⟨w, hw, he⟩ := List.mem_map.1 h0
    rw [gmax_eq_foldl, ← he] at hm ⊢
    have hw0 : 0 < w.units := by
      rw [clamped_units] at hm
      omega
    rwa [clamped_of_pos hw0]

/-! ### What GAM computes -/

/-- Steps 2 and 3 of GAM complete where every quotient is finite. -/
theorem encodeImage_completes {V : Type} {N : Num V} {g : V} {z : List V} (h : ∀ x ∈ z, ∃ q, N.div x g = some q) :
    ∃ px, encodeImage N g z = .next px := by
  induction z with
  | nil => exact ⟨[], rfl⟩
  | cons x z ih =>
    obtain ⟨q, hq⟩ := h x List.mem_cons_self
    obtain ⟨px, hpx⟩ := ih fun y hy => h y (List.mem_cons_of_mem _ hy)
    exact ⟨N.gpow q :: px, by rw [encodeImage, hq, finite_some, andThen_next, hpx, andThen_next]⟩

/-- Without a positive element GAM forms no image. -/
theorem gamImage_of_no_positive {H W : Nat} {art : List Val} (hart : art.length = H * W * 3)
    (h : ∀ v ∈ art, v.units ≤ 0) : gamImage Num.binary64 H W art = .next (Val.zero, none) := by
  unfold gamImage
  simp only [clampImage_eq_next hart, andThen_next, gmax_of_no_positive h]
  exact if_pos (decide_eq_true rfl)

/-- With a positive element GAM forms `gpow` of each clamped element over the greatest element. -/
theorem gamImage_of_positive {H W : Nat} {art : List Val} (hart : art.length = H * W * 3)
    (h : ∃ v ∈ art, 0 < v.units) :
    ∃ (m : Val) (px : List Val), gamImage Num.binary64 H W art = .next (m, some px) ∧ 0 < m.units ∧ m ∈ art
      ∧ (∀ v ∈ art, v.units ≤ m.units) ∧ px.length = H * W * 3
      ∧ ∀ (j : Nat) (x : Val), art[j]? = some x →
        ∃ q, Val.div (clamped x) m = some q ∧ px[j]? = some (Config.gpow q) := by
  obtain ⟨hpos, hmem, hmax⟩ := gmax_of_positive h
  have hgam : gamImage Num.binary64 H W art =
      andThen (encodeImage Num.binary64 (gmax Num.binary64 (art.map clamped)) (art.map clamped)) fun px =>
        .next (gmax Num.binary64 (art.map clamped), some px) := by
    unfold gamImage
    simp only [clampImage_eq_next hart, andThen_next]
    refine if_neg ?_
    change ¬ decide (gmax Num.binary64 (art.map clamped) = Val.zero) = true
    rw [decide_eq_true_eq, Val.eq_zero_iff]
    omega
  generalize gmax Num.binary64 (art.map clamped) = m at *
  have quotient : ∀ x ∈ art.map clamped, ∃ q, Num.binary64.div x m = some q := fun x hx => by
    obtain ⟨v, hv, rfl⟩ := List.mem_map.1 hx
    have hle := hmax v hv
    obtain ⟨q, hq, -⟩ := Val.div_mem_unitInterval (x := clamped v) hpos (by rw [clamped_units]; omega)
      (by rw [clamped_units]; omega)
    exact ⟨q, hq⟩
  obtain ⟨px, hpx⟩ := encodeImage_completes quotient
  obtain ⟨hlen, helem⟩ := encodeImage_eq_next.1 hpx
  rw [List.length_map] at hlen
  refine ⟨m, px, by rw [hgam, hpx, andThen_next], hpos, hmem, hmax, hlen.trans hart, fun j x hx => ?_⟩
  obtain ⟨hj, rfl⟩ := List.getElem?_eq_some_iff.1 hx
  obtain ⟨q, hq, hq'⟩ := helem j (by rwa [List.length_map])
  rw [List.getElem_map] at hq
  exact ⟨q, hq, hq'⟩

/-- With the registers it reads supplied, GAM does what its evaluation says. -/
theorem execGam_of_supplied {s : State} (hf : FrameSupplied s) :
    exec .gam s =
      andThen (gamImage Num.binary64 s.H s.W s.artCct) fun r =>
        match r.2 with
        | none => .next (raiseError .allZeroImage 6 { s with gmax := r.1 })
        | some px => .next (complete { s with gmax := r.1, out := s.out.writeAll 0 px }) := by
  refine (withOperands_of_values ?_ _).trans rfl
  simp only [registersRead, List.forall_mem_cons, List.not_mem_nil, false_implies, implies_true, and_true]
  exact hf

theorem frameSupplied_of_execGam {s t : State} (h : exec .gam s = .next t) : FrameSupplied s := by
  obtain ⟨hr, -⟩ := withOperands_eq_next.1 h
  exact ⟨hr _ List.mem_cons_self, hr _ (List.mem_cons_of_mem _ List.mem_cons_self)⟩

theorem execGam_of_no_positive {s : State} (hf : FrameSupplied s) (hart : s.artCct.length = s.elements)
    (h : ∀ v ∈ s.artCct, v.units ≤ 0) :
    exec .gam s = .next (raiseError .allZeroImage 6 { s with gmax := Val.zero }) := by
  rw [execGam_of_supplied hf, gamImage_of_no_positive hart h, andThen_next]

/-- GAM on an image with a positive element. -/
theorem execGam_of_positive {s : State} (hf : FrameSupplied s) (hart : s.artCct.length = s.elements)
    (h : ∃ v ∈ s.artCct, 0 < v.units) :
    ∃ (m : Val) (px : List Val), exec .gam s = .next (complete { s with gmax := m, out := s.out.writeAll 0 px })
      ∧ 0 < m.units ∧ m ∈ s.artCct ∧ (∀ v ∈ s.artCct, v.units ≤ m.units) ∧ px.length = s.elements
      ∧ ∀ (j : Nat) (x : Val), s.artCct[j]? = some x →
        ∃ q, Val.div (clamped x) m = some q ∧ px[j]? = some (Config.gpow q) := by
  obtain ⟨m, px, hgam, hrest⟩ := gamImage_of_positive hart h
  exact ⟨m, px, by rw [execGam_of_supplied hf, hgam, andThen_next], hrest⟩

/-- An OUT element of the frame after a successful GAM is the element of the image that GAM formed. -/
theorem read_writeAll_of_lt {out : Memory} (hout : out.wf) {px : List Val} {n j : Nat} (hlen : px.length = n)
    (hj : j < n) : (out.writeAll 0 px).read j = px[j]? := by
  rw [Memory.read_writeAll out 0 j px hout, if_pos (by omega), Nat.sub_zero]

/-- After a successful GAM each OUT element of the frame is `gpow` of a quotient between zero and one (P5). -/
theorem execGam_output {s t : State} (hart : s.artCct.length = s.elements) (hpos : ∃ v ∈ s.artCct, 0 < v.units)
    (hout : s.out.wf) (hexec : exec .gam s = .next t) :
    ∃ m : Val, 0 < m.units ∧ m ∈ s.artCct ∧ ∀ (j : Nat) (x : Val), s.artCct[j]? = some x →
      ∃ q, Val.div (clamped x) m = some q ∧ 0 ≤ q.units ∧ q.units ≤ Val.one.units
        ∧ t.out.read j = some (Config.gpow q) := by
  obtain ⟨m, px, hgam, hm, hmem, hmax, hlen, helem⟩ :=
    execGam_of_positive (frameSupplied_of_execGam hexec) hart hpos
  have ht : t.out = s.out.writeAll 0 px := by
    rw [hgam, Host.Outcome.next.injEq] at hexec
    rw [← hexec]
    rfl
  refine ⟨m, hm, hmem, fun j x hx => ?_⟩
  have hj : j < s.artCct.length := (List.getElem?_eq_some_iff.1 hx).1
  have hle := hmax x (List.mem_of_getElem? hx)
  obtain ⟨q, hq, hpx⟩ := helem j x hx
  obtain ⟨q', hq', h0, h1⟩ := Val.div_mem_unitInterval (x := clamped x) hm (by rw [clamped_units]; omega)
    (by rw [clamped_units]; omega)
  obtain rfl : q = q' := Option.some.inj (hq.symm.trans hq')
  exact ⟨q, hq, h0, h1, by rw [ht, read_writeAll_of_lt hout hlen (hart ▸ hj), hpx]⟩

/-- Settles O55: the quotients lie in [zero, one] and are ordered as the image is, and `gpow` keeps both (P6). -/
theorem gamOutputIsOrderedInTheUnitInterval : Obligations.GamOutputIsOrderedInTheUnitInterval := by
  intro s t hart hpos hout hexec
  obtain ⟨m, hm, hmem, output⟩ := execGam_output hart hpos hout hexec
  refine ⟨fun j hj => ?_, ?_, fun j x hx hnonpos => ?_, fun i j x y v w hx hy hxy hv hw => ?_⟩
  · obtain ⟨q, -, h0, h1, hread⟩ := output j _ (List.getElem?_eq_getElem (hart ▸ hj))
    exact ⟨_, hread, Config.gpow_mem_unitInterval h0 h1⟩
  · obtain ⟨j, hj, he⟩ := List.getElem_of_mem hmem
    obtain ⟨q, hq, -, -, hread⟩ := output j m (List.getElem?_eq_some_iff.2 ⟨hj, he⟩)
    have hself : Val.div m m = some Val.one := binary64_selfDivision m ((Val.eq_zero_iff m).not.2 hm.ne')
    rw [clamped_of_pos hm, hself, Option.some.injEq] at hq
    exact ⟨j, hart ▸ hj, by rw [hread, ← hq, Config.gpow_one]⟩
  · obtain ⟨q, hq, -, -, hread⟩ := output j x hx
    have hzero : Val.div Val.zero m = some Val.zero := Val.div_of_exact hm.ne' (by simp)
    rw [clamped_of_nonpos hnonpos, hzero, Option.some.injEq] at hq
    rw [hread, ← hq, Config.gpow_zero]
  · obtain ⟨a, ha, ha0, -, hreada⟩ := output i x hx
    obtain ⟨b, hb, -, hb1, hreadb⟩ := output j y hy
    have hab : a.units ≤ b.units :=
      Val.div_mono hm (by rw [clamped_units]; omega) (by rw [clamped_units, clamped_units]; omega) ha hb
    rw [hreada, Option.some.injEq] at hv
    rw [hreadb, Option.some.injEq] at hw
    rw [← hv, ← hw]
    exact Config.gpow_mono ha0 hab hb1

end Sys2Proof.Machine

end

/-! ## Bounded operands (O57)

The four operations on numbers of bounded magnitude, and so the five operations of the block on operands of magnitude up
to 2^980. -/

section

namespace Sys2Proof

/-! ### Magnitudes -/

/-- The magnitude of `v` is at most `2 ^ e`. -/
def Val.Within (e : Nat) (v : Val) : Prop := v.units.natAbs ≤ 2 ^ (Val.unitBits + e)

theorem Val.Within.mono {e k : Nat} {v : Val} (h : Val.Within e v) (hk : e ≤ k) : Val.Within k v :=
  h.trans (Nat.pow_le_pow_right (by norm_num) (by omega))

/-- Below 2^1024 the powers of two are `Val`s. -/
theorem Val.fits_two_pow {e : Nat} (he : e < 1024) : Val.Fits ((2 ^ (Val.unitBits + e) : Nat) : Int) := by
  unfold Val.Fits
  rw [Int.natAbs_natCast, bitLog_eq, Nat.log2_two_pow]
  refine ⟨Nat.pow_lt_pow_right (by norm_num) ?_, Nat.mod_eq_zero_of_dvd (Nat.pow_dvd_pow 2 (Nat.sub_le _ _))⟩
  rw [Val.unitBits, Val.magBits]
  omega

/-- A value of at most `2 ^ e` is rounded to a number of at most that magnitude. -/
theorem Val.round_within {n : Int} {d e : Nat} (hd : 0 < d) (he : e < 1024)
    (h : n.natAbs ≤ 2 ^ (Val.unitBits + e) * d) : ∃ z, Val.round n d = some z ∧ Val.Within e z := by
  obtain ⟨z, hz, hle⟩ := Val.round_completes (n := n) (v := ⟨_, Val.fits_two_pow he⟩) hd (by rwa [Int.natAbs_natCast])
  exact ⟨z, hz, by rwa [Int.natAbs_natCast] at hle⟩

variable {x y : Val} {a b e : Nat}

theorem Val.add_within (hx : Val.Within e x) (hy : Val.Within e y) (he : e + 1 < 1024) :
    ∃ z, Val.add x y = some z ∧ Val.Within (e + 1) z := by
  refine Val.round_within one_pos he ?_
  unfold Val.Within at hx hy
  rw [← Nat.add_assoc, pow_succ]
  omega

theorem Val.sub_within (hx : Val.Within e x) (hy : Val.Within e y) (he : e + 1 < 1024) :
    ∃ z, Val.sub x y = some z ∧ Val.Within (e + 1) z := by
  refine Val.round_within one_pos he ?_
  unfold Val.Within at hx hy
  rw [← Nat.add_assoc, pow_succ]
  omega

theorem Val.mul_within (hx : Val.Within a x) (hy : Val.Within b y) (he : a + b < 1024) :
    ∃ z, Val.mul x y = some z ∧ Val.Within (a + b) z := by
  refine Val.round_within Val.unitsPerOne_pos he ?_
  calc (x.units * y.units).natAbs = x.units.natAbs * y.units.natAbs := Int.natAbs_mul _ _
    _ ≤ 2 ^ (Val.unitBits + a) * 2 ^ (Val.unitBits + b) := Nat.mul_le_mul hx hy
    _ = 2 ^ (Val.unitBits + (a + b)) * Val.unitsPerOne := by rw [Val.unitsPerOne]; ring

theorem Val.div_ofInt_1024_within (hx : Val.Within e x) :
    ∃ q, Val.div x (Val.ofInt 1024) = some q ∧ Val.Within e q := by
  obtain ⟨q, hq, hle⟩ := Val.div_ofInt_1024 x
  exact ⟨q, hq, hle.trans hx⟩

theorem Val.ofInt_within (n : BitVec 32) : Val.Within 31 (Val.ofInt n) := by
  have hn : n.toInt.natAbs ≤ 2 ^ 31 := by
    have h1 := BitVec.le_toInt n
    have h2 := BitVec.toInt_lt (x := n)
    norm_num at h1 h2
    omega
  unfold Val.Within
  rw [Val.ofInt_units, Int.natAbs_mul, Int.natAbs_natCast, pow_add, Val.unitsPerOne, Nat.mul_comm]
  exact Nat.mul_le_mul_left _ hn

theorem Val.zero_within (e : Nat) : Val.Within e Val.zero := by simp [Val.Within]

/-- The weights of the kernels are at most one. -/
theorem Val.weights_within : Val.Within 0 Val.one ∧ Val.Within 0 Val.half ∧ Val.Within 0 Val.quarter := by
  have h1 := Val.one_units
  have h2 := Val.two_mul_half
  have h4 := Val.four_mul_quarter
  unfold Val.Within
  rw [Nat.add_zero, show 2 ^ Val.unitBits = Val.unitsPerOne from rfl]
  omega

end Sys2Proof

namespace Sys2Proof.Machine

open Sys2Proof.Safety

/-! ### BLC, DEM, WBS and CCT -/

/-- A term of a sum is finite and of at most `2 ^ e`. -/
def TermWithin (e : Nat) (o : Option Val) : Prop := ∃ v, o = some v ∧ Val.Within e v

/-- A sum of bounded terms is finite: each addition doubles the bound at most. -/
theorem leftSum_isSome {e k : Nat} {acc : Option Val} {ts : List (Option Val)} (hacc : TermWithin k acc)
    (hts : ∀ t ∈ ts, TermWithin e t) (hek : e ≤ k) (hk : k + ts.length < 1024) : (leftSum acc ts).isSome = true := by
  induction ts generalizing acc k with
  | nil =>
    obtain ⟨a, rfl, -⟩ := hacc
    rfl
  | cons t ts ih =>
    obtain ⟨a, rfl, ha⟩ := hacc
    obtain ⟨b, rfl, hb⟩ := hts t List.mem_cons_self
    rw [List.length_cons] at hk
    obtain ⟨z, hz, hzw⟩ := Val.add_within ha (hb.mono hek) (by omega)
    exact ih (k := k + 1) ⟨z, hz, hzw⟩ (fun u hu => hts u (List.mem_cons_of_mem _ hu)) (by omega) (by omega)

theorem getD_within {e : Nat} {art : List Val} (h : ∀ v ∈ art, Val.Within e v) (i : Nat) :
    Val.Within e (art.getD i Val.zero) := by
  rcases Nat.lt_or_ge i art.length with hi | hi
  · rw [List.getD_eq_getElem _ _ hi]
    exact h _ (List.getElem_mem hi)
  · rw [List.getD_eq_default _ _ hi]
    exact Val.zero_within e

section

variable {s : State}

theorem product_within (h : ∀ v ∈ s.artBlc, Val.Within 980 v) (ch : Fin 3) (r c : Nat) {w : Val} (hw : Val.Within 0 w)
    (dr dc : Int) : TermWithin 980 (product s ch r c w dr dc) := by
  have weighted {x : Val} (hx : Val.Within 980 x) : TermWithin 980 (Val.mul w x) :=
    Val.mul_within (a := 0) (b := 980) hw hx (by norm_num)
  unfold product planeValue
  split
  · exact weighted (getD_within h _)
  · exact weighted (Val.zero_within 980)

theorem demFormula_isSome (h : ∀ v ∈ s.artBlc, Val.Within 980 v) (r c : Nat) (ch : Fin 3) :
    (demFormula s ch r c).isSome = true := by
  obtain ⟨h1, h2, h4⟩ := Val.weights_within
  unfold demFormula greenSum redBlueSum
  split
  · refine leftSum_isSome (product_within h 1 r c h4 _ _) ?_ le_rfl (by norm_num)
    simp [product_within h, h1, h4]
  · refine leftSum_isSome (product_within h ch r c h4 _ _) ?_ le_rfl (by norm_num)
    simp [product_within h, h1, h2, h4]

theorem wbsFormula_isSome (s : State) (ch : Fin 3) {x : Val} (hx : Val.Within 980 x) :
    (wbsFormula s ch x).isSome = true := by
  obtain ⟨g, hg, hgw⟩ := Val.div_ofInt_1024_within (Val.ofInt_within s.wb[ch])
  obtain ⟨z, hz, -⟩ := Val.mul_within hx hgw (by norm_num)
  rw [wbsFormula, hg, Option.bind_some, hz, Option.isSome_some]

theorem cctFormula_isSome (s : State) (ch : Fin 3) {x0 x1 x2 : Val} (h0 : Val.Within 980 x0) (h1 : Val.Within 980 x1)
    (h2 : Val.Within 980 x2) : (cctFormula s ch x0 x1 x2).isSome = true := by
  have entry (n : BitVec 32) {x : Val} (hx : Val.Within 980 x) := Val.mul_within (Val.ofInt_within n) hx (by norm_num)
  obtain ⟨p0, e0, w0⟩ := entry (s.ccm[3 * ch.val + (0 : Fin 3).val]'(by omega)) h0
  obtain ⟨p1, e1, w1⟩ := entry (s.ccm[3 * ch.val + (1 : Fin 3).val]'(by omega)) h1
  obtain ⟨p2, e2, w2⟩ := entry (s.ccm[3 * ch.val + (2 : Fin 3).val]'(by omega)) h2
  obtain ⟨s1, es1, ws1⟩ := Val.add_within w0 w1 (by norm_num)
  obtain ⟨s2, es2, ws2⟩ := Val.add_within ws1 (w2.mono (by norm_num)) (by norm_num)
  obtain ⟨q, eq, -⟩ := Val.div_ofInt_1024_within ws2
  simp only [cctFormula, e0, e1, es1, e2, es2, eq, Option.bind_some, Option.isSome_some]

/-- An element of an image of bounded elements is there and bounded. -/
theorem getElem_within {art : List Val} {H W : Nat} (hart : art.length = H * W * 3)
    (h : ∀ v ∈ art, Val.Within 980 v) {r c : Nat} (hr : r < H) (hc : c < W) (ch : Fin 3) :
    TermWithin 980 art[imageIndex W r c ch]? := by
  have hlt : imageIndex W r c ch < art.length := hart ▸ imageIndex_lt ch hr hc
  exact ⟨_, List.getElem?_eq_getElem hlt, h _ (List.getElem_mem hlt)⟩

theorem execBlc_of_within (hf : FrameSupplied s) (hp : PatternSupplied s) (hb : BiasesSupplied s)
    (hraw : ∀ i, i < s.samples → TermWithin 980 (s.raw.read i)) (hbl : ∀ n : Fin 4, Val.Within 980 s.bl[n]) :
    ∃ t, exec .blc s = .next t ∧ t.status.stage = 3 := by
  obtain ⟨g, hg, -⟩ := execBlc_completes hf hp hb fun i hi => by
    obtain ⟨x, hx, hxw⟩ := hraw i hi
    obtain ⟨d, hd, -⟩ := Val.sub_within hxw (hbl (cfaAt s.cfa (i / s.W) (i % s.W))) (by norm_num)
    rw [blcFormula, hx, Option.bind_some, hd, Option.isSome_some]
  exact ⟨_, hg, rfl⟩

theorem execDem_of_within (hf : FrameSupplied s) (hp : PatternSupplied s) (hart : s.artBlc.length = s.samples)
    (h : ∀ v ∈ s.artBlc, Val.Within 980 v) : ∃ t, exec .dem s = .next t ∧ t.status.stage = 4 := by
  obtain ⟨g, hg, -⟩ := execDem_completes hf hp hart fun r c ch _ _ => demFormula_isSome h r c ch
  exact ⟨_, hg, rfl⟩

theorem execWbs_of_within (hf : FrameSupplied s) (hw : GainsSupplied s) (hart : s.artDem.length = s.elements)
    (h : ∀ v ∈ s.artDem, Val.Within 980 v) : ∃ t, exec .wbs s = .next t ∧ t.status.stage = 5 := by
  obtain ⟨g, hg, -⟩ := execWbs_completes hf hw hart fun r c ch hr hc => by
    obtain ⟨x, hx, hxw⟩ := getElem_within hart h hr hc ch
    rw [wbsAt_of_getElem hx]
    exact wbsFormula_isSome s ch hxw
  exact ⟨_, hg, rfl⟩

theorem execCct_of_within (hf : FrameSupplied s) (hart : s.artWbs.length = s.elements)
    (h : ∀ v ∈ s.artWbs, Val.Within 980 v) : ∃ t, exec .cct s = .next t ∧ t.status.stage = 6 := by
  obtain ⟨g, hg, -⟩ := execCct_completes hf hart fun r c ch hr hc => by
    obtain ⟨x0, h0, w0⟩ := getElem_within hart h hr hc 0
    obtain ⟨x1, h1, w1⟩ := getElem_within hart h hr hc 1
    obtain ⟨x2, h2, w2⟩ := getElem_within hart h hr hc 2
    rw [cctAt_of_pixel h0 h1 h2]
    exact cctFormula_isSome s ch w0 w1 w2
  exact ⟨_, hg, rfl⟩

/-- GAM ends at END on every image: with the image if an element is positive, with the error if none is. -/
theorem execGam_completes (hf : FrameSupplied s) (hart : s.artCct.length = s.elements) :
    ∃ t, exec .gam s = .next t ∧ t.status.stage = 7 := by
  by_cases hpos : ∃ v ∈ s.artCct, 0 < v.units
  · obtain ⟨m, px, hg, -⟩ := execGam_of_positive hf hart hpos
    exact ⟨_, hg, rfl⟩
  · exact ⟨_, execGam_of_no_positive hf hart (by simpa using hpos), rfl⟩

end

/-- Settles O57: sums and products of the bounded operands stay below 2^1024. -/
theorem operationsCompleteOnBoundedOperands : Obligations.OperationsCompleteOnBoundedOperands :=
  fun _ hf hp hb hw => ⟨execBlc_of_within hf hp hb, execDem_of_within hf hp, execWbs_of_within hf hw,
    execCct_of_within hf, execGam_completes hf⟩

end Sys2Proof.Machine

end

/-! ## What every step keeps (O11, O12, O14, O15)

A predicate of the block that the instructions, the stores of the host and reset keep is kept by every step. The
invariant is four such predicates, each with its own proof. -/

section

namespace Sys2Proof.Machine

open Sys2Proof.Safety

/-! ### The instructions a step can run -/

/-- A step can run `i` in `s`: it is a command, or the operation STAGE selects, while BUSY = 1 (R19, R83). -/
def Runs (i : Instr) (s : State) : Prop :=
  (i = decodeStage s.status.stage ∧ s.status.busy = true) ∨ i = .start ∨ i = .clear ∨ ∃ c, i = .reservedCmd c

theorem decodeStage_injective : Function.Injective decodeStage := by decide

theorem decodeStage_ne_command (g : BitVec 3) :
    decodeStage g ≠ .start ∧ decodeStage g ≠ .clear ∧ ∀ c, decodeStage g ≠ .reservedCmd c := by
  revert g
  decide

/-- An operation runs at its own stage only, while BUSY = 1. -/
theorem Runs.of_stage {i : Instr} {s : State} (h : Runs i s) (g : BitVec 3) (hg : decodeStage g = i) :
    s.status.stage = g ∧ s.status.busy = true := by
  subst hg
  obtain ⟨h1, h2, h3⟩ := decodeStage_ne_command g
  rcases h with ⟨h, hb⟩ | h | h | ⟨c, h⟩
  · exact ⟨(decodeStage_injective h).symm, hb⟩
  · exact absurd h h1
  · exact absurd h h2
  · exact absurd h (h3 c)

theorem exec_start_of_idle {s : State} (h : s.status.stage = 0) : exec .start s = .next (beginRun s) :=
  congrArg Host.Outcome.next (if_pos h)

theorem exec_clear_of_end {s : State} (h : s.status.stage = 7) : exec .clear s = .next (returnToIdle s) :=
  congrArg Host.Outcome.next (if_pos h)

/-- A predicate that the instructions, the stores of the host while BUSY = 0 and reset keep, and that does not speak of
the agenda, the reply and the draws, is kept by every step. -/
theorem step_keeps {P : State → Prop} (same : ∀ s t, SameBlock s t → P s → P t)
    (instr : ∀ i s t, Runs i s → exec i s = .next t → P s → P t)
    (register : ∀ (r : Reg) (d : Word) (s : State), s.status.busy = false → P s → P (r.store d s))
    (element : ∀ (i : BitVec 32) (v : Val) (s : State), s.status.busy = false → P s →
      P { s with raw := s.raw.write i.toNat v })
    (reset : ∀ s, P (applyReset s)) {s t : State} (hs : P s) (h : step s = .next t) : P t := by
  have rest (l : List Event) : P { s with agenda := l } := same s _ rfl hs
  rcases step_cases h with ⟨i, s', t', hss, hx, htt, hi⟩ | hst | ⟨hb, l, r, d, rfl⟩ | ⟨hb, l, i, v, rfl⟩ | ⟨l, -, rfl⟩
  · have hstatus : s'.status = s.status := by rw [hss]
    exact same t' t htt (instr i s' t' (by rwa [Runs, hstatus]) hx (same s s' hss hs))
  · exact same s t hst hs
  · exact register r d _ hb (rest l)
  · exact element i v { s with agenda := l } hb (rest l)
  · exact reset _

/-- A store to a register leaves STATUS, ERRINFO and both element spaces. -/
theorem Reg.store_status (r : Reg) (d : Word) (s : State) :
    (r.store d s).status = s.status ∧ (r.store d s).errinfo = s.errinfo ∧ (r.store d s).raw = s.raw
    ∧ (r.store d s).out = s.out := by
  rw [Reg.store_keeps]
  exact ⟨rfl, rfl, rfl, rfl⟩

/-! ### STATUS -/

theorem statusLegal_busy {t : Status} (h : StatusLegal t) (hb : t.busy = true) :
    1 ≤ t.stage.toNat ∧ t.stage.toNat ≤ 6 ∧ t.done = false ∧ t.err = false := by
  rcases h with ⟨-, hf, -⟩ | ⟨h1, h6, -, hd, he⟩ | ⟨-, hf, -⟩
  · simp [hb] at hf
  · exact ⟨h1, h6, hd, he⟩
  · simp [hb] at hf

theorem statusLegal_not_busy {t : Status} (h : StatusLegal t) (hb : t.busy = false) :
    t.stage = 0 ∨ t.stage = 7 ∧ t.done ≠ t.err := by
  rcases h with ⟨h0, -⟩ | ⟨-, -, ht, -⟩ | ⟨h7, -, hde⟩
  · exact .inl h0
  · simp [hb] at ht
  · exact .inr ⟨h7, hde⟩

/-- A run goes on at another stage. -/
theorem statusLegal_toStage {s : State} {g : BitVec 3} (h : StatusLegal s.status) (hb : s.status.busy = true)
    (hg : 1 ≤ g.toNat ∧ g.toNat ≤ 6) : StatusLegal (toStage g s).status := by
  obtain ⟨-, -, hd, he⟩ := statusLegal_busy h hb
  exact .inr (.inl ⟨hg.1, hg.2, hb, hd, he⟩)

theorem statusLegal_raiseError (e : ErrorKind) (g : BitVec 3) (s : State) : StatusLegal (raiseError e g s).status :=
  .inr (.inr ⟨rfl, rfl, by simp⟩)

/-- Every instruction a step runs keeps the legal combinations of R20. -/
theorem statusLegal_exec (i : Instr) (s t : State) (hi : Runs i s) (hx : exec i s = .next t)
    (h : StatusLegal s.status) : StatusLegal t.status := by
  have busy (g : BitVec 3) (hg : decodeStage g = i) : s.status.busy = true := (hi.of_stage g hg).2
  rcases exec_cases hx with rfl | ⟨-, -, rfl⟩ | ⟨-, h7, rfl⟩ | ⟨-, -, rfl⟩ | ⟨rfl, -, -, -, rfl⟩ | ⟨-, -, rfl⟩
    | ⟨rfl, g, -, rfl⟩ | ⟨rfl, g, -, rfl⟩ | ⟨rfl, g, -, rfl⟩ | ⟨rfl, g, -, rfl⟩ | ⟨-, m, rfl⟩ | ⟨rfl, m, px, -, rfl⟩
  case inl => exact h
  · exact .inr (.inl ⟨by simp, by simp, rfl, rfl, rfl⟩)
  · have hb : s.status.busy = false := by
      by_contra hb
      obtain ⟨-, h6, -⟩ := statusLegal_busy h (by simpa using hb)
      simp [h7] at h6
    exact .inl ⟨rfl, hb, rfl, rfl⟩
  · exact statusLegal_raiseError _ _ _
  · exact statusLegal_toStage h (busy 1 rfl) (by decide)
  · exact statusLegal_raiseError _ _ _
  · exact statusLegal_toStage h (busy 2 rfl) (by decide)
  · exact statusLegal_toStage h (busy 3 rfl) (by decide)
  · exact statusLegal_toStage h (busy 4 rfl) (by decide)
  · exact statusLegal_toStage h (busy 5 rfl) (by decide)
  · exact statusLegal_raiseError _ _ _
  · obtain ⟨-, -, -, he⟩ := statusLegal_busy h (busy 6 rfl)
    exact .inr (.inr ⟨rfl, rfl, by simp [he]⟩)

theorem statusLegal_reset (s : State) : StatusLegal (applyReset s).status := .inl ⟨rfl, rfl, rfl, rfl⟩

theorem statusLegal_step {s t : State} (h : StatusLegal s.status) (hst : step s = .next t) : StatusLegal t.status :=
  step_keeps (P := fun s => StatusLegal s.status) (fun s t h hs => by rw [h]; exact hs) statusLegal_exec
    (fun r d s _ hs => by rw [(Reg.store_status r d s).1]; exact hs) (fun _ _ _ _ hs => hs) statusLegal_reset h hst

/-! ### ERRINFO -/

/-- Every instruction keeps that ERRINFO records an error exactly while STATUS.ERR is 1. -/
theorem errinfoLegal_exec (i : Instr) (s t : State) (hx : exec i s = .next t) (h : ErrinfoLegal s) :
    ErrinfoLegal t := by
  rcases exec_cases hx with rfl | ⟨-, -, rfl⟩ | ⟨-, -, rfl⟩ | ⟨-, -, rfl⟩ | ⟨-, -, -, -, rfl⟩ | ⟨-, -, rfl⟩
    | ⟨-, g, -, rfl⟩ | ⟨-, g, -, rfl⟩ | ⟨-, g, -, rfl⟩ | ⟨-, g, -, rfl⟩ | ⟨-, m, rfl⟩ | ⟨-, m, px, -, rfl⟩
  any_goals exact h
  · exact .inl ⟨rfl, rfl⟩
  · exact .inl ⟨rfl, rfl⟩
  · exact .inr ⟨rfl, .inl rfl⟩
  · exact .inr ⟨rfl, .inr (.inl rfl)⟩
  · exact .inr ⟨rfl, .inr (.inr rfl)⟩

theorem errinfoLegal_reset (s : State) : ErrinfoLegal (applyReset s) := .inl ⟨rfl, rfl⟩

theorem errinfoLegal_step {s t : State} (h : ErrinfoLegal s) (hst : step s = .next t) : ErrinfoLegal t :=
  step_keeps (P := ErrinfoLegal) (fun s t h hs => by rw [h]; exact hs) (fun i s t _ => errinfoLegal_exec i s t)
    (fun r d s _ hs => by
      obtain ⟨hstatus, herrinfo, -⟩ := Reg.store_status r d s
      rwa [ErrinfoLegal, hstatus, herrinfo])
    (fun _ _ _ _ hs => hs) errinfoLegal_reset h hst

/-! ### The element spaces -/

/-- An image of the frame fits the index range of OUT (R40). -/
theorem elements_lt (s : State) : s.elements < 2 ^ 34 := by
  have hmul : s.H * s.W ≤ 65535 * 65535 :=
    Nat.mul_le_mul (Nat.le_of_lt_succ s.height.isLt) (Nat.le_of_lt_succ s.width.isLt)
  have : s.elements = s.H * s.W * 3 := rfl
  omega

/-- Only GAM writes an element space, and it writes inside OUT. -/
theorem memoriesLegal_exec (i : Instr) (s t : State) (hx : exec i s = .next t) (h : MemoriesLegal s) :
    MemoriesLegal t := by
  rcases exec_cases hx with rfl | ⟨-, -, rfl⟩ | ⟨-, -, rfl⟩ | ⟨-, -, rfl⟩ | ⟨-, -, -, -, rfl⟩ | ⟨-, -, rfl⟩
    | ⟨-, g, -, rfl⟩ | ⟨-, g, -, rfl⟩ | ⟨-, g, -, rfl⟩ | ⟨-, g, -, rfl⟩ | ⟨-, m, rfl⟩ | ⟨-, m, px, hpx, rfl⟩
  any_goals exact h
  obtain ⟨hraw, hrawLt, hout, houtLt⟩ := h
  refine ⟨hraw, hrawLt, Memory.writeAll_wf _ _ _ hout, fun e he => ?_⟩
  rcases Memory.mem_writeAll he with ⟨-, hlt⟩ | he
  · have := elements_lt s
    omega
  · exact houtLt e he

theorem memoriesLegal_reset (s : State) : MemoriesLegal (applyReset s) :=
  ⟨reset_memories_wf.1, nofun, reset_memories_wf.2, nofun⟩

theorem memoriesLegal_step {s t : State} (h : MemoriesLegal s) (hst : step s = .next t) : MemoriesLegal t :=
  step_keeps (P := MemoriesLegal) (fun s t h hs => by rw [h]; exact hs) (fun i s t _ => memoriesLegal_exec i s t)
    (fun r d s _ hs => by
      obtain ⟨-, -, hraw, hout⟩ := Reg.store_status r d s
      rwa [MemoriesLegal, hraw, hout])
    (fun i v s _ ⟨hraw, hrawLt, hout⟩ => ⟨Memory.write_wf _ _ _ hraw, fun e he => by
      rcases Memory.mem_write he with rfl | he
      · exact i.isLt
      · exact hrawLt e he, hout⟩)
    memoriesLegal_reset h hst

/-! ### The artifacts -/

/-- Outside the stages after CHK no artifact is needed. -/
theorem artifactsReady_of_stage {s : State} (h : s.status.stage = 0 ∨ s.status.stage = 1 ∨ s.status.stage = 7) :
    ArtifactsReady s := by
  rcases h with h | h | h <;> simp [ArtifactsReady, h]

/-- Every instruction a step runs leaves the artifact that the next one reads complete. -/
theorem artifactsReady_exec (i : Instr) (s t : State) (hi : Runs i s) (hx : exec i s = .next t)
    (h : ArtifactsReady s) : ArtifactsReady t := by
  have checked (g : BitVec 3) (hg : decodeStage g = i) (h2 : 2 ≤ g.toNat) (h6 : g.toNat ≤ 6) :
      Checked s ∧ FrameSupplied s ∧ PatternSupplied s := by
    rw [← (hi.of_stage g hg).1] at h2 h6
    exact h.1 h2 h6
  rcases exec_cases hx with rfl | ⟨-, -, rfl⟩ | ⟨-, -, rfl⟩ | ⟨-, -, rfl⟩ | ⟨-, hc, hf, hp, rfl⟩ | ⟨-, -, rfl⟩
    | ⟨rfl, g, hlen, rfl⟩ | ⟨rfl, g, hlen, rfl⟩ | ⟨rfl, g, hlen, rfl⟩ | ⟨rfl, g, hlen, rfl⟩ | ⟨-, m, rfl⟩
    | ⟨-, m, px, -, rfl⟩
  case inl => exact h
  · exact artifactsReady_of_stage (.inr (.inl rfl))
  · exact artifactsReady_of_stage (.inl rfl)
  · exact artifactsReady_of_stage (.inr (.inr rfl))
  · exact ⟨fun _ _ => ⟨hc, hf, hp⟩, nofun, nofun, nofun, nofun⟩
  · exact artifactsReady_of_stage (.inr (.inr rfl))
  · exact ⟨fun _ _ => checked 2 rfl (by decide) (by decide), fun _ => hlen, nofun, nofun, nofun⟩
  · exact ⟨fun _ _ => checked 3 rfl (by decide) (by decide), nofun, fun _ => hlen, nofun, nofun⟩
  · exact ⟨fun _ _ => checked 4 rfl (by decide) (by decide), nofun, nofun, fun _ => hlen, nofun⟩
  · exact ⟨fun _ _ => checked 5 rfl (by decide) (by decide), nofun, nofun, nofun, fun _ => hlen⟩
  · exact artifactsReady_of_stage (.inr (.inr rfl))
  · exact artifactsReady_of_stage (.inr (.inr rfl))

/-- While BUSY = 0 the stage needs no artifact, so the host may write the operands. -/
theorem artifactsReady_of_not_busy {s : State} (h : StatusLegal s.status) (hb : s.status.busy = false) :
    ArtifactsReady s := by
  rcases statusLegal_not_busy h hb with h0 | ⟨h7, -⟩
  · exact artifactsReady_of_stage (.inl h0)
  · exact artifactsReady_of_stage (.inr (.inr h7))

theorem artifactsReady_reset (s : State) : ArtifactsReady (applyReset s) := artifactsReady_of_stage (.inl rfl)

theorem artifactsReady_step {s t : State} (hs : StatusLegal s.status ∧ ArtifactsReady s) (hst : step s = .next t) :
    StatusLegal t.status ∧ ArtifactsReady t := by
  refine step_keeps (P := fun s => StatusLegal s.status ∧ ArtifactsReady s) (fun s t h hs => by rw [h]; exact hs)
    (fun i s t hi hx ⟨hl, ha⟩ => ⟨statusLegal_exec i s t hi hx hl, artifactsReady_exec i s t hi hx ha⟩)
    (fun r d s hb ⟨hl, _⟩ => ?_) (fun _ _ _ _ hs => hs) (fun s => ⟨statusLegal_reset s, artifactsReady_reset s⟩) hs hst
  rw [← (Reg.store_status r d s).1] at hb hl
  exact ⟨hl, artifactsReady_of_not_busy hl hb⟩

/-! ### The obligations -/

/-- Settles O12: each of the four parts of the invariant is kept by every step. -/
theorem stepKeepsTheInvariant : Obligations.StepKeepsTheInvariant := fun _ _ ⟨hstatus, herrinfo, hmem, hart⟩ h =>
  ⟨statusLegal_step hstatus h, errinfoLegal_step herrinfo h, memoriesLegal_step hmem h,
    (artifactsReady_step ⟨hstatus, hart⟩ h).2⟩

/-- Settles O11: reset gives each part of the invariant. -/
theorem invariantHoldsAtReset : Obligations.InvariantHoldsAtReset :=
  ⟨statusLegal_reset .reset, errinfoLegal_reset .reset, memoriesLegal_reset .reset, artifactsReady_reset .reset⟩

/-! ### The words of STATUS and ERRINFO -/

theorem status_word_fields (t : Status) :
    t.word.getLsbD 0 = t.busy ∧ t.word.getLsbD 1 = t.done ∧ t.word.getLsbD 2 = t.err ∧ t.word.getLsbD 3 = false
    ∧ t.word.extractLsb' 4 3 = t.stage ∧ t.word.extractLsb' 7 57 = 0 := by
  obtain ⟨busy, done, err, stage⟩ := t
  revert busy done err stage
  decide

theorem errinfo_word_fields (t : ErrInfo) :
    t.word.extractLsb' 0 2 = t.code ∧ t.word.extractLsb' 2 2 = 0 ∧ t.word.extractLsb' 4 3 = t.estage
    ∧ t.word.extractLsb' 7 57 = 0 := by
  obtain ⟨code, estage⟩ := t
  revert code estage
  decide

theorem errinfo_word_zero : (⟨0, 0⟩ : ErrInfo).word = 0 := by decide

/-- A host write to STATUS or ERRINFO is ignored. -/
theorem wreg_number_of_control {r : Reg} (h : r = .status ∨ r = .errinfo) (d : Word) (s : State) :
    wreg r.number d s = .next s := by
  rcases h with rfl | rfl <;> exact congrArg Host.Outcome.next (ite_self s)

theorem status_word_of_legal {t : Status} (h : StatusLegal t) :
    t.word ∈ [0x00, 0x11, 0x21, 0x31, 0x41, 0x51, 0x61, 0x72, (0x74 : Word)] := by
  obtain ⟨busy, done, err, stage⟩ := t
  unfold StatusLegal at h
  revert busy done err stage
  decide

/-- Settles O14: the fields by their positions, and the legal combinations kept by every step. -/
theorem statusStaysLegal : Obligations.StatusStaysLegal :=
  ⟨status_word_fields, fun _ => rreg_number_of_hasValue (r := .status) rfl, wreg_number_of_control (.inl rfl),
    by decide, fun _ _ => statusLegal_step, fun _ => status_word_of_legal⟩

/-- Settles O15: the fields by their positions, ERRINFO recorded exactly with ERR by every step, and cleared with it. -/
theorem errinfoRecordsTheError : Obligations.ErrinfoRecordsTheError := by
  refine ⟨errinfo_word_fields, fun _ => rreg_number_of_hasValue (r := .errinfo) rfl,
    wreg_number_of_control (.inr rfl), by decide, fun _ _ => errinfoLegal_step, fun s h => ?_, fun s t h => ?_⟩
  · rcases h with ⟨he, hi⟩ | ⟨he, hi | hi | hi⟩ <;> rw [he, hi] <;> decide
  · rcases h with ⟨h0, hx⟩ | ⟨h7, hx⟩
    · rw [exec_start_of_idle h0, Host.Outcome.next.injEq] at hx
      rw [← hx]
      exact errinfo_word_zero
    · rw [exec_clear_of_end h7, Host.Outcome.next.injEq] at hx
      rw [← hx]
      exact errinfo_word_zero

end Sys2Proof.Machine

end

/-! ## One step at a time, the port and reset (O9, O10, O16, O26, O28, O29, O33)

What a step does at each event, what the port answers at each register number, and what reset leaves. -/

section

namespace Sys2Proof.Machine

open Sys2Proof.Safety

/-! ### Steps -/

theorem step_of_event {s : State} {e : Event} {rest : List Event} (h : s.agenda = e :: rest) :
    step s = perform e { s with agenda := rest } := by
  unfold step nextEvent
  rw [h]

theorem step_of_no_event {s : State} (h : s.agenda = []) : step s = sequencerTurn s := by
  unfold step nextEvent
  rw [h]

theorem sequencerTurn_of_busy {s : State} (h : s.status.busy = true) :
    sequencerTurn s = exec (decodeStage s.status.stage) s := if_pos h

theorem sequencerTurn_of_not_busy {s : State} (h : s.status.busy = false) : sequencerTurn s = .next s := by
  unfold sequencerTurn
  rw [h]
  exact ite_self _

/-- Left alone, the block goes on with its run. -/
theorem step_alone_of_busy {s : State} (ha : s.agenda = []) (hb : s.status.busy = true) :
    step s = exec (decodeStage s.status.stage) s := (step_of_no_event ha).trans (sequencerTurn_of_busy hb)

/-- Left alone, the block at rest stays as it is. -/
theorem step_alone_of_not_busy {s : State} (ha : s.agenda = []) (hb : s.status.busy = false) : step s = .next s :=
  (step_of_no_event ha).trans (sequencerTurn_of_not_busy hb)

/-! ### The port -/

/-- A write to CTRL issues the command in the word. -/
theorem wreg_ctrl (d : Word) (s : State) : wreg 0x00 d s = exec (decodeCommand d) s := rfl

/-- Only the low four bits of a command word are decoded. -/
theorem decodeCommand_congr {d e : Word} (h : d.toNat % 16 = e.toNat % 16) : decodeCommand d = decodeCommand e := by
  have hcmd : cmdField d = cmdField e := BitVec.eq_of_toNat_eq (by
    simp only [cmdField, BitVec.extractLsb'_toNat, Nat.shiftRight_zero]
    exact h)
  unfold decodeCommand
  rw [hcmd]

/-- A write to any other register is ignored while BUSY = 1. -/
theorem wreg_number_of_busy {r : Reg} (hr : r ≠ .ctrl) (d : Word) {s : State} (hb : s.status.busy = true) :
    wreg r.number d s = .next s := by
  unfold wreg
  rw [Reg.ofNumber_number]
  cases r with
  | ctrl => exact absurd rfl hr
  | _ => simp [hb]

/-- R18: the numbers that name no register. -/
theorem ofNumber_reserved (n : BitVec 5) (h : n = 0x06 ∨ n = 0x07 ∨ n = 0x0F ∨ 0x19 ≤ n.toNat) :
    Reg.ofNumber n = none := by
  revert n
  decide

/-- An element that holds no value answers a free word. -/
theorem rmem_of_no_value {s : State} :
    (∀ i : BitVec 32, s.raw.read i.toNat = none → rmem (.raw i) s = drawReply s)
    ∧ ∀ i : BitVec 34, s.out.read i.toNat = none → rmem (.out i) s = drawReply s := by
  refine ⟨fun i h => ?_, fun i h => ?_⟩ <;> unfold rmem
  · simp only [h, elementReply]
  · simp only [h, elementReply, ite_self]

/-- No instruction changes an operand register. -/
theorem exec_operands {i : Instr} {s t : State} (h : exec i s = .next t) : operandsOf t = operandsOf s := by
  rcases exec_cases h with rfl | ⟨-, -, rfl⟩ | ⟨-, -, rfl⟩ | ⟨-, -, rfl⟩ | ⟨-, -, -, -, rfl⟩ | ⟨-, -, rfl⟩
    | ⟨-, g, -, rfl⟩ | ⟨-, g, -, rfl⟩ | ⟨-, g, -, rfl⟩ | ⟨-, g, -, rfl⟩ | ⟨-, m, rfl⟩ | ⟨-, m, px, -, rfl⟩
  all_goals rfl

/-! ### Code words placed where the next step runs them -/

theorem withFetchWord_of_readCode {nbits w : Nat} {c : Code} (h : readCode nbits w = .ok c) (s : State) :
    s.withFetchWord nbits w = placeCode c s := by
  unfold State.withFetchWord
  rw [h]

/-- A word of 64 bits is read as a command word. -/
theorem readCode_command {w : Nat} (hw : w < 2 ^ 64) : readCode 64 w = .ok (.command (BitVec.ofNat 64 w)) := by
  unfold readCode
  rw [if_neg (by norm_num), if_neg (by omega), if_neg (by omega)]

/-- A stage code in a word of 8 bits is read as one. -/
theorem readCode_stage (c : BitVec 3) : readCode 8 c.toNat = .ok (.stage c) := by
  have hlt : c.toNat < 8 := c.isLt
  unfold readCode
  rw [if_neg (by norm_num), if_neg (by omega), if_pos ⟨le_rfl, hlt⟩, BitVec.ofNat_toNat, BitVec.setWidth_eq]

theorem step_placeCode_command (d : Word) (s : State) :
    step (placeCode (.command d) s) = exec (decodeCommand d) s := rfl

/-- The stage code of an operation is the sequencer's next turn, with every register supplied. -/
theorem step_placeCode_stage (s : State) {c : BitVec 3} (h0 : c ≠ 0) (h7 : c ≠ 7) :
    step (placeCode (.stage c) s) =
      exec (decodeStage c)
        { s with status := { s.status with stage := c, busy := true }, written := .replicate 32 true } := by
  have hbusy : (c != 0 && c != 7) = true := by rw [bne_iff_ne.2 h0, bne_iff_ne.2 h7, Bool.and_true]
  unfold placeCode
  simp only [hbusy, if_true]
  rfl

/-! ### The obligations -/

/-- Settles O9: every part is a fixed value of the reset state. -/
theorem resetLeavesTheStatedValues : Obligations.ResetLeavesTheStatedValues :=
  ⟨by decide, by decide, by decide, fun _ => rfl, by decide, by decide, by decide, by decide, by decide, fun _ => rfl,
    fun _ => rfl, rfl, rfl, rfl, rfl⟩

/-- Settles O10: reset is an event like the others. -/
theorem resetMayComeAtAnyTime : Obligations.ResetMayComeAtAnyTime := fun _ _ h => step_of_event h

/-- Settles O16: a step performs the event of the agenda, or is the sequencer's turn. -/
theorem stepRunsTheDecodedInstruction : Obligations.StepRunsTheDecodedInstruction :=
  ⟨fun _ _ _ _ h => step_of_event h, fun _ _ _ h => step_of_event h, fun _ _ _ _ h => step_of_event h,
    fun _ _ _ h => step_of_event h, fun _ _ _ h => step_of_event h,
    fun _ _ h hb => (step_of_event h).trans (sequencerTurn_of_busy hb),
    fun _ _ h hb => (step_of_event h).trans (sequencerTurn_of_not_busy hb),
    fun _ => step_alone_of_busy, fun _ => step_alone_of_not_busy,
    fun s w hw => by rw [withFetchWord_of_readCode (readCode_command hw), step_placeCode_command],
    fun s c h0 h7 => by rw [withFetchWord_of_readCode (readCode_stage c), step_placeCode_stage s h0 h7]⟩

/-- Settles O26: the port reads and writes the operand registers, and no instruction does. -/
theorem operandRegistersAreTheHosts : Obligations.OperandRegistersAreTheHosts :=
  ⟨fun _ _ _ => rreg_number_of_hasValue,
    fun _ _ d hr hb => wreg_number_of_busy (by rintro rfl; cases hr) d hb,
    fun _ _ _ => wreg_number_of_not_busy, fun _ _ _ => exec_operands⟩

/-- Settles O28: a reserved number names no register. -/
theorem reservedNumbersReadZero : Obligations.ReservedNumbersReadZero := by
  intro n s h
  unfold rreg wreg
  rw [ofNumber_reserved n h]
  exact ⟨rfl, fun _ => rfl⟩

/-- Settles O29: the word written to CTRL is decoded by its low four bits. -/
theorem ctrlIsTheCommandPort : Obligations.CtrlIsTheCommandPort :=
  ⟨wreg_ctrl, fun d e s h => by rw [wreg_ctrl, wreg_ctrl, decodeCommand_congr h],
    fun _ => rreg_number_of_hasValue (r := .ctrl) rfl⟩

/-- Settles O33: no value, a free word. -/
theorem readsOfNoValueAreFree : Obligations.ReadsOfNoValueAreFree :=
  ⟨fun s r h => by rw [rreg_number, h]; rfl, fun _ => rmem_of_no_value.1, fun _ => rmem_of_no_value.2⟩

end Sys2Proof.Machine

end

/-! ## How a step stops (O13, O22, O40, O60)

An instruction is refused for a register it reads, a missing sample or a result that is not finite, and for nothing
else; in a state that meets the invariant it never faults. So a run that is left alone ends within its stages. -/

section

namespace Sys2Proof.Machine

open Sys2Proof.Safety

/-! ### The reasons of a computation -/

/-- The reasons for which a computation is refused, its registers apart: a missing sample (R29), or a result that is not
finite (U3). -/
def ComputationRefusal (r : Refusal) : Prop := (∃ i, r = .rawNoValue i) ∨ r = .notFinite

/-- The result is refused for a reason of a computation, if it is. -/
def RefusesAsComputation {α : Type} (o : Host.Outcome α Fault Refusal) : Prop :=
  ∀ r, o = .refused r → ComputationRefusal r

section Computations

variable {α β V : Type}

@[simp] theorem refusesAsComputation_next (a : α) : RefusesAsComputation (.next a) := nofun

@[simp] theorem refusesAsComputation_finite (o : Option V) : RefusesAsComputation (finite o) := by
  intro r h
  cases o with
  | some v => cases h
  | none =>
    cases h
    exact .inr rfl

@[simp] theorem refusesAsComputation_artRead (a : List V) (i : Nat) : RefusesAsComputation (artRead a i) := by
  intro r h
  unfold artRead at h
  split at h <;> cases h

@[simp] theorem refusesAsComputation_andThen {o : Host.Outcome α Fault Refusal}
    {f : α → Host.Outcome β Fault Refusal} (ho : RefusesAsComputation o) (hf : ∀ a, RefusesAsComputation (f a)) :
    RefusesAsComputation (andThen o f) := by
  intro r h
  cases o with
  | next a => exact hf a r h
  | fault q => cases h
  | refused q =>
    cases h
    exact ho r rfl

@[simp] theorem refusesAsComputation_collect {f : Nat → Host.Outcome α Fault Refusal}
    (hf : ∀ i, RefusesAsComputation (f i)) (k n : Nat) : RefusesAsComputation (collect f k n) := by
  induction n generalizing k with
  | zero => simp [collect]
  | succ n ih => simp [collect, hf, ih]

variable {N : Num V}

@[simp] theorem refusesAsComputation_blcSample (raw : Nat → Option V) (bl : Fin 4 → V) (cfa : BitVec 8) (W i : Nat) :
    RefusesAsComputation (blcSample N raw bl cfa W i) := by
  unfold blcSample
  split
  · simp
  · intro r h
    cases h
    exact .inl ⟨i, rfl⟩

@[simp] theorem refusesAsComputation_plane (cfa : BitVec 8) (W : Nat) (art : List V) (ch : Fin 3) (r c : Nat) :
    RefusesAsComputation (plane N cfa W art ch r c) := by
  unfold plane
  split <;> simp

theorem refusesAsComputation_addTaps {tap : Fin 3 × Fin 3 → Host.Outcome V Fault Refusal}
    (htap : ∀ t, RefusesAsComputation (tap t)) (acc : V) (ts : List (Fin 3 × Fin 3)) :
    RefusesAsComputation (addTaps N tap acc ts) := by
  induction ts generalizing acc with
  | nil => simp [addTaps]
  | cons t ts ih => simp [addTaps, htap, ih]

@[simp] theorem refusesAsComputation_demElement (cfa : BitVec 8) (H W : Nat) (art : List V) (ch : Fin 3) (r c : Nat) :
    RefusesAsComputation (demElement N cfa H W art ch r c) := by
  have tap (t : Fin 3 × Fin 3) : RefusesAsComputation (demTap N cfa H W art ch r c t) := by simp [demTap]
  unfold demElement
  split
  · simp
  · simp [tap, refusesAsComputation_addTaps tap]

@[simp] theorem refusesAsComputation_wbsElement (g : Vector V 3) (art : List V) (j : Nat) :
    RefusesAsComputation (wbsElement N g art j) := by
  simp [wbsElement]

@[simp] theorem refusesAsComputation_cctElement (ccm : Vector (BitVec 32) 9) (art : List V) (j : Nat) :
    RefusesAsComputation (cctElement N ccm art j) := by
  have dot (m0 m1 m2 x0 x1 x2 : V) : RefusesAsComputation (cctDot N m0 m1 m2 x0 x1 x2) := by
    simp only [cctDot, ← finite_bind, refusesAsComputation_finite]
  exact refusesAsComputation_andThen (by simp) fun _ => refusesAsComputation_andThen (by simp) fun _ =>
    refusesAsComputation_andThen (by simp) fun _ => dot _ _ _ _ _ _

@[simp] theorem refusesAsComputation_encodeImage (g : V) (z : List V) : RefusesAsComputation (encodeImage N g z) := by
  induction z with
  | nil => simp [encodeImage]
  | cons x z ih => simp [encodeImage, ih]

theorem refusesAsComputation_gamImage (H W : Nat) (art : List V) : RefusesAsComputation (gamImage N H W art) := by
  refine refusesAsComputation_andThen (by simp [clampImage]) fun z => ?_
  dsimp only
  split <;> simp

end Computations

@[simp] theorem refusesAsComputation_gains (wb : Vector (BitVec 32) 3) :
    RefusesAsComputation (gains Num.binary64 wb) := by
  obtain ⟨g, hg, -⟩ := gains_eq_next wb
  simp [hg]

/-! ### The reasons of an instruction -/

theorem withOperands_refused {i : Instr} {s : State} {o : Host.Outcome State Fault Refusal} {r : Refusal}
    (h : withOperands i s o = .refused r) :
    (∃ q ∈ registersRead i s, q.hasValue s = false ∧ r = .registerNoValue q.number) ∨ o = .refused r := by
  rcases withOperands_cases i s o with ⟨-, hw⟩ | ⟨q, hq, hv, hw⟩
  · exact .inr (hw ▸ h)
  · rw [hw, Host.Outcome.refused.injEq] at h
    exact .inl ⟨q, hq, hv, h.symm⟩

/-- An instruction is refused for a register it reads, or as its computation is. -/
theorem exec_refused {i : Instr} {s : State} {r : Refusal} (h : exec i s = .refused r) :
    (∃ q ∈ registersRead i s, q.hasValue s = false ∧ r = .registerNoValue q.number) ∨ ComputationRefusal r := by
  have image {o : Host.Outcome (List Val) Fault Refusal} (ho : RefusesAsComputation o) (f : List Val → State) :
      RefusesAsComputation (andThen o fun g => .next (f g)) := refusesAsComputation_andThen ho fun _ => by simp
  cases i with
  | chk => exact (withOperands_refused h).imp_right (refusesAsComputation_next _ r)
  | blc => exact (withOperands_refused h).imp_right (image (by simp [blcGrid]) _ r)
  | dem => exact (withOperands_refused h).imp_right (image (by simp [demImage]) _ r)
  | wbs => exact (withOperands_refused h).imp_right (image (by simp [wbsImage]) _ r)
  | cct => exact (withOperands_refused h).imp_right (image (by simp [cctImage]) _ r)
  | gam =>
    refine (withOperands_refused h).imp_right (refusesAsComputation_andThen (refusesAsComputation_gamImage _ _ _)
      (fun p => ?_) r)
    split <;> simp
  | _ => cases h

/-! ### Registers that hold no value -/

/-- Only operand registers can hold no value. -/
theorem Reg.isOperand_of_no_value {r : Reg} {s : State} (h : r.hasValue s = false) : r.isOperand = true := by
  cases r with
  | ctrl => cases h
  | status => cases h
  | errinfo => cases h
  | _ => rfl

/-- An operation is refused where one of the registers it reads holds no value. -/
theorem refusedForRegister_withOperands {i : Instr} {s : State} (o : Host.Outcome State Fault Refusal)
    (h : ¬ ∀ r ∈ registersRead i s, r.hasValue s = true) : RefusedForRegister s (withOperands i s o) := by
  rcases withOperands_cases i s o with ⟨hall, -⟩ | ⟨r, -, hv, hw⟩
  · exact absurd hall h
  · exact ⟨r, Reg.isOperand_of_no_value hv, hv, hw⟩

/-- The registers that each operation reads hold values: the names the statements use for it. -/
theorem registersRead_supplied {s : State} :
    ((∀ r ∈ registersRead .chk s, r.hasValue s = true) → FrameSupplied s ∧ PatternSupplied s)
    ∧ ((∀ r ∈ registersRead .blc s, r.hasValue s = true) → FrameSupplied s ∧ PatternSupplied s ∧ BiasesSupplied s)
    ∧ ((∀ r ∈ registersRead .wbs s, r.hasValue s = true) → FrameSupplied s ∧ GainsSupplied s)
    ∧ ((∀ r ∈ registersRead .cct s, r.hasValue s = true) → FrameSupplied s)
    ∧ ((∀ r ∈ registersRead .gam s, r.hasValue s = true) → FrameSupplied s) := by
  simp only [registersRead, cfaCells, List.map_cons, List.map_nil, List.cons_append, List.nil_append,
    List.forall_mem_cons, List.not_mem_nil, false_implies, implies_true, and_true]
  refine ⟨fun ⟨hh, hw, hc⟩ => ⟨⟨hh, hw⟩, hc⟩,
    fun ⟨hh, hw, hc, h00, h01, h10, h11⟩ => ⟨⟨hh, hw⟩, hc, fun i j hi hj => ?_⟩,
    fun ⟨hh, hw, h0, h1, h2⟩ => ⟨⟨hh, hw⟩, fun n => ?_⟩, fun ⟨hh, hw, _⟩ => ⟨hh, hw⟩, id⟩
  · interval_cases i <;> interval_cases j
    · exact h00
    · exact h01
    · exact h10
    · exact h11
  · fin_cases n
    · exact h0
    · exact h1
    · exact h2

/-- Settles O60: an operation is refused where a register it reads holds no value, no computation is refused so, and the
first register CHK reads is HEIGHT. -/
theorem operationsRefuseRegistersWithoutValue : Obligations.OperationsRefuseRegistersWithoutValue := by
  refine ⟨fun s => ?_, fun i s n h => ?_, rfl⟩
  · obtain ⟨pattern, biases, gains, matrix, frame⟩ := registersRead_supplied (s := s)
    exact ⟨fun h => refusedForRegister_withOperands _ (mt pattern h),
      fun h => refusedForRegister_withOperands _ (mt biases h),
      fun h => refusedForRegister_withOperands (i := .dem) _ (mt pattern h),
      fun h => refusedForRegister_withOperands _ (mt gains h),
      fun h => refusedForRegister_withOperands _ (mt matrix h),
      fun h => refusedForRegister_withOperands _ (mt frame h)⟩
  · rcases exec_refused h with ⟨q, -, hv, hr⟩ | ⟨_, hr⟩ | hr
    · exact ⟨q, Reg.isOperand_of_no_value hv, hv, by rw [h, hr]⟩
    · cases hr
    · cases hr

/-! ### Missing samples -/

/-- A traversal stops at its first iteration that is refused. -/
theorem collect_refused_at {α φ ρ : Type} {f : Nat → Host.Outcome α φ ρ} {k n i : Nat} {r : ρ} (hi : i < n)
    (before : ∀ j < i, ∃ a, f (k + j) = .next a) (hr : f (k + i) = .refused r) : collect f k n = .refused r := by
  induction i generalizing k n with
  | zero =>
    obtain ⟨n, rfl⟩ := Nat.exists_eq_succ_of_ne_zero (by omega : n ≠ 0)
    rw [collect, show f k = .refused r from hr, andThen_refused]
  | succ i ih =>
    obtain ⟨n, rfl⟩ := Nat.exists_eq_succ_of_ne_zero (by omega : n ≠ 0)
    obtain ⟨a, ha⟩ := before 0 (by omega)
    have shift (j : Nat) : k + (j + 1) = k + 1 + j := by omega
    have tail := ih (k := k + 1) (n := n) (by omega) (fun j hj => shift j ▸ before (j + 1) (by omega)) (shift i ▸ hr)
    rw [collect, show f k = .next a from ha, andThen_next, tail, andThen_refused]

theorem blcSample_of_missing {V : Type} {N : Num V} {raw : Nat → Option V} {bl : Fin 4 → V} {cfa : BitVec 8}
    {W i : Nat} (h : raw i = none) : blcSample N raw bl cfa W i = .refused (.rawNoValue i) := by
  unfold blcSample
  rw [h]

/-- BLC reads no artifact. -/
theorem execBlc_ne_fault (s : State) (r : Fault) : exec .blc s ≠ .fault r := by
  intro h
  rcases andThen_eq_fault.1 (withOperands_fault h) with h | ⟨g, -, h⟩
  · obtain ⟨i, -, h⟩ := collect_fault h
    unfold blcSample at h
    split at h
    · exact finite_ne_fault _ r h
    · cases h
  · cases h

/-- Settles O40: a traversal of a frame with a missing sample does not complete, and stops at the first. -/
theorem blcRefusesMissingSamples : Obligations.BlcRefusesMissingSamples := by
  intro s i hi hnone
  refine ⟨?_, fun hf hp hb before => ?_⟩
  · cases h : exec .blc s with
    | next t =>
      obtain ⟨-, g, hg, -⟩ := execBlc_eq_next.1 h
      obtain ⟨hlen, hsample⟩ := collect_eq_next.1 hg
      have := hsample i (hlen ▸ hi)
      rw [Nat.zero_add, blcSample_of_missing hnone] at this
      cases this
    | fault r => exact absurd h (execBlc_ne_fault s r)
    | refused r => exact ⟨r, rfl⟩
  · have hstop : blcGrid Num.binary64 s.raw.read (fun n => s.bl[n]) s.cfa s.H s.W = .refused (.rawNoValue i) := by
      refine collect_refused_at hi (fun j hj => ?_) ?_
      · obtain ⟨x, d, hx, hd⟩ := before j hj
        refine ⟨d, ?_⟩
        rw [Nat.zero_add, blcSample_eq_finite (by rw [hx]; rfl), blcFormula, hx, Option.bind_some, hd, finite_some]
      · rw [Nat.zero_add, blcSample_of_missing hnone]
    rw [execBlc_of_supplied hf hp hb, hstop, andThen_refused]

/-! ### No fault -/

/-- An operation that completes where all numbers of a formula are finite, and is refused where one is not, does not
fault. -/
theorem ne_fault_of_formula {F : Nat → Nat → Fin 3 → Option Val} {H W : Nat} {o : Host.Outcome State Fault Refusal}
    (completes : (∀ (r c : Nat) (ch : Fin 3), r < H → c < W → (F r c ch).isSome = true) → ∃ t, o = .next t)
    (refused : (∃ (r c : Nat) (ch : Fin 3), r < H ∧ c < W ∧ F r c ch = none) → o = .refused .notFinite) (q : Fault) :
    o ≠ .fault q := by
  by_cases h : ∃ (r c : Nat) (ch : Fin 3), r < H ∧ c < W ∧ F r c ch = none
  · rw [refused h]
    nofun
  · obtain ⟨t, ht⟩ := completes fun r c ch hr hc => Option.isSome_iff_ne_none.2 fun hn => h ⟨r, c, ch, hr, hc, hn⟩
    rw [ht]
    nofun

theorem ne_fault_of_refusedForRegister {s : State} {o : Host.Outcome State Fault Refusal} (h : RefusedForRegister s o)
    (q : Fault) : o ≠ .fault q := by
  obtain ⟨r, -, -, rfl⟩ := h
  nofun

/-- Where the artifact an operation reads is complete, no instruction that a step runs faults. -/
theorem exec_ne_fault {i : Instr} {s : State} (hi : Runs i s) (h : ArtifactsReady s) (q : Fault) :
    exec i s ≠ .fault q := by
  obtain ⟨checked, blc, dem, wbs, cct⟩ := h
  have supplied (g : BitVec 3) (hg : decodeStage g = i) (h2 : 2 ≤ g.toNat) (h6 : g.toNat ≤ 6) :
      FrameSupplied s ∧ PatternSupplied s := by
    rw [← (hi.of_stage g hg).1] at h2 h6
    exact (checked h2 h6).2
  cases i with
  | chk =>
    intro h
    cases withOperands_fault h
  | blc => exact execBlc_ne_fault s q
  | dem =>
    obtain ⟨hf, hp⟩ := supplied 3 rfl (by decide) (by decide)
    have hart := blc (hi.of_stage 3 rfl).1
    exact ne_fault_of_formula (fun h => (execDem_completes hf hp hart h).imp' _ fun _ h => h.1)
      (execDem_not_finite hf hp hart) q
  | wbs =>
    obtain ⟨hf, -⟩ := supplied 4 rfl (by decide) (by decide)
    have hart := dem (hi.of_stage 4 rfl).1
    by_cases hw : GainsSupplied s
    · exact ne_fault_of_formula (fun h => (execWbs_completes hf hw hart h).imp' _ fun _ h => h.1)
        (execWbs_not_finite hf hw hart) q
    · obtain ⟨-, -, gains, -, -⟩ := registersRead_supplied (s := s)
      exact ne_fault_of_refusedForRegister (refusedForRegister_withOperands _ fun h => hw (gains h).2) q
  | cct =>
    obtain ⟨hf, -⟩ := supplied 5 rfl (by decide) (by decide)
    have hart := wbs (hi.of_stage 5 rfl).1
    exact ne_fault_of_formula (fun h => (execCct_completes hf hart h).imp' _ fun _ h => h.1)
      (execCct_not_finite hf hart) q
  | gam =>
    obtain ⟨hf, -⟩ := supplied 6 rfl (by decide) (by decide)
    obtain ⟨t, ht, -⟩ := execGam_completes hf (cct (hi.of_stage 6 rfl).1)
    rw [ht]
    nofun
  | _ => nofun

/-- A step that faults runs an instruction that does. -/
theorem step_fault {s : State} {q : Fault} (h : step s = .fault q) :
    ∃ i s', SameBlock s s' ∧ Runs i s' ∧ exec i s' = .fault q := by
  have turn {s' : State} (hs : SameBlock s s') (h' : sequencerTurn s' = .fault q) :
      ∃ i s', SameBlock s s' ∧ Runs i s' ∧ exec i s' = .fault q := by
    cases hb : s'.status.busy with
    | true => exact ⟨_, s', hs, .inl ⟨rfl, hb⟩, sequencerTurn_of_busy hb ▸ h'⟩
    | false =>
      rw [sequencerTurn_of_not_busy hb] at h'
      cases h'
  cases ha : s.agenda with
  | nil => exact turn (s' := s) rfl (step_of_no_event ha ▸ h)
  | cons e rest =>
    rw [step_of_event ha] at h
    cases e with
    | wreg n d =>
      simp only [perform, wreg] at h
      split at h
      · exact ⟨_, { s with agenda := rest }, rfl, .inr (decodeCommand_cases d), h⟩
      · cases h
      · cases h
    | seq => exact turn (s' := { s with agenda := rest }) rfl h
    | run =>
      simp only [perform, runMark] at h
      split at h
      · rcases andThen_eq_fault.1 h with h | ⟨_, -, h⟩
        · exact turn (s' := { s with agenda := rest }) rfl h
        · cases h
      · cases h
    | _ => cases h

/-- Settles O13: the instruction that a step runs finds its artifact complete. -/
theorem noStepFaults : Obligations.NoStepFaults := by
  rintro s q ⟨-, -, -, hart⟩ h
  obtain ⟨i, s', hs, hi, hx⟩ := step_fault h
  exact exec_ne_fault hi (by rw [hs]; exact hart) q hx

/-! ### The end of a run -/

theorem execGam_eq_next {s t : State} (h : exec .gam s = .next t) :
    (∃ m, t = raiseError .allZeroImage 6 { s with gmax := m })
    ∨ ∃ m px, t = complete { s with gmax := m, out := s.out.writeAll 0 px } := by
  obtain ⟨-, h⟩ := withOperands_eq_next.1 h
  obtain ⟨⟨m, o⟩, -, h⟩ := andThen_eq_next.1 h
  cases o with
  | none =>
    rw [Host.Outcome.next.injEq] at h
    exact .inl ⟨m, h.symm⟩
  | some px =>
    rw [Host.Outcome.next.injEq] at h
    exact .inr ⟨m, px, h.symm⟩

theorem stage_of_operation (g : BitVec 3) (h1 : 1 ≤ g.toNat) (h6 : g.toNat ≤ 6) :
    g = 1 ∨ g = 2 ∨ g = 3 ∨ g = 4 ∨ g = 5 ∨ g = 6 := by
  revert g
  decide

/-- R83: an operation leaves the agenda, and goes to the next stage or to END. -/
theorem exec_operation_stage {g : BitVec 3} {s t : State} (h1 : 1 ≤ g.toNat) (h6 : g.toNat ≤ 6)
    (hx : exec (decodeStage g) s = .next t) :
    t.agenda = s.agenda ∧ (t.status.stage.toNat = g.toNat + 1 ∨ t.status.stage = 7) := by
  rcases stage_of_operation g h1 h6 with rfl | rfl | rfl | rfl | rfl | rfl
  · obtain ⟨-, rfl⟩ := execChk_eq_next.1 hx
    split
    · exact ⟨rfl, .inr rfl⟩
    · split
      · exact ⟨rfl, .inl rfl⟩
      · exact ⟨rfl, .inr rfl⟩
  · obtain ⟨-, _, -, rfl⟩ := execBlc_eq_next.1 hx
    exact ⟨rfl, .inl rfl⟩
  · obtain ⟨-, _, -, rfl⟩ := execDem_eq_next.1 hx
    exact ⟨rfl, .inl rfl⟩
  · obtain ⟨-, _, -, rfl⟩ := execWbs_eq_next.1 hx
    exact ⟨rfl, .inl rfl⟩
  · obtain ⟨-, _, -, rfl⟩ := execCct_eq_next.1 hx
    exact ⟨rfl, .inl rfl⟩
  · rcases execGam_eq_next hx with ⟨m, rfl⟩ | ⟨m, px, rfl⟩ <;> exact ⟨rfl, .inr rfl⟩

theorem steps_succ_of_next {k : Nat} {s t : State} (h : step s = .next t) : steps (k + 1) s = steps k t := by
  rw [steps, h]

theorem steps_succ_of_refused {k : Nat} {s : State} {r : Refusal} (h : step s = .refused r) :
    steps (k + 1) s = .refused r := by
  rw [steps, h]

/-- At rest with no event to come, the block stays as it is. -/
theorem steps_of_rest (k : Nat) {s : State} (ha : s.agenda = []) (hb : s.status.busy = false) :
    steps k s = .next s := by
  induction k with
  | zero => rfl
  | succ k ih => rw [steps_succ_of_next (step_alone_of_not_busy ha hb), ih]

/-- A state in which a run has ended, with exactly one of DONE and ERR (R20). -/
def Ended (s : State) : Prop := s.status.stage = 7 ∧ s.status.busy = false ∧ s.status.done ≠ s.status.err

/-- The reasons for which a run is refused (R29, U1, U3). -/
def RunRefusal (r : Refusal) : Prop := (∃ n, r = .registerNoValue n) ∨ (∃ i, r = .rawNoValue i) ∨ r = .notFinite

theorem runRefusal_of_exec {i : Instr} {s : State} {r : Refusal} (h : exec i s = .refused r) : RunRefusal r :=
  (exec_refused h).imp_left fun ⟨q, _, _, hr⟩ => ⟨q.number, hr⟩

/-- A run left alone ends within the `k` stages left, or is refused. -/
theorem run_ends (k : Nat) {s : State} (hinv : BlockInv s) (hb : s.status.busy = true) (ha : s.agenda = [])
    (hk : s.status.stage.toNat + k = 7) :
    (∃ t, steps k s = .next t ∧ Ended t) ∨ ∃ r, steps k s = .refused r ∧ RunRefusal r := by
  obtain ⟨h1, h6, -⟩ := statusLegal_busy hinv.1 hb
  induction k generalizing s with
  | zero => omega
  | succ k ih =>
    have hstep := step_alone_of_busy ha hb
    cases hx : exec (decodeStage s.status.stage) s with
    | fault q => exact absurd (hstep.trans hx) (noStepFaults s q hinv)
    | refused r => exact .inr ⟨r, steps_succ_of_refused (hstep.trans hx), runRefusal_of_exec hx⟩
    | next t =>
      have htinv : BlockInv t := stepKeepsTheInvariant s t hinv (hstep.trans hx)
      obtain ⟨hta, hstage⟩ := exec_operation_stage h1 h6 hx
      rw [ha] at hta
      rw [steps_succ_of_next (hstep.trans hx)]
      cases htb : t.status.busy with
      | true =>
        obtain ⟨ht1, ht6, -⟩ := statusLegal_busy htinv.1 htb
        refine ih htinv htb hta ?_ ht1 ht6
        rcases hstage with hstage | hstage
        · omega
        · simp [hstage] at ht6
      | false =>
        refine .inl ⟨t, steps_of_rest k hta htb, ?_⟩
        rcases statusLegal_not_busy htinv.1 htb with h0 | ⟨h7, hde⟩
        · simp [h0] at hstage
        · exact ⟨h7, htb, hde⟩

/-- Settles O22: every step of the run goes a stage on. -/
theorem runsEndWithinTheStagesLeft : Obligations.RunsEndWithinTheStagesLeft := fun s hinv hb ha =>
  have ⟨_, h6, _⟩ := statusLegal_busy hinv.1 hb
  run_ends _ hinv hb ha (by omega)

end Sys2Proof.Machine

end

/-! ## The outcome depends on the operands only (O25)

A simulation of one run by another: the two states agree on what the run reads, and each step keeps that or stops both
runs for the same reason. -/

section

namespace Sys2Proof.Machine

open Sys2Proof.Safety

/-! ### Related outcomes -/

/-- Both outcomes are next states that `R` relates, or both stop for the same reason. -/
inductive Related (R : State → State → Prop) :
    Host.Outcome State Fault Refusal → Host.Outcome State Fault Refusal → Prop
  | next {t₁ t₂ : State} (h : R t₁ t₂) : Related R (.next t₁) (.next t₂)
  | fault (q : Fault) : Related R (.fault q) (.fault q)
  | refused (r : Refusal) : Related R (.refused r) (.refused r)

section

variable {R : State → State → Prop} {s₁ s₂ : State}

/-- Two operations that begin with the same computation. -/
theorem related_andThen {α : Type} {o₁ o₂ : Host.Outcome α Fault Refusal}
    {f₁ f₂ : α → Host.Outcome State Fault Refusal} (ho : o₁ = o₂)
    (h : ∀ a, o₁ = .next a → Related R (f₁ a) (f₂ a)) : Related R (andThen o₁ f₁) (andThen o₂ f₂) := by
  subst ho
  cases o₁ with
  | next a => exact h a rfl
  | fault q => exact .fault q
  | refused r => exact .refused r

/-- Two operations that read the same registers, of which the same ones hold a value. -/
theorem related_withOperands {i : Instr} {o₁ o₂ : Host.Outcome State Fault Refusal}
    (reads : registersRead i s₁ = registersRead i s₂)
    (values : ∀ r ∈ registersRead i s₂, r.hasValue s₁ = r.hasValue s₂) (h : Related R o₁ o₂) :
    Related R (withOperands i s₁ o₁) (withOperands i s₂ o₂) := by
  have hfind : ((registersRead i s₁).find? fun r => !r.hasValue s₁) =
      (registersRead i s₂).find? fun r => !r.hasValue s₂ := by
    rw [reads]
    exact List.find?_congr fun r hr => by rw [values r hr]
  unfold withOperands
  rw [hfind]
  split
  · exact .refused _
  · exact h

/-- A relation that every step keeps is kept by any number of steps. -/
theorem related_steps (hstep : ∀ s₁ s₂, R s₁ s₂ → Related R (step s₁) (step s₂)) (k : Nat) (h : R s₁ s₂) :
    Related R (steps k s₁) (steps k s₂) := by
  induction k generalizing s₁ s₂ with
  | zero => exact .next h
  | succ k ih =>
    have hs := hstep s₁ s₂ h
    rw [steps, steps]
    generalize step s₁ = o₁ at hs
    generalize step s₂ = o₂ at hs
    cases hs with
    | next h => exact ih h
    | fault q => exact .fault q
    | refused r => exact .refused r

end

/-! ### Two runs on the same operands -/

/-- Two states of runs, with no event to come, that agree on what the rest of the run reads (R30): the operands but BL3,
which registers hold a value, the samples of the frame, and at each stage the artifact of the one before. An image
of the frame has `n` elements. -/
structure SameRun (n : Nat) (s₁ s₂ : State) : Prop where
  size : s₁.elements = n
  height : s₁.height = s₂.height
  width : s₁.width = s₂.width
  cfa : s₁.cfa = s₂.cfa
  wb : s₁.wb = s₂.wb
  ccm : s₁.ccm = s₂.ccm
  bl : ∀ n : Fin 3, s₁.bl[n.castSucc] = s₂.bl[n.castSucc]
  values : ∀ r : Reg, r.isOperand = true → r ≠ .bl 3 → r.hasValue s₁ = r.hasValue s₂
  samples : ∀ i, i < s₁.samples → s₁.raw.read i = s₂.raw.read i
  alone : s₁.agenda = [] ∧ s₂.agenda = []
  outWf : s₁.out.wf ∧ s₂.out.wf
  status : s₁.status = s₂.status
  errinfo : s₁.errinfo = s₂.errinfo
  pattern : s₁.status.stage = 2 → cfaLegal s₁.cfa = true
  artBlc : s₁.status.stage = 3 → s₁.artBlc = s₂.artBlc
  artDem : s₁.status.stage = 4 → s₁.artDem = s₂.artDem
  artWbs : s₁.status.stage = 5 → s₁.artWbs = s₂.artWbs
  artCct : s₁.status.stage = 6 → s₁.artCct = s₂.artCct
  image : s₁.status.done = true → ∀ i, i < n → s₂.out.read i = s₁.out.read i

/-- A legal pattern has no cell of the fourth channel, so a run never reads BL3 (R15). -/
theorem three_notMem_cfaCells {p : BitVec 8} (h : cfaLegal p = true) : 3 ∉ cfaCells p := by
  revert p
  decide

theorem cfaAt_mem_cfaCells (p : BitVec 8) (r c : Nat) : cfaAt p r c ∈ cfaCells p := by
  unfold cfaAt cfaCells
  rcases Nat.mod_two_eq_zero_or_one r with hr | hr <;> rcases Nat.mod_two_eq_zero_or_one c with hc | hc <;>
    simp [hr, hc]

theorem collect_congr {α φ ρ : Type} {f g : Nat → Host.Outcome α φ ρ} {k n : Nat}
    (h : ∀ i < n, f (k + i) = g (k + i)) : collect f k n = collect g k n := by
  induction n generalizing k with
  | zero => rfl
  | succ n ih =>
    have hk : f k = g k := h 0 (by omega)
    have htail := ih (k := k + 1) fun i hi => by
      rw [Nat.add_assoc, Nat.add_comm 1 i]
      exact h (i + 1) (by omega)
    simp only [collect, hk, htail]

section

variable {n : Nat} {s₁ s₂ : State}

theorem SameRun.frame (h : SameRun n s₁ s₂) : s₁.H = s₂.H ∧ s₁.W = s₂.W :=
  ⟨congrArg BitVec.toNat h.height, congrArg BitVec.toNat h.width⟩

theorem SameRun.bl_of_ne (h : SameRun n s₁ s₂) {k : Fin 4} (hk : k ≠ 3) : s₁.bl[k] = s₂.bl[k] := by
  obtain ⟨m, rfl⟩ := Fin.exists_castSucc_eq.2 hk
  exact h.bl m

/-- The same registers are read, and the same of them hold a value. -/
theorem SameRun.related_withOperands (h : SameRun n s₁ s₂) (i : Instr) (hi : i = .blc → s₁.status.stage = 2)
    {R : State → State → Prop} {o₁ o₂ : Host.Outcome State Fault Refusal} (ho : Related R o₁ o₂) :
    Related R (withOperands i s₁ o₁) (withOperands i s₂ o₂) := by
  refine Machine.related_withOperands ?_ (fun r hr => ?_) ho
  · cases i <;> simp only [registersRead, h.cfa]
  · by_cases hop : r.isOperand = true
    · refine h.values r hop ?_
      rintro rfl
      cases i with
      | blc =>
        have := three_notMem_cfaCells (h.pattern (hi rfl))
        rw [h.cfa] at this
        simp [registersRead] at hr
        exact this hr
      | _ => simp [registersRead] at hr
    · cases r with
      | ctrl => rfl
      | status => rfl
      | errinfo => rfl
      | _ => exact absurd rfl hop

/-- BLC computes the same grid. -/
theorem SameRun.blcGrid_eq (h : SameRun n s₁ s₂) (h2 : s₁.status.stage = 2) :
    blcGrid Num.binary64 s₁.raw.read (fun n => s₁.bl[n]) s₁.cfa s₁.H s₁.W =
      blcGrid Num.binary64 s₂.raw.read (fun n => s₂.bl[n]) s₂.cfa s₂.H s₂.W := by
  obtain ⟨hH, hW⟩ := h.frame
  have bias (r c : Nat) : s₁.bl[cfaAt s₁.cfa r c] = s₂.bl[cfaAt s₁.cfa r c] := h.bl_of_ne fun he =>
    three_notMem_cfaCells (h.pattern h2) (he ▸ cfaAt_mem_cfaCells s₁.cfa r c)
  rw [← h.cfa, ← hH, ← hW]
  refine collect_congr fun i hi => ?_
  rw [Nat.zero_add]
  simp only [blcSample, h.samples i hi, bias]

theorem SameRun.raiseError (h : SameRun n s₁ s₂) (e : ErrorKind) (g : BitVec 3) :
    SameRun n (raiseError e g s₁) (raiseError e g s₂) :=
  { h with
    status := rfl, errinfo := rfl, pattern := nofun, artBlc := nofun, artDem := nofun, artWbs := nofun
    artCct := nofun, image := nofun }

/-- An operation of the run goes on, stops or ends alike in both. -/
theorem SameRun.exec (h : SameRun n s₁ s₂) :
    Related (SameRun n) (exec (decodeStage s₁.status.stage) s₁) (exec (decodeStage s₁.status.stage) s₂) := by
  obtain ⟨hH, hW⟩ := h.frame
  obtain ⟨notStart, notClear, notReserved⟩ := decodeStage_ne_command s₁.status.stage
  cases hi : decodeStage s₁.status.stage with
  | start => exact absurd hi notStart
  | clear => exact absurd hi notClear
  | reservedCmd c => exact absurd hi (notReserved c)
  | idle => exact .next h
  | endStage => exact .next h
  | chk =>
    refine h.related_withOperands .chk nofun (.next ?_)
    rw [← hH, ← hW, ← h.cfa]
    split
    · exact h.raiseError _ _
    · split
      · next hlegal =>
        exact { h with
          status := by simp [h.status], pattern := fun _ => hlegal, artBlc := nofun, artDem := nofun
          artWbs := nofun, artCct := nofun }
      · exact h.raiseError _ _
  | blc =>
    have h2 : s₁.status.stage = 2 := decodeStage_injective (hi.trans rfl)
    refine h.related_withOperands .blc (fun _ => h2) ?_
    exact related_andThen (h.blcGrid_eq h2) fun g _ => .next { h with
      status := by simp [h.status], pattern := nofun, artBlc := fun _ => rfl, artDem := nofun, artWbs := nofun
      artCct := nofun }
  | dem =>
    have h3 : s₁.status.stage = 3 := decodeStage_injective (hi.trans rfl)
    refine h.related_withOperands .dem nofun ?_
    exact related_andThen (by rw [hH, hW, h.cfa, h.artBlc h3]) fun g _ => .next { h with
      status := by simp [h.status], pattern := nofun, artBlc := nofun, artDem := fun _ => rfl, artWbs := nofun
      artCct := nofun }
  | wbs =>
    have h4 : s₁.status.stage = 4 := decodeStage_injective (hi.trans rfl)
    refine h.related_withOperands .wbs nofun ?_
    exact related_andThen (by rw [hH, hW, h.wb, h.artDem h4]) fun g _ => .next { h with
      status := by simp [h.status], pattern := nofun, artBlc := nofun, artDem := nofun, artWbs := fun _ => rfl
      artCct := nofun }
  | cct =>
    have h5 : s₁.status.stage = 5 := decodeStage_injective (hi.trans rfl)
    refine h.related_withOperands .cct nofun ?_
    exact related_andThen (by rw [hH, hW, h.ccm, h.artWbs h5]) fun g _ => .next { h with
      status := by simp [h.status], pattern := nofun, artBlc := nofun, artDem := nofun, artWbs := nofun
      artCct := fun _ => rfl }
  | gam =>
    have h6 : s₁.status.stage = 6 := decodeStage_injective (hi.trans rfl)
    refine h.related_withOperands .gam nofun ?_
    refine related_andThen (by rw [hH, hW, h.artCct h6]) fun ⟨m, o⟩ hgam => ?_
    have hm : SameRun n { s₁ with gmax := m } { s₂ with gmax := m } := { h with height := h.height }
    cases o with
    | none => exact .next (hm.raiseError _ _)
    | some px =>
      obtain ⟨hout₁, hout₂⟩ := h.outWf
      have hlen : px.length = n := (gamImage_length hgam).trans h.size
      exact .next { h with
        outWf := ⟨Memory.writeAll_wf _ _ _ hout₁, Memory.writeAll_wf _ _ _ hout₂⟩
        status := by simp [h.status], pattern := nofun, artBlc := nofun, artDem := nofun, artWbs := nofun
        artCct := nofun
        image := fun _ i hi => (read_writeAll_of_lt hout₂ hlen hi).trans
          (read_writeAll_of_lt hout₁ hlen hi).symm }

theorem SameRun.step (h : SameRun n s₁ s₂) : Related (SameRun n) (step s₁) (step s₂) := by
  obtain ⟨ha₁, ha₂⟩ := h.alone
  cases hb : s₁.status.busy with
  | true =>
    rw [step_alone_of_busy ha₁ hb, step_alone_of_busy ha₂ (h.status ▸ hb), ← h.status]
    exact h.exec
  | false =>
    rw [step_alone_of_not_busy ha₁ hb, step_alone_of_not_busy ha₂ (h.status ▸ hb)]
    exact .next h

/-- START begins the run of the state as it is. -/
theorem step_of_atStart {s : State} (h : AtStart s) : step s = .next (beginRun { s with agenda := [] }) := by
  obtain ⟨h0, d, hd, ha⟩ := h
  rw [step_of_event ha]
  change wreg 0x00 d { s with agenda := [] } = _
  rw [wreg_ctrl, hd]
  exact exec_start_of_idle h0

end

/-- Settles O25: after START the two states agree on what the run reads, and every step keeps that. -/
theorem outcomeDependsOnTheOperandsOnly : Obligations.OutcomeDependsOnTheOperandsOnly := by
  intro s₁ s₂ hs₁ hs₂ hheight hwidth hcfa hwb hccm hbl hvalues hsamples hout₁ hout₂
  have begun : SameRun s₁.elements (beginRun { s₁ with agenda := [] }) (beginRun { s₂ with agenda := [] }) :=
    { size := rfl, height := hheight, width := hwidth, cfa := hcfa, wb := hwb, ccm := hccm, bl := hbl, values := hvalues
      samples := hsamples, alone := ⟨rfl, rfl⟩, outWf := ⟨hout₁, hout₂⟩, status := rfl, errinfo := rfl
      pattern := nofun, artBlc := nofun, artDem := nofun, artWbs := nofun, artCct := nofun, image := nofun }
  have run := related_steps (fun _ _ => SameRun.step) 6 begun
  rw [steps_succ_of_next (step_of_atStart hs₁), steps_succ_of_next (step_of_atStart hs₂)]
  generalize steps 6 (beginRun { s₁ with agenda := [] }) = o₁ at run
  generalize steps 6 (beginRun { s₂ with agenda := [] }) = o₂ at run
  cases run with
  | next h =>
    refine ⟨nofun, fun t₁ ht => ?_⟩
    cases ht
    exact ⟨_, rfl, h.status.symm, h.errinfo.symm, h.image⟩
  | fault q => exact ⟨nofun, nofun⟩
  | refused r => exact ⟨fun _ h => h, nofun⟩

end Sys2Proof.Machine

end

/-! ## What an instruction leaves, and the element spaces (O30, O31, O32, O36)

The frame of every instruction on what is not its own to write, and what the port reads and writes in RAW and OUT. -/

section

namespace Sys2Proof.Machine

open Sys2Proof.Safety

/-! ### The frame of an instruction -/

/-- No instruction changes RAW, the agenda, the reply, the draws or the notes of what was written. -/
theorem exec_frame {i : Instr} {s t : State} (h : exec i s = .next t) :
    t.raw = s.raw ∧ t.agenda = s.agenda ∧ t.reply = s.reply ∧ t.draws = s.draws ∧ t.written = s.written := by
  rcases exec_cases h with rfl | ⟨-, -, rfl⟩ | ⟨-, -, rfl⟩ | ⟨-, -, rfl⟩ | ⟨-, -, -, -, rfl⟩ | ⟨-, -, rfl⟩
    | ⟨-, g, -, rfl⟩ | ⟨-, g, -, rfl⟩ | ⟨-, g, -, rfl⟩ | ⟨-, g, -, rfl⟩ | ⟨-, m, rfl⟩ | ⟨-, m, px, -, rfl⟩
  all_goals exact ⟨rfl, rfl, rfl, rfl, rfl⟩

/-- Only GAM writes OUT and the global maximum. -/
theorem exec_out_of_ne_gam {i : Instr} {s t : State} (hi : i ≠ .gam) (h : exec i s = .next t) :
    t.out = s.out ∧ t.gmax = s.gmax := by
  rcases exec_cases h with rfl | ⟨-, -, rfl⟩ | ⟨-, -, rfl⟩ | ⟨-, -, rfl⟩ | ⟨-, -, -, -, rfl⟩ | ⟨-, -, rfl⟩
    | ⟨-, g, -, rfl⟩ | ⟨-, g, -, rfl⟩ | ⟨-, g, -, rfl⟩ | ⟨-, g, -, rfl⟩ | ⟨hgam, -⟩ | ⟨hgam, -⟩
  any_goals exact ⟨rfl, rfl⟩
  · exact absurd hgam hi
  · exact absurd hgam hi

/-- GAM leaves OUT as it is, with an error, or writes an image of the frame to it, from element 0 on. -/
theorem execGam_out {s t : State} (h : exec .gam s = .next t) :
    t.out = s.out ∨ ∃ px : List Val, px.length = s.elements ∧ t.out = s.out.writeAll 0 px := by
  have cases := exec_cases h
  simp only [reduceCtorEq, false_and, true_and, false_or] at cases
  rcases cases with rfl | ⟨m, rfl⟩ | ⟨m, px, hlen, rfl⟩
  · exact .inl rfl
  · exact .inl rfl
  · exact .inr ⟨px, hlen, rfl⟩

/-- Settles O36: the frame of each instruction, and of an image written to OUT. -/
theorem onlyGamWritesOut : Obligations.OnlyGamWritesOut := by
  refine ⟨fun i s t h => ?_, fun s t hout h k hk => ?_⟩
  · obtain ⟨hraw, hagenda, hreply, hdraws, hwritten⟩ := exec_frame h
    exact ⟨hraw, hagenda, hreply, hdraws, hwritten, fun hi => exec_out_of_ne_gam hi h⟩
  · rcases execGam_out h with ht | ⟨px, hlen, ht⟩
    · rw [ht]
    · rw [ht, Memory.read_writeAll s.out 0 k px hout, if_neg (by omega)]

/-! ### Reads -/

theorem rreg_agenda (n : BitVec 5) (s : State) : (rreg n s).agenda = s.agenda := by
  unfold rreg
  split
  · split <;> rfl
  · rfl

theorem elementReply_agenda (e : Option Val) (s : State) : (elementReply e s).agenda = s.agenda := by
  cases e <;> rfl

theorem rmem_agenda (e : ReadTarget) (s : State) : (rmem e s).agenda = s.agenda := by
  cases e with
  | raw i => exact elementReply_agenda _ s
  | out i =>
    unfold rmem
    dsimp only
    split
    · rfl
    · exact elementReply_agenda _ s

/-- RAW is read at any time. -/
theorem rmem_raw_of_value {s : State} {i : BitVec 32} {v : Val} (h : s.raw.read i.toNat = some v) :
    rmem (.raw i) s = { s with reply := v.enc } := by
  unfold rmem
  simp only [h, elementReply]

/-- OUT is read while BUSY = 0. -/
theorem rmem_out_of_value {s : State} {i : BitVec 34} {v : Val} (hb : s.status.busy = false)
    (h : s.out.read i.toNat = some v) : rmem (.out i) s = { s with reply := v.enc } := by
  unfold rmem
  simp only [hb, h, elementReply, Bool.false_eq_true, if_false]

/-- While BUSY = 1 a read of OUT returns a free word. -/
theorem rmem_out_of_busy {s : State} (i : BitVec 34) (hb : s.status.busy = true) : rmem (.out i) s = drawReply s :=
  if_pos hb

theorem Reg.word_reply (r : Reg) (s : State) (w : Word) : r.word { s with reply := w } = r.word s := by
  cases r <;> rfl

/-- Settles O30: a read changes the reply and the draws only, and what it returns does not depend on them. -/
theorem readsHaveNoSideEffects : Obligations.ReadsHaveNoSideEffects := by
  refine ⟨fun n s => ⟨rreg_sameBlock n s, rreg_agenda n s⟩, fun e s => ⟨rmem_sameBlock e s, rmem_agenda e s⟩,
    fun r s h => ?_, fun i s h => ?_, fun i s hb h => ?_⟩
  · have again : r.hasValue { s with reply := r.word s } = true := (Reg.hasValue_congr rfl r).trans h
    simp only [rreg_number_of_hasValue h, rreg_number_of_hasValue again, Reg.word_reply]
  · obtain ⟨v, hv⟩ := Option.isSome_iff_exists.1 h
    rw [rmem_raw_of_value hv]
    exact rmem_raw_of_value hv
  · obtain ⟨v, hv⟩ := Option.isSome_iff_exists.1 h
    rw [rmem_out_of_value hb hv]
    exact rmem_out_of_value hb hv

/-! ### Writes to RAW -/

theorem wmem_of_busy (i : BitVec 32) (d : Word) {s : State} (hb : s.status.busy = true) : wmem i d s = s :=
  if_pos hb

theorem wmem_of_value {i : BitVec 32} {d : Word} {v : Val} {s : State} (hb : s.status.busy = false)
    (hd : Val.dec d = some v) : wmem i d s = { s with raw := s.raw.write i.toNat v } := by
  unfold wmem
  simp only [hb, hd, Bool.false_eq_true, if_false]

/-- Settles O31: what is stored, and the read of the written memory. -/
theorem rawHoldsWhatTheHostWrites : Obligations.RawHoldsWhatTheHostWrites := by
  refine fun s i d => ⟨wmem_of_busy i d, fun v hb hd hwf => ?_⟩
  have hread (j : Nat) := Memory.read_write s.raw i.toNat j v hwf
  have hwritten : (s.raw.write i.toNat v).read i.toNat = some v := (hread _).trans (if_pos rfl)
  rw [wmem_of_value hb hd]
  exact ⟨by rw [rmem_raw_of_value (s := { s with raw := s.raw.write i.toNat v }) hwritten], hread, rfl⟩

/-! ### OUT while BUSY = 0 -/

/-- While BUSY = 0 no step but a reset changes OUT: of the instructions only commands run. -/
theorem step_out_of_not_busy {s t : State} (hb : s.status.busy = false) (hreset : s.agenda.head? ≠ some .reset)
    (h : step s = .next t) : t.out = s.out := by
  have same {u v : State} (huv : SameBlock u v) : v.out = u.out := by rw [huv]
  rcases step_cases h with ⟨i, s', t', hss, hx, htt, hi⟩ | hst | ⟨-, rest, r, d, rfl⟩ | ⟨-, rest, i, v, rfl⟩
    | ⟨rest, ha, -⟩
  · have hgam : i ≠ .gam := by
      rcases hi with ⟨-, ht⟩ | rfl | rfl | ⟨c, rfl⟩
      · rw [hb] at ht
        cases ht
      all_goals nofun
    rw [same htt, (exec_out_of_ne_gam hgam hx).1, same hss]
  · exact same hst
  · obtain ⟨-, -, -, hout⟩ := Reg.store_status r d { s with agenda := rest }
    exact hout
  · rfl
  · simp [ha] at hreset

/-- Settles O32: the reads of the two spaces, and the steps of a block that is not busy. -/
theorem outIsReadWhileNotBusy : Obligations.OutIsReadWhileNotBusy :=
  ⟨fun _ _ _ => rmem_out_of_value, fun _ i => rmem_out_of_busy i, fun _ _ _ => rmem_raw_of_value,
    fun _ _ => step_out_of_not_busy⟩

end Sys2Proof.Machine

end

/-! ## What the instructions read (O37)

A simulation of an instruction by the same one in a state with another RAW and other biases. -/

section

namespace Sys2Proof.Machine

/-- The state with other contents in RAW and the BL registers. -/
def State.withSource (m : Memory) (b : Vector Val 4) (s : State) : State := { s with raw := m, bl := b }

/-- Outcomes of which the second is the first with its next state changed by `f`. -/
theorem eq_andThen_of_related {f : State → State} {o₁ o₂ : Host.Outcome State Fault Refusal}
    (h : Related (fun t₁ t₂ => t₂ = f t₁) o₁ o₂) : o₂ = andThen o₁ fun t => .next (f t) := by
  cases h with
  | next h => rw [h, andThen_next]
  | fault q => rfl
  | refused r => rfl

/-- No instruction but BLC reads RAW or a BL register. -/
theorem exec_withSource {i : Instr} (hi : i ≠ .blc) (m : Memory) (b : Vector Val 4) (s : State) :
    Related (fun t₁ t₂ => t₂ = t₁.withSource m b) (exec i s) (exec i (s.withSource m b)) := by
  have values (r : Reg) : r.hasValue s = r.hasValue (s.withSource m b) := Reg.hasValue_congr rfl r
  cases i with
  | blc => exact absurd rfl hi
  | start => exact .next (apply_ite (State.withSource m b) (s.status.stage = 0) (beginRun s) s).symm
  | clear => exact .next (apply_ite (State.withSource m b) (s.status.stage = 7) (returnToIdle s) s).symm
  | chk =>
    refine related_withOperands rfl (fun r _ => values r) (.next ?_)
    simp only [apply_ite (State.withSource m b)]
    rfl
  | dem => exact related_withOperands rfl (fun r _ => values r) (related_andThen rfl fun g _ => .next rfl)
  | wbs => exact related_withOperands rfl (fun r _ => values r) (related_andThen rfl fun g _ => .next rfl)
  | cct => exact related_withOperands rfl (fun r _ => values r) (related_andThen rfl fun g _ => .next rfl)
  | gam =>
    refine related_withOperands rfl (fun r _ => values r) (related_andThen rfl fun ⟨x, o⟩ _ => ?_)
    cases o with
    | none => exact .next rfl
    | some px => exact .next rfl
  | _ => exact .next rfl

/-- Settles O37: an instruction in the changed state simulates it in the state as it is. -/
theorem onlyBlcReadsRawAndBiases : Obligations.OnlyBlcReadsRawAndBiases := fun _ s m b hi =>
  eq_andThen_of_related (exec_withSource hi m b s)

end Sys2Proof.Machine

end

/-! ## A run is one evaluation (O24)

Each operation of a run is a computation of `evaluate` on the operands of START, so a run and the evaluation are walked
through side by side. -/

section

namespace Sys2Proof.Machine

open Sys2Proof.Safety

/-! ### The registers an operation needs -/

theorem andThen_assoc {α β γ φ ρ : Type} (o : Host.Outcome α φ ρ) (f : α → Host.Outcome β φ ρ)
    (g : β → Host.Outcome γ φ ρ) : andThen (andThen o f) g = andThen o fun a => andThen (f a) g := by
  cases o <;> rfl

theorem need_eq_next {rs : List Reg} {s : State} :
    need rs s = .next () ↔ ∀ r ∈ rs, r.hasValue s = true := by
  induction rs with
  | nil => simp [need]
  | cons r rs ih =>
    rw [need, List.forall_mem_cons]
    split
    · next h => simp [h, ih]
    · next h => simp [h]

theorem need_append (rs rest : List Reg) (s : State) :
    need (rs ++ rest) s = andThen (need rs s) fun _ => need rest s := by
  induction rs with
  | nil => rfl
  | cons r rs ih =>
    rw [List.cons_append, need, need, ih]
    split <;> rfl

theorem need_congr {s t : State} (h : t.written = s.written) (rs : List Reg) : need rs t = need rs s := by
  induction rs with
  | nil => rfl
  | cons r rs ih => rw [need, need, ih, Reg.hasValue_congr h]

/-- An operation needs the registers it reads, one after the other. -/
theorem withOperands_eq_need (i : Instr) (s : State) (o : Host.Outcome State Fault Refusal) :
    withOperands i s o = andThen (need (registersRead i s) s) fun _ => o := by
  unfold withOperands
  induction registersRead i s with
  | nil => rfl
  | cons r rs ih =>
    rw [need]
    cases h : r.hasValue s with
    | true => simpa [h] using ih
    | false => simp [h]

/-! ### The operations of a run -/

/-- The run that began in `s`, with no event to come, at stage `g` with these artifacts. -/
def running (s : State) (g : BitVec 3) (b d w c : List Val) : State :=
  { s with
    agenda := [], status := ⟨true, false, false, g⟩, errinfo := ⟨0, 0⟩
    artBlc := b, artDem := d, artWbs := w, artCct := c }

theorem steps_succ (k : Nat) (s : State) : steps (k + 1) s = andThen (step s) (steps k) := by
  rw [steps]
  cases step s <;> rfl

section

variable {s : State} (k : Nat) {b d w c : List Val}

/-- The turn of an operation that needs the registers `rs`, which hold values, and `rest`. -/
theorem steps_running (g : BitVec 3) (i : Instr) (rs rest : List Reg) {o : Host.Outcome State Fault Refusal}
    (hi : decodeStage g = i) (hx : exec i (running s g b d w c) = withOperands i (running s g b d w c) o)
    (reads : registersRead i (running s g b d w c) = rs ++ rest) (hrs : ∀ r ∈ rs, r.hasValue s = true) :
    steps (k + 1) (running s g b d w c) = andThen (need rest s) fun _ => andThen o (steps k) := by
  have turn : step (running s g b d w c) = exec (decodeStage g) (running s g b d w c) := step_alone_of_busy rfl rfl
  have needed : need (rs ++ rest) (running s g b d w c) = need (rs ++ rest) s :=
    need_congr (s := s) (t := running s g b d w c) rfl _
  rw [steps_succ, turn, hi, hx, withOperands_eq_need, reads, needed, need_append, need_eq_next.2 hrs, andThen_next,
    andThen_assoc]

theorem steps_chk :
    steps (k + 1) (running s 1 b d w c) = andThen (need [.height, .width, .cfa] s) fun _ =>
      steps k (if s.H % 2 ≠ 0 ∨ s.W % 2 ≠ 0 then raiseError .dimension 1 (running s 1 b d w c)
        else if cfaLegal s.cfa then running s 2 b d w c
        else raiseError .filterPattern 1 (running s 1 b d w c)) :=
  steps_running k 1 .chk [] [.height, .width, .cfa] rfl rfl rfl nofun

section

variable (hf : FrameSupplied s)
include hf

theorem frame_hasValue : ∀ r ∈ [Reg.height, Reg.width], r.hasValue s = true := by
  simpa [FrameSupplied] using hf

theorem steps_wbs :
    steps (k + 1) (running s 4 b d w c) = andThen (need [.wb 0, .wb 1, .wb 2] s) fun _ =>
      andThen (wbsImage Num.binary64 s.wb s.H s.W d) fun g => steps k (running s 5 b d g c) := by
  rw [steps_running k 4 .wbs [.height, .width] [.wb 0, .wb 1, .wb 2] rfl rfl rfl (frame_hasValue hf)]
  simp only [andThen_assoc]
  rfl

theorem steps_cct :
    steps (k + 1) (running s 5 b d w c) =
      andThen (cctImage Num.binary64 s.ccm s.H s.W w) fun g => steps k (running s 6 b d w g) := by
  have matrix : need ((List.finRange 9).map Reg.ccm) s = .next () := need_eq_next.2 (by simp [Reg.hasValue])
  rw [steps_running k 5 .cct [.height, .width] _ rfl rfl rfl (frame_hasValue hf), matrix, andThen_next, andThen_assoc]
  rfl

theorem steps_gam :
    steps (k + 1) (running s 6 b d w c) =
      andThen (gamImage Num.binary64 s.H s.W c) fun r =>
        steps k (r.2.elim (raiseError .allZeroImage 6 { running s 6 b d w c with gmax := r.1 }) fun px =>
          complete { running s 6 b d w c with gmax := r.1, out := s.out.writeAll 0 px }) := by
  rw [steps_running k 6 .gam [.height, .width] [] rfl rfl rfl (frame_hasValue hf), need, andThen_next, andThen_assoc]
  exact congrArg (andThen _) (funext fun ⟨m, o⟩ => by cases o <;> rfl)

variable (hp : PatternSupplied s)
include hp

theorem pattern_hasValue : ∀ r ∈ [Reg.height, Reg.width, Reg.cfa], r.hasValue s = true := by
  simpa [FrameSupplied, PatternSupplied, and_assoc] using And.intro hf hp

theorem steps_blc :
    steps (k + 1) (running s 2 b d w c) = andThen (need ((cfaCells s.cfa).map Reg.bl) s) fun _ =>
      andThen (blcGrid Num.binary64 s.raw.read (fun n => s.bl[n]) s.cfa s.H s.W) fun g =>
        steps k (running s 3 g d w c) := by
  rw [steps_running k 2 .blc [.height, .width, .cfa] _ rfl rfl rfl (pattern_hasValue hf hp)]
  simp only [andThen_assoc]
  rfl

theorem steps_dem :
    steps (k + 1) (running s 3 b d w c) =
      andThen (demImage Num.binary64 s.cfa s.H s.W b) fun g => steps k (running s 4 b g w c) := by
  rw [steps_running k 3 .dem [.height, .width, .cfa] [] rfl rfl rfl (pattern_hasValue hf hp), need, andThen_next,
    andThen_assoc]
  rfl

end

end

/-! ### The run and the evaluation -/

/-- What a run that began in `s` comes to, beside what its evaluation does: the error, the image or the stop. -/
inductive Leaves (s : State) : Host.Outcome RunResult Fault Refusal → Host.Outcome State Fault Refusal → Prop
  | error {e : ErrorKind} {t : State}
      (h : t.status = { busy := false, done := false, err := true, stage := 7 }
        ∧ t.errinfo = { code := errorCode e, estage := if e = .allZeroImage then 6 else 1 }
        ∧ t.out = s.out ∧ t.raw = s.raw ∧ operandsOf t = operandsOf s) : Leaves s (.next (.error e)) (.next t)
  | image {px : List Val} {t : State}
      (h : t.status = { busy := false, done := true, err := false, stage := 7 }
        ∧ t.errinfo = { code := 0, estage := 0 } ∧ px.length = s.elements
        ∧ t.out = s.out.writeAll 0 px ∧ t.raw = s.raw ∧ operandsOf t = operandsOf s) :
      Leaves s (.next (.image px)) (.next t)
  | fault (q : Fault) : Leaves s (.fault q) (.fault q)
  | refused (r : Refusal) : Leaves s (.refused r) (.refused r)

section

variable {s : State}

/-- A run and an evaluation that go on with the same computation. -/
theorem leaves_andThen {α : Type} {o : Host.Outcome α Fault Refusal} {f : α → Host.Outcome RunResult Fault Refusal}
    {g : α → Host.Outcome State Fault Refusal} (h : ∀ a, o = .next a → Leaves s (f a) (g a)) :
    Leaves s (andThen o f) (andThen o g) := by
  cases o with
  | next a => exact h a rfl
  | fault q => exact .fault q
  | refused r => exact .refused r

/-- After an error the run is at rest. -/
theorem leaves_raiseError (k : Nat) {b d w c : List Val} {g : BitVec 3} {x : Val} (e : ErrorKind) :
    Leaves s (.next (.error e))
      (steps k (raiseError e (if e = .allZeroImage then 6 else 1) { running s g b d w c with gmax := x })) := by
  rw [steps_of_rest k rfl rfl]
  exact .error ⟨rfl, rfl, rfl, rfl, rfl⟩

/-- From CHK on, six turns do what the evaluation does. -/
theorem leaves_run (s : State) (b d w c : List Val) : Leaves s (evaluate s) (steps 6 (running s 1 b d w c)) := by
  rw [evaluate, steps_chk]
  refine leaves_andThen fun _ hneed => ?_
  obtain ⟨hh, hw, hp, -⟩ := by simpa only [List.forall_mem_cons] using need_eq_next.1 hneed
  have hf : FrameSupplied s := ⟨hh, hw⟩
  by_cases hdim : s.H % 2 ≠ 0 ∨ s.W % 2 ≠ 0
  · rw [if_pos hdim, if_pos hdim]
    exact leaves_raiseError 5 .dimension
  rw [if_neg hdim, if_neg hdim]
  by_cases hcfa : cfaLegal s.cfa = false
  · rw [if_pos hcfa, if_neg (by simp [hcfa])]
    exact leaves_raiseError 5 .filterPattern
  rw [if_neg hcfa, if_pos (by simpa using hcfa), steps_blc 4 hf hp]
  refine leaves_andThen fun _ _ => leaves_andThen fun b _ => ?_
  rw [steps_dem 3 hf hp]
  refine leaves_andThen fun d _ => ?_
  rw [steps_wbs 2 hf]
  refine leaves_andThen fun _ _ => leaves_andThen fun w _ => ?_
  rw [steps_cct 1 hf]
  refine leaves_andThen fun c _ => ?_
  rw [steps_gam 0 hf]
  refine leaves_andThen fun ⟨m, o⟩ hgam => ?_
  cases o with
  | none => exact leaves_raiseError 0 .allZeroImage
  | some px => exact .image ⟨rfl, rfl, gamImage_length hgam, rfl, rfl, rfl⟩

end

/-- A run left alone never faults: each operation finds its artifact complete. -/
theorem steps_ne_fault (k : Nat) {s : State} (h : ArtifactsReady s) (ha : s.agenda = []) (q : Fault) :
    steps k s ≠ .fault q := by
  induction k generalizing s with
  | zero => nofun
  | succ k ih =>
    cases hb : s.status.busy with
    | false =>
      rw [steps_of_rest _ ha hb]
      nofun
    | true =>
      have hruns : Runs (decodeStage s.status.stage) s := .inl ⟨rfl, hb⟩
      rw [steps_succ, step_alone_of_busy ha hb]
      cases hx : exec (decodeStage s.status.stage) s with
      | fault r => exact absurd hx (exec_ne_fault hruns h r)
      | refused r => nofun
      | next t =>
        obtain ⟨-, hagenda, -⟩ := exec_frame hx
        exact ih (artifactsReady_exec _ s t hruns hx h) (hagenda.trans ha)

/-- Settles O24: after START the run and the evaluation come to the same, and the run does not fault. -/
theorem aRunIsOneEvaluation : Obligations.ARunIsOneEvaluation := by
  intro s hs
  have begun : steps 7 s = steps 6 (running s 1 s.artBlc s.artDem s.artWbs s.artCct) :=
    steps_succ_of_next (step_of_atStart hs)
  have run := leaves_run s s.artBlc s.artDem s.artWbs s.artCct
  have noFault (q : Fault) : steps 7 s ≠ .fault q :=
    begun ▸ steps_ne_fault 6 (artifactsReady_of_stage (.inr (.inl rfl))) rfl q
  rw [← begun] at run
  generalize evaluate s = e at run
  generalize steps 7 s = o at run noFault
  cases run with
  | error h => exact ⟨_, rfl, h⟩
  | image h => exact ⟨_, rfl, h⟩
  | fault q => exact noFault q rfl
  | refused r => rfl

end Sys2Proof.Machine

end

/-! ## Code words (O1, O2, O3, O19)

The two formats: a command word decodes by its low four bits, a stage code is the whole word. -/

section

namespace Sys2Proof

/-! ### Command words -/

theorem cmdField_toNat (d : Word) : (cmdField d).toNat = d.toNat % 16 := by
  rw [cmdField, BitVec.extractLsb'_toNat, Nat.shiftRight_zero]

theorem cmdField_eq_iff (d : Word) (c : BitVec 4) : cmdField d = c ↔ d.toNat % 16 = c.toNat := by
  rw [← BitVec.toNat_inj, cmdField_toNat]

theorem decodeCommand_start {d : Word} (h : d.toNat % 16 = 1) : decodeCommand d = .start :=
  if_pos ((cmdField_eq_iff d 1).2 h)

theorem decodeCommand_clear {d : Word} (h : d.toNat % 16 = 2) : decodeCommand d = .clear := by
  have hcmd : cmdField d = 2 := (cmdField_eq_iff d 2).2 h
  rw [decodeCommand, hcmd]
  rfl

theorem decodeCommand_reserved {d : Word} (h1 : d.toNat % 16 ≠ 1) (h2 : d.toNat % 16 ≠ 2) :
    decodeCommand d = .reservedCmd (cmdField d) := by
  rw [decodeCommand, if_neg ((cmdField_eq_iff d 1).not.2 h1), if_neg ((cmdField_eq_iff d 2).not.2 h2)]

/-- The three rows of the command table, by the low four bits. -/
theorem low_bits_cases (d : Word) :
    d.toNat % 16 = 1 ∨ d.toNat % 16 = 2 ∨ d.toNat % 16 ≠ 1 ∧ d.toNat % 16 ≠ 2 := by
  omega

/-- A command code, zero-extended to a word, is the CMD field of that word. -/
theorem cmdField_setWidth (c : BitVec 4) : cmdField (c.setWidth 64) = c := by
  have hlt : c.toNat < 16 := c.isLt
  rw [cmdField_eq_iff, BitVec.toNat_setWidth]
  omega

theorem setWidth_cmdField (d : Word) : (cmdField d).setWidth 64 = BitVec.ofNat 64 (d.toNat % 16) := by
  rw [← cmdField_toNat, BitVec.ofNat_toNat]

/-! ### Encoding and decoding -/

theorem decode_encode {i : Instr} (h : i.wf = true) : decode (encode i) = i := by
  cases i with
  | reservedCmd c =>
    obtain ⟨h1, h2⟩ : c ≠ 1 ∧ c ≠ 2 := by simpa [Instr.wf] using h
    rw [encode, decode, decodeCommand, cmdField_setWidth, if_neg h1, if_neg h2]
  | start => decide
  | clear => decide
  | _ => rfl

theorem decode_wf (c : Code) : (decode c).wf = true := by
  cases c with
  | command d =>
    rw [decode]
    rcases low_bits_cases d with h | h | ⟨h1, h2⟩
    · rw [decodeCommand_start h, Instr.wf]
    · rw [decodeCommand_clear h, Instr.wf]
    · rw [decodeCommand_reserved h1 h2, Instr.wf, bne_iff_ne.2 ((cmdField_eq_iff d 1).not.2 h1),
        bne_iff_ne.2 ((cmdField_eq_iff d 2).not.2 h2), Bool.and_true]
  | stage g =>
    revert g
    decide

theorem encode_decodeStage (g : BitVec 3) : encode (decodeStage g) = .stage g := by
  revert g
  decide

theorem encode_decodeCommand (d : Word) : encode (decodeCommand d) = .command (BitVec.ofNat 64 (d.toNat % 16)) := by
  rcases low_bits_cases d with h | h | ⟨h1, h2⟩
  · rw [decodeCommand_start h, h]
    rfl
  · rw [decodeCommand_clear h, h]
    rfl
  · rw [decodeCommand_reserved h1 h2, encode, setWidth_cmdField]

/-! ### Words of the opcode table -/

/-- A word of 64 bits is a command word. -/
theorem decodeTableWord_command {w : Nat} (hw : w < 2 ^ 64) :
    decodeTableWord 64 w = some (decodeCommand (BitVec.ofNat 64 w)) := by
  rw [decodeTableWord, Machine.readCode_command hw]
  rfl

/-- A word of 8 bits that is a stage code is one. -/
theorem decodeTableWord_stage (c : BitVec 3) : decodeTableWord 8 c.toNat = some (decodeStage c) := by
  rw [decodeTableWord, Machine.readCode_stage]
  rfl

theorem toNat_ofNat_mod {w : Nat} (hw : w < 2 ^ 64) : (BitVec.ofNat 64 w).toNat % 16 = w % 16 := by
  rw [BitVec.toNat_ofNat, Nat.mod_eq_of_lt hw]

theorem decodeTableWord_start {w : Nat} (hw : w < 2 ^ 64) (h : w % 16 = 1) : decodeTableWord 64 w = some .start := by
  rw [decodeTableWord_command hw, decodeCommand_start ((toNat_ofNat_mod hw).trans h)]

theorem decodeTableWord_clear {w : Nat} (hw : w < 2 ^ 64) (h : w % 16 = 2) : decodeTableWord 64 w = some .clear := by
  rw [decodeTableWord_command hw, decodeCommand_clear ((toNat_ofNat_mod hw).trans h)]

theorem decodeTableWord_reserved {w : Nat} (hw : w < 2 ^ 64) {c : BitVec 4} (h : w % 16 = c.toNat)
    (h1 : w % 16 ≠ 1) (h2 : w % 16 ≠ 2) : decodeTableWord 64 w = some (.reservedCmd c) := by
  have hlow := toNat_ofNat_mod hw
  rw [decodeTableWord_command hw, decodeCommand_reserved (hlow ▸ h1) (hlow ▸ h2),
    (cmdField_eq_iff _ c).2 (hlow.trans h)]

/-! ### The obligations -/

/-- Settles O1: command words by their low four bits, stage codes by themselves. -/
theorem tableWordsDecode : Obligations.TableWordsDecode :=
  ⟨rfl, decodeTableWord_start (by norm_num) (by norm_num), decodeTableWord_start (by norm_num) (by norm_num),
    decodeTableWord_clear (by norm_num) (by norm_num), decodeTableWord_clear (by norm_num) (by norm_num),
    decodeTableWord_reserved (by norm_num) rfl (by norm_num) (by norm_num),
    decodeTableWord_reserved (by norm_num) rfl (by norm_num) (by norm_num),
    decodeTableWord_stage 2, decodeTableWord_stage 6⟩

/-- Settles O2: the field CMD is the low four bits. -/
theorem commandsDecodeByTheirLowBits : Obligations.CommandsDecodeByTheirLowBits := fun d =>
  ⟨decodeCommand_start, decodeCommand_clear, fun h1 h2 => ⟨cmdField d, cmdField_toNat d, decodeCommand_reserved h1 h2⟩⟩

/-- Settles O3: the round trips, format by format. -/
theorem encodeDecodeAgree : Obligations.EncodeDecodeAgree :=
  ⟨fun _ => decode_encode, decode_wf, encode_decodeStage, encode_decodeCommand⟩

/-- Settles O19: a command word that is neither START nor CLEAR is a reserved command, which does nothing. -/
theorem reservedAndRestingChangeNothing : Obligations.ReservedAndRestingChangeNothing := by
  intro s
  have reserved (c : BitVec 4) : Machine.exec (.reservedCmd c) s = .next s := rfl
  exact ⟨reserved, fun d h1 h2 => by rw [Machine.wreg_ctrl, decodeCommand_reserved h1 h2, reserved], rfl, rfl⟩

end Sys2Proof

end

/-! ## Pseudo-instructions (O5)

Every pseudo-instruction expands to writes of registers by number. -/

section

namespace Sys2Proof.Machine

/-- Settles O5: each expansion computes. -/
theorem pseudoInstructionsExpand : Obligations.PseudoInstructionsExpand :=
  ⟨rfl, rfl, rfl, rfl, rfl, rfl, rfl, rfl, rfl, rfl, fun _ _ _ _ => ⟨rfl, rfl⟩⟩

end Sys2Proof.Machine

end

/-! ## The loops `wait` and `run` (O23)

Every turn of the sequencer leaves fewer turns to the end of the run, so a loop that gives it turns until BUSY = 0
ends, unless a turn is refused. -/

section

namespace Sys2Proof.Machine

open Sys2Proof.Safety

/-! ### The turns of a run -/

/-- How many turns of the sequencer a run takes to END at most: one for each stage left (R83). -/
def turnsLeft (s : State) : Nat := if s.status.busy then 7 - s.status.stage.toNat else 0

theorem turnsLeft_of_busy {s : State} (hb : s.status.busy = true) : turnsLeft s = 7 - s.status.stage.toNat := if_pos hb

theorem turnsLeft_of_not_busy {s : State} (hb : s.status.busy = false) : turnsLeft s = 0 := by simp [turnsLeft, hb]

theorem turnsLeft_le {s : State} (h : BlockInv s) : turnsLeft s ≤ 6 := by
  cases hb : s.status.busy with
  | false => simp [turnsLeft_of_not_busy hb]
  | true =>
    obtain ⟨h1, -⟩ := statusLegal_busy h.1 hb
    rw [turnsLeft_of_busy hb]
    omega

theorem turnsLeft_pos {s : State} (h : BlockInv s) (hb : s.status.busy = true) : 0 < turnsLeft s := by
  obtain ⟨-, h6, -⟩ := statusLegal_busy h.1 hb
  rw [turnsLeft_of_busy hb]
  omega

theorem blockInv_exec {i : Instr} {s t : State} (hi : Runs i s) (hx : exec i s = .next t) (h : BlockInv s) :
    BlockInv t := by
  obtain ⟨hstatus, herrinfo, hmem, hart⟩ := h
  exact ⟨statusLegal_exec i s t hi hx hstatus, errinfoLegal_exec i s t hx herrinfo, memoriesLegal_exec i s t hx hmem,
    artifactsReady_exec i s t hi hx hart⟩

/-- `t` is what a turn of the run in `s` leaves: the same events to come and operands, and fewer turns. -/
structure TurnedTo (s t : State) : Prop where
  inv : BlockInv t
  agenda : t.agenda = s.agenda
  operands : operandsOf t = operandsOf s
  turns : turnsLeft t < turnsLeft s

/-- A turn in a run brings it nearer to its end, or is refused. -/
theorem sequencerTurn_of_run {s : State} (h : BlockInv s) (hb : s.status.busy = true) :
    (∃ t, sequencerTurn s = .next t ∧ TurnedTo s t) ∨ ∃ r, sequencerTurn s = .refused r := by
  have hruns : Runs (decodeStage s.status.stage) s := .inl ⟨rfl, hb⟩
  have ⟨hstatus, _, _, hart⟩ := h
  obtain ⟨h1, h6, -⟩ := statusLegal_busy hstatus hb
  rw [sequencerTurn_of_busy hb]
  cases hx : exec (decodeStage s.status.stage) s with
  | fault q => exact absurd hx (exec_ne_fault hruns hart q)
  | refused r => exact .inr ⟨r, rfl⟩
  | next t =>
    have ht := blockInv_exec hruns hx h
    obtain ⟨hagenda, hstage⟩ := exec_operation_stage h1 h6 hx
    refine .inl ⟨t, rfl, ht, hagenda, exec_operands hx, ?_⟩
    cases htb : t.status.busy with
    | false =>
      rw [turnsLeft_of_not_busy htb]
      exact turnsLeft_pos h hb
    | true =>
      obtain ⟨-, ht6, -⟩ := statusLegal_busy ht.1 htb
      rw [turnsLeft_of_busy hb, turnsLeft_of_busy htb]
      rcases hstage with hstage | hstage
      · omega
      · simp [hstage] at ht6

/-! ### Loops -/

/-- Within `n` steps from `s` a state with `Done` is reached; or before the last of them one with `Before`, whose next
step is refused. -/
def LoopEnds (Done Before : State → Prop) (n : Nat) (s : State) : Prop :=
  (∃ k t, k ≤ n ∧ steps k s = .next t ∧ Done t)
  ∨ ∃ k t r, k < n ∧ steps k s = .next t ∧ Before t ∧ step t = .refused r

section

variable {Done Before : State → Prop} {n : Nat} {s t : State}

theorem loopEnds_of_done (h : Done s) : LoopEnds Done Before n s := .inl ⟨0, s, Nat.zero_le n, rfl, h⟩

theorem loopEnds_of_refused {r : Refusal} (h : Before s) (hr : step s = .refused r) : LoopEnds Done Before (n + 1) s :=
  .inr ⟨0, s, r, Nat.succ_pos n, rfl, h, hr⟩

theorem loopEnds_of_step (hst : step s = .next t) (h : LoopEnds Done Before n t) : LoopEnds Done Before (n + 1) s := by
  rcases h with ⟨k, u, hk, hu, hdone⟩ | ⟨k, u, r, hk, hu, hbefore, hr⟩
  · exact .inl ⟨k + 1, u, Nat.succ_le_succ hk, (steps_succ_of_next hst).trans hu, hdone⟩
  · exact .inr ⟨k + 1, u, r, Nat.succ_lt_succ hk, (steps_succ_of_next hst).trans hu, hbefore, hr⟩

end

/-- The loop `e` that was begun with the operands of `s₀` is what happens next, with `rest` after it. -/
structure AtLoop (s₀ : State) (e : Event) (rest : List Event) (s : State) : Prop where
  inv : BlockInv s
  agenda : s.agenda = e :: rest
  operands : operandsOf s = operandsOf s₀

/-- With no turn left the block is not busy. -/
theorem AtLoop.not_busy {s₀ s : State} {e : Event} {rest : List Event} (h : AtLoop s₀ e rest s) (hk : turnsLeft s ≤ 0) :
    s.status.busy = false := by
  by_contra hb
  have := turnsLeft_pos h.inv (by simpa using hb)
  omega

section

variable {s₀ s : State} {rest : List Event}

/-! ### The mark `run` -/

theorem step_run_of_not_busy (ha : s.agenda = .run :: rest) (hb : s.status.busy = false) :
    step s = .next { s with agenda := rest } := by
  rw [step_of_event ha, perform, runMark, if_neg (by simp [hb])]

theorem step_run_of_busy (ha : s.agenda = .run :: rest) (hb : s.status.busy = true) :
    step s = andThen (sequencerTurn { s with agenda := rest }) fun t => .next { t with agenda := .run :: t.agenda } := by
  rw [step_of_event ha, perform, runMark, if_pos hb]

/-- What `run` leaves: the events after it, a block at rest, and the operands. -/
def RunDone (s₀ : State) (rest : List Event) (t : State) : Prop :=
  t.agenda = rest ∧ t.status.busy = false ∧ operandsOf t = operandsOf s₀

/-- The mark `run` is what happens next. -/
def BeforeRun (rest : List Event) (t : State) : Prop := t.agenda = .run :: rest

theorem loopEnds_run_of_not_busy (n : Nat) (h : AtLoop s₀ .run rest s) (hb : s.status.busy = false) :
    LoopEnds (RunDone s₀ rest) (BeforeRun rest) (n + 1) s :=
  loopEnds_of_step (step_run_of_not_busy h.agenda hb) (loopEnds_of_done ⟨rfl, hb, h.operands⟩)

/-- One step for each turn, and one to find the block at rest. -/
theorem loopEnds_run (k : Nat) (h : AtLoop s₀ .run rest s) (hk : turnsLeft s ≤ k) :
    LoopEnds (RunDone s₀ rest) (BeforeRun rest) (k + 1) s := by
  induction k generalizing s with
  | zero => exact loopEnds_run_of_not_busy 0 h (h.not_busy hk)
  | succ k ih =>
    cases hb : s.status.busy with
    | false => exact loopEnds_run_of_not_busy _ h hb
    | true =>
      have hstep := step_run_of_busy h.agenda hb
      rcases sequencerTurn_of_run (s := { s with agenda := rest }) h.inv hb with ⟨t, ht, hturned⟩ | ⟨r, hr⟩
      · rw [ht, andThen_next] at hstep
        have hturns : turnsLeft t < turnsLeft s := hturned.turns
        refine loopEnds_of_step hstep (ih ⟨hturned.inv, ?_, hturned.operands.trans h.operands⟩ ?_)
        · exact congrArg (Event.run :: ·) hturned.agenda
        · change turnsLeft t ≤ k
          omega
      · rw [hr, andThen_refused] at hstep
        exact loopEnds_of_refused h.agenda hstep

/-! ### The loop `wait` -/

/-- `wait` reads STATUS, and bit 0 of the word is BUSY. -/
theorem step_wait (ha : s.agenda = .wait :: rest) :
    step s = .next { s with
      reply := s.status.word, agenda := if s.status.busy then .seq :: .wait :: rest else rest } := by
  have hread := rreg_number_of_hasValue (r := .status) (s := { s with agenda := rest }) rfl
  have hbusy : s.status.word.getLsbD 0 = s.status.busy := (status_word_fields s.status).1
  rw [step_of_event ha, perform, waitMark, hread]
  simp only [Reg.word, hbusy]
  split <;> rfl

/-- What `wait` leaves: the events after it, a block at rest, its STATUS word read, and the operands. -/
def WaitDone (s₀ : State) (rest : List Event) (t : State) : Prop :=
  t.agenda = rest ∧ t.status.busy = false ∧ t.reply = t.status.word ∧ operandsOf t = operandsOf s₀

/-- The turn between two reads of `wait` is what happens next. -/
def BetweenReads (rest : List Event) (t : State) : Prop := t.agenda = .seq :: .wait :: rest

theorem loopEnds_wait_of_not_busy (n : Nat) (h : AtLoop s₀ .wait rest s) (hb : s.status.busy = false) :
    LoopEnds (WaitDone s₀ rest) (BetweenReads rest) (n + 1) s := by
  have hstep := step_wait h.agenda
  rw [hb] at hstep
  exact loopEnds_of_step hstep (loopEnds_of_done ⟨rfl, hb, rfl, h.operands⟩)

/-- A read and a turn for each turn left, and one read of the block at rest. -/
theorem loopEnds_wait (k : Nat) (h : AtLoop s₀ .wait rest s) (hk : turnsLeft s ≤ k) :
    LoopEnds (WaitDone s₀ rest) (BetweenReads rest) (2 * k + 1) s := by
  induction k generalizing s with
  | zero => exact loopEnds_wait_of_not_busy 0 h (h.not_busy hk)
  | succ k ih =>
    cases hb : s.status.busy with
    | false => exact loopEnds_wait_of_not_busy _ h hb
    | true =>
      have hread := step_wait h.agenda
      rw [hb] at hread
      refine loopEnds_of_step hread ?_
      have hstep := step_of_event (s := { s with reply := s.status.word, agenda := .seq :: .wait :: rest }) rfl
      rw [perform] at hstep
      rcases sequencerTurn_of_run (s := { s with reply := s.status.word, agenda := .wait :: rest }) h.inv hb with
        ⟨t, ht, hturned⟩ | ⟨r, hr⟩
      · have hturns : turnsLeft t < turnsLeft s := hturned.turns
        exact loopEnds_of_step (hstep.trans ht)
          (ih ⟨hturned.inv, hturned.agenda, hturned.operands.trans h.operands⟩ (by omega))
      · exact loopEnds_of_refused rfl (hstep.trans hr)

end

/-- Settles O23: a run has six turns left at most. -/
theorem waitAndRunEnd : Obligations.WaitAndRunEnd := by
  intro s rest hinv
  have hturns := turnsLeft_le hinv
  refine ⟨fun ha => ?_, fun ha => ?_⟩
  · rcases loopEnds_wait 6 ⟨hinv, ha, rfl⟩ hturns with hdone | ⟨k, t, r, hk, ht, hbefore, hr⟩
    · exact .inl hdone
    · exact .inr ⟨k, t, r, Nat.le_of_lt_succ hk, ht, hbefore, hr⟩
  · rcases loopEnds_run 6 ⟨hinv, ha, rfl⟩ hturns with hdone | ⟨k, t, r, hk, ht, hbefore, hr⟩
    · exact .inl hdone
    · exact .inr ⟨k, t, r, Nat.le_of_lt_succ hk, ht, hbefore, hr⟩

end Sys2Proof.Machine

end

/-! ## Data words (O4)

A data word is its sign, exponent and fraction (R66). These three give the magnitude in units; every `Val` has such
three, and `enc` finds them. -/

section

namespace Sys2Proof

/-! ### The fields of a data word -/

/-- The sign, bit 63. -/
def signBit (d : Word) : Bool := decide (d.toNat / 2 ^ 63 = 1)

/-- The exponent field `e`, bits [62:52]. -/
def expField (d : Word) : Nat := d.toNat / 2 ^ 52 % 2 ^ 11

/-- The fraction `f`, bits [51:0]. -/
def fracField (d : Word) : Nat := d.toNat % 2 ^ 52

/-- The word with these fields. -/
def dataWord (neg : Bool) (e f : Nat) : Word := BitVec.ofNat 64 (neg.toNat * 2 ^ 63 + (e * 2 ^ 52 + f))

theorem fracField_lt (d : Word) : fracField d < 2 ^ 52 := Nat.mod_lt _ (Nat.two_pow_pos 52)

theorem expField_lt (d : Word) : expField d < 2 ^ 11 := Nat.mod_lt _ (Nat.two_pow_pos 11)

/-- A word is made of its fields. -/
theorem dataWord_fields (d : Word) : dataWord (signBit d) (expField d) (fracField d) = d := by
  have hlt := d.isLt
  refine BitVec.eq_of_toNat_eq ?_
  rw [dataWord, BitVec.toNat_ofNat, signBit, expField, fracField]
  by_cases hs : d.toNat / 2 ^ 63 = 1
  · rw [decide_eq_true hs, Bool.toNat_true]
    omega
  · rw [decide_eq_false hs, Bool.toNat_false]
    omega

theorem toNat_dataWord (neg : Bool) {e f : Nat} (he : e < 2 ^ 11) (hf : f < 2 ^ 52) :
    (dataWord neg e f).toNat = neg.toNat * 2 ^ 63 + (e * 2 ^ 52 + f) := by
  have hneg := Bool.toNat_le neg
  rw [dataWord, BitVec.toNat_ofNat, Nat.mod_eq_of_lt]
  generalize neg.toNat = s at hneg ⊢
  omega

/-- The fields of the word made of a sign, an exponent and a fraction are these. -/
theorem fields_dataWord (neg : Bool) {e f : Nat} (he : e < 2 ^ 11) (hf : f < 2 ^ 52) :
    signBit (dataWord neg e f) = neg ∧ expField (dataWord neg e f) = e ∧ fracField (dataWord neg e f) = f := by
  have hsign : neg = decide (neg.toNat = 1) := by cases neg <;> rfl
  rw [signBit, expField, fracField, toNat_dataWord neg he hf]
  refine ⟨Eq.trans (decide_eq_decide.2 ?_) hsign.symm, ?_, ?_⟩
  all_goals
    generalize neg.toNat = s
    omega

/-! ### Magnitudes -/

/-- The magnitude that exponent field `e` and fraction `f` stand for, in units of 2^-1074. -/
def magnitude (e f : Nat) : Nat := if e = 0 then f else (2 ^ 52 + f) * 2 ^ (e - 1)

theorem magnitude_zero (f : Nat) : magnitude 0 f = f := rfl

theorem magnitude_succ (e f : Nat) : magnitude (e + 1) f = (2 ^ 52 + f) * 2 ^ e := rfl

/-- `m` units with the sign of the word. -/
def signed (neg : Bool) (m : Nat) : Int := if neg then -(m : Int) else m

@[simp] theorem natAbs_signed (neg : Bool) (m : Nat) : (signed neg m).natAbs = m := by
  cases neg with
  | false => exact Int.natAbs_natCast m
  | true => exact (Int.natAbs_neg _).trans (Int.natAbs_natCast m)

theorem signed_natAbs (u : Int) : signed (decide (u < 0)) u.natAbs = u := by
  unfold signed
  by_cases hu : u < 0
  · rw [if_pos (decide_eq_true hu)]
    omega
  · rw [if_neg (by simpa using hu)]
    omega

theorem signed_neg_iff {neg : Bool} {m : Nat} (h : neg = true → m ≠ 0) : signed neg m < 0 ↔ neg = true := by
  cases neg with
  | false => simp [signed]
  | true =>
    have := h rfl
    simp only [signed, if_true, iff_true]
    omega

/-- From the least normal magnitude on, the exponent field counts the bits lost, and the fraction is what follows the
leading bit. -/
theorem lostBits_magnitude_succ {f : Nat} (e : Nat) (hf : f < 2 ^ 52) : lostBits (magnitude (e + 1) f) = e := by
  have hlog : (magnitude (e + 1) f).log2 = 52 + e := by
    have hpos := Nat.two_pow_pos e
    rw [magnitude_succ, Nat.log2_eq_iff (by positivity), add_right_comm, pow_add, pow_add]
    exact ⟨Nat.mul_le_mul_right _ (by omega), (Nat.mul_lt_mul_right hpos).2 (by omega)⟩
  rw [lostBits, hlog]
  omega

theorem le_magnitude_succ (e f : Nat) : 2 ^ 52 ≤ magnitude (e + 1) f := by
  rw [magnitude_succ]
  exact (Nat.le_add_right _ f).trans (Nat.le_mul_of_pos_right _ (Nat.two_pow_pos e))

theorem two_pow_le_magLimit {k : Nat} (hk : k ≤ 2098) : 2 ^ k ≤ Val.magLimit :=
  Nat.pow_le_pow_right (by norm_num) (by rwa [Val.magBits])

theorem lt_of_two_pow_lt_magLimit {k : Nat} (h : 2 ^ k < Val.magLimit) : k < 2098 := by
  by_contra hk
  have : Val.magLimit ≤ 2 ^ k := Nat.pow_le_pow_right (by norm_num) (by rw [Val.magBits]; omega)
  omega

/-- Exponent fields below 2047 give finite binary64 numbers. -/
theorem fits_magnitude (neg : Bool) {e f : Nat} (he : e < 2047) (hf : f < 2 ^ 52) :
    Val.Fits (signed neg (magnitude e f)) := by
  unfold Val.Fits
  rw [natAbs_signed, bitLog_eq]
  change magnitude e f < _ ∧ magnitude e f % 2 ^ lostBits (magnitude e f) = 0
  cases e with
  | zero =>
    have hk : lostBits f = 0 := Nat.le_zero.1 (lostBits_le_of_lt (by omega))
    rw [magnitude_zero, hk]
    exact ⟨hf.trans_le (two_pow_le_magLimit (by norm_num)), Nat.mod_one f⟩
  | succ e =>
    rw [lostBits_magnitude_succ e hf, magnitude_succ]
    refine ⟨?_, Nat.mul_mod_left _ _⟩
    calc (2 ^ 52 + f) * 2 ^ e < 2 ^ 53 * 2 ^ e := (Nat.mul_lt_mul_right (Nat.two_pow_pos e)).2 (by omega)
      _ = 2 ^ (53 + e) := (pow_add 2 53 e).symm
      _ ≤ Val.magLimit := two_pow_le_magLimit (by omega)

/-- Every `Val` has the magnitude of an exponent field and a fraction. -/
theorem exists_magnitude (v : Val) : ∃ e f, e < 2047 ∧ f < 2 ^ 52 ∧ v.units.natAbs = magnitude e f := by
  have hlimit : v.units.natAbs < Val.magLimit := v.fits.1
  have hsig : v.units.natAbs % 2 ^ lostBits v.units.natAbs = 0 := v.significant
  generalize v.units.natAbs = m at *
  rcases Nat.lt_or_ge m (2 ^ 52) with hsmall | hlarge
  · exact ⟨0, m, by norm_num, hsmall, rfl⟩
  · obtain ⟨q, hq⟩ := Nat.dvd_of_mod_eq_zero hsig
    have hhigh := lt_two_pow_lostBits m
    have hlow : 2 ^ 52 * 2 ^ lostBits m ≤ m := by
      rcases Nat.eq_zero_or_pos (lostBits m) with h0 | hpos
      · rwa [h0, pow_zero, Nat.mul_one]
      · exact two_pow_le_of_lostBits_pos hpos
    have hk : 52 + lostBits m < 2098 := lt_of_two_pow_lt_magLimit (by
      rw [pow_add]
      exact hlow.trans_lt hlimit)
    generalize lostBits m = k at *
    rw [hq, Nat.mul_comm (2 ^ k) q] at hhigh hlow
    have hqlow := Nat.le_of_mul_le_mul_right hlow (Nat.two_pow_pos k)
    have hqhigh := Nat.lt_of_mul_lt_mul_right hhigh
    refine ⟨k + 1, q - 2 ^ 52, by omega, by omega, ?_⟩
    rw [magnitude_succ, Nat.add_sub_cancel' hqlow, hq, Nat.mul_comm]

/-! ### Decoding and encoding -/

theorem Val.dec_eq (d : Word) :
    Val.dec d = if expField d = 2047 then none
      else Val.ofUnits (signed (signBit d) (magnitude (expField d) (fracField d))) := by
  have hexp : (d.extractLsb' 52 11).toNat = expField d := by
    rw [BitVec.extractLsb'_toNat, Nat.shiftRight_eq_div_pow, expField]
  have hfrac : (d.extractLsb' 0 52).toNat = fracField d := by
    rw [BitVec.extractLsb'_toNat, Nat.shiftRight_zero, fracField]
  have hsign : d.getLsbD 63 = signBit d := by
    have hlt := d.isLt
    rw [BitVec.getLsbD, Nat.testBit_eq_decide_div_mod_eq, signBit]
    exact decide_eq_decide.2 (by omega)
  unfold Val.dec
  rw [hexp, hfrac, hsign]
  rfl

/-- Only the exponent field 2047 keeps a word from being a `Val`. -/
theorem Val.dec_eq_none_iff (d : Word) : Val.dec d = none ↔ expField d = 2047 := by
  rw [Val.dec_eq]
  constructor
  · intro h
    by_contra he
    have hlt := expField_lt d
    rw [if_neg he, Val.ofUnits, dif_pos (fits_magnitude _ (by omega) (fracField_lt d))] at h
    cases h
  · exact fun h => if_pos h

theorem Val.dec_eq_some_iff {d : Word} {v : Val} :
    Val.dec d = some v ↔
      expField d ≠ 2047 ∧ v.units = signed (signBit d) (magnitude (expField d) (fracField d)) := by
  rw [Val.dec_eq]
  split
  · next h => simp [h]
  · next h => rw [Val.ofUnits_eq_some, and_iff_right h]

/-- What `enc` writes below the sign bit. -/
theorem encoded_magnitude {e f : Nat} (hf : f < 2 ^ 52) :
    (if magnitude e f < 2 ^ 52 then magnitude e f
      else (lostBits (magnitude e f) + 1) * 2 ^ 52 + (magnitude e f / 2 ^ lostBits (magnitude e f) - 2 ^ 52))
      = e * 2 ^ 52 + f := by
  cases e with
  | zero => rw [magnitude_zero, if_pos hf, Nat.zero_mul, Nat.zero_add]
  | succ e =>
    rw [if_neg (Nat.not_lt.2 (le_magnitude_succ e f)), lostBits_magnitude_succ e hf, magnitude_succ,
      Nat.mul_div_cancel _ (Nat.two_pow_pos e), Nat.add_sub_cancel_left]

/-- `enc` of a `Val` is the word of its sign, exponent and fraction; the sign of zero is that of the one zero. -/
theorem Val.enc_eq {v : Val} {neg : Bool} {e f : Nat} (hf : f < 2 ^ 52) (hv : v.units = signed neg (magnitude e f))
    (hzero : neg = true → magnitude e f ≠ 0) : v.enc = dataWord neg e f := by
  have hbody := encoded_magnitude (e := e) hf
  unfold lostBits at hbody
  have henc : v.enc = BitVec.ofNat 64 (if v.units < 0 then 2 ^ 63 + (e * 2 ^ 52 + f) else e * 2 ^ 52 + f) := by
    unfold Val.enc
    dsimp only
    rw [show v.units.natAbs = magnitude e f by rw [hv, natAbs_signed], bitLog_eq, hbody]
  have hsign := signed_neg_iff hzero
  rw [henc, dataWord, hv]
  cases neg with
  | false => rw [if_neg (by simp [hsign]), Bool.toNat_false, Nat.zero_mul, Nat.zero_add]
  | true => rw [if_pos (hsign.2 rfl), Bool.toNat_true, Nat.one_mul]

theorem Val.dec_enc (v : Val) : Val.dec v.enc = some v := by
  obtain ⟨e, f, he, hf, hm⟩ := exists_magnitude v
  have hv : v.units = signed (decide (v.units < 0)) (magnitude e f) := by rw [← hm, signed_natAbs]
  have henc : v.enc = dataWord (decide (v.units < 0)) e f := Val.enc_eq hf hv fun h => by
    have := of_decide_eq_true h
    omega
  obtain ⟨hsign, hexp, hfrac⟩ := fields_dataWord (decide (v.units < 0)) (e := e) (by omega) hf
  rw [henc, Val.dec_eq_some_iff, hsign, hexp, hfrac]
  exact ⟨by omega, hv⟩

theorem magnitude_eq_zero_iff {e f : Nat} : magnitude e f = 0 ↔ e = 0 ∧ f = 0 := by
  cases e with
  | zero => simp [magnitude_zero]
  | succ e =>
    have := le_magnitude_succ e f
    simp only [Nat.succ_ne_zero, false_and, iff_false]
    omega

/-- Every word that decodes but the other zero is the encoding of what it decodes to. -/
theorem Val.enc_of_dec {d : Word} {v : Val} (hd : Val.dec d = some v) (hne : d ≠ 0x8000000000000000) :
    v.enc = d := by
  obtain ⟨-, hv⟩ := Val.dec_eq_some_iff.1 hd
  rw [Val.enc_eq (fracField_lt d) hv, dataWord_fields]
  intro hneg hm
  obtain ⟨he, hf⟩ := magnitude_eq_zero_iff.1 hm
  have hfields := dataWord_fields d
  rw [hneg, he, hf] at hfields
  exact hne hfields.symm

/-! ### The numbers -/

/-- The number of a magnitude, by the two formulas of R66. -/
theorem magnitude_toRat (e f : Nat) :
    (magnitude e f : ℚ) / Val.unitsPerOne =
      if e = 0 then (2 : ℚ) ^ (-1022 : ℤ) * (f / 2 ^ 52) else (2 : ℚ) ^ ((e : ℤ) - 1023) * (1 + f / 2 ^ 52) := by
  have hunits : (Val.unitsPerOne : ℚ) = 2 ^ (1022 : ℤ) * 2 ^ 52 := by
    rw [Val.unitsPerOne, Val.unitBits, Nat.cast_pow, Nat.cast_ofNat, zpow_ofNat, ← pow_add]
  rw [hunits]
  have hne : (2 : ℚ) ^ (1022 : ℤ) ≠ 0 := zpow_ne_zero _ (by norm_num)
  cases e with
  | zero =>
    rw [magnitude_zero, if_pos rfl, zpow_neg]
    generalize (2 : ℚ) ^ (1022 : ℤ) = a at hne
    field_simp
  | succ e =>
    have hpow : (2 : ℚ) ^ (((e + 1 : ℕ) : ℤ) - 1023) = 2 ^ e / 2 ^ (1022 : ℤ) := by
      rw [← zpow_natCast, ← zpow_sub₀ (by norm_num)]
      congr 1
      push_cast
      ring
    rw [magnitude_succ, if_neg (Nat.succ_ne_zero e), hpow]
    generalize (2 : ℚ) ^ (1022 : ℤ) = a at hne
    rw [Nat.cast_mul, Nat.cast_add, Nat.cast_pow, Nat.cast_pow, Nat.cast_ofNat]
    field_simp

/-- The number a word that decodes stands for. -/
theorem Val.toRat_of_dec {d : Word} {v : Val} (hd : Val.dec d = some v) :
    v.toRat = (if d.toNat / 2 ^ 63 = 1 then -1 else 1) * ((magnitude (expField d) (fracField d) : ℚ) / Val.unitsPerOne) := by
  obtain ⟨-, hv⟩ := Val.dec_eq_some_iff.1 hd
  simp only [Val.toRat, hv, signed, signBit, decide_eq_true_eq]
  split
  · push_cast
    ring
  · push_cast
    ring

/-! ### Writes that carry no `Val` -/

theorem Machine.wreg_bl_of_no_value (n : Fin 4) {d : Word} (s : Machine.State) (hd : Val.dec d = none) :
    Machine.wreg (Machine.Reg.bl n).number d s = .next s := by
  cases hb : s.status.busy with
  | true => exact Machine.wreg_number_of_busy (show Machine.Reg.bl n ≠ .ctrl from nofun) d hb
  | false =>
    rw [Machine.wreg_number_of_not_busy rfl hb, Machine.Reg.store]
    simp only [hd]

theorem Machine.wmem_of_no_value (i : BitVec 32) {d : Word} (s : Machine.State) (hd : Val.dec d = none) :
    Machine.wmem i d s = s := by
  unfold Machine.wmem
  simp only [hd, ite_self]

/-- Settles O4: the fields of the word give the number, and `enc` finds them again. -/
theorem dataWordsEncodeValues : Obligations.DataWordsEncodeValues := by
  refine ⟨Val.dec_eq_none_iff, fun d v hd => ?_, by decide +kernel, by decide +kernel, by decide +kernel,
    fun _ _ => Val.enc_of_dec, Val.dec_enc, by decide +kernel, by decide +kernel, by decide +kernel, by decide +kernel,
    fun n _ s => Machine.wreg_bl_of_no_value n s, fun i _ s => Machine.wmem_of_no_value i s⟩
  have hnumber := Val.toRat_of_dec hd
  rw [magnitude_toRat, mul_ite, ← mul_assoc, ← mul_assoc] at hnumber
  exact hnumber

end Sys2Proof

end

/-! ## The commands and the sequencer (O17, O18, O20, O21, O34, O53)

The commands in every stage, host transactions during a run, and where each operation of the sequencer goes. -/

section

namespace Sys2Proof.Machine

open Sys2Proof.Safety

/-! ### START and CLEAR -/

theorem exec_start_of_not_idle {s : State} (h : s.status.stage ≠ 0) : exec .start s = .next s :=
  congrArg Host.Outcome.next (if_neg h)

theorem exec_clear_of_not_end {s : State} (h : s.status.stage ≠ 7) : exec .clear s = .next s :=
  congrArg Host.Outcome.next (if_neg h)

/-- Settles O17: START is accepted in IDLE only, and a command word is decoded by its low four bits. -/
theorem startBeginsARunInIdleOnly : Obligations.StartBeginsARunInIdleOnly := fun s =>
  ⟨exec_start_of_idle, exec_start_of_not_idle, fun d hd => by rw [wreg_ctrl, decodeCommand_start hd]⟩

/-- Settles O18: CLEAR is accepted in END only, and a command word is decoded by its low four bits. -/
theorem clearReturnsToIdleFromEndOnly : Obligations.ClearReturnsToIdleFromEndOnly := fun s =>
  ⟨exec_clear_of_end, exec_clear_of_not_end, fun d hd => by rw [wreg_ctrl, decodeCommand_clear hd]⟩

/-! ### Host transactions during a run -/

/-- R80, R81, R82: at the stages of a run every command is ignored. -/
theorem exec_command_of_running (d : Word) {s : State} (h0 : s.status.stage ≠ 0) (h7 : s.status.stage ≠ 7) :
    exec (decodeCommand d) s = .next s := by
  rcases decodeCommand_cases d with h | h | ⟨c, h⟩ <;> rw [h]
  · exact exec_start_of_not_idle h0
  · exact exec_clear_of_not_end h7
  · rfl

/-- R50: during a run every write to a register is ignored, a command among them. -/
theorem wreg_of_running (n : BitVec 5) (d : Word) {s : State} (hb : s.status.busy = true) (h0 : s.status.stage ≠ 0)
    (h7 : s.status.stage ≠ 7) : wreg n d s = .next s := by
  unfold wreg
  split
  · exact exec_command_of_running d h0 h7
  · rw [if_pos hb]
  · rfl

/-- R86: during a run a host transaction answers the same block. -/
theorem perform_of_running {e : Event} {s : State} (he : IsTransaction e = true) (hb : s.status.busy = true)
    (h0 : s.status.stage ≠ 0) (h7 : s.status.stage ≠ 7) :
    ∃ t, perform e s = .next t ∧ t.agenda = s.agenda ∧ SameBlock s t := by
  cases e with
  | wreg n d => exact ⟨s, wreg_of_running n d hb h0 h7, rfl, rfl⟩
  | rreg n => exact ⟨_, rfl, rreg_agenda n s, rreg_sameBlock n s⟩
  | wmem i d => exact ⟨s, congrArg Host.Outcome.next (wmem_of_busy i d hb), rfl, rfl⟩
  | rmem e => exact ⟨_, rfl, rmem_agenda e s, rmem_sameBlock e s⟩
  | reset | seq | run | wait => cases he

/-- Settles O20: the step performs the transaction, which leaves the block as it is. -/
theorem theHostCannotDisturbARun : Obligations.TheHostCannotDisturbARun := by
  intro s e rest hb h0 h7 he ha
  rw [step_of_event ha]
  exact perform_of_running (s := { s with agenda := rest }) he hb h0 h7

/-! ### CHK -/

/-- The counts of R84 say that the cells are one 0, two 1 and one 2. -/
theorem cfaLegal_iff_perm (p : BitVec 8) :
    cfaLegal p = true ↔ [cfaCell p 0 0, cfaCell p 0 1, cfaCell p 1 0, cfaCell p 1 1].Perm [0, 1, 1, 2] := by
  revert p
  decide

/-- With the registers it reads supplied, CHK does its two tests. -/
theorem execChk_of_supplied {s : State} (hf : FrameSupplied s) (hp : PatternSupplied s) :
    exec .chk s =
      .next (if s.H % 2 ≠ 0 ∨ s.W % 2 ≠ 0 then raiseError .dimension 1 s
        else if cfaLegal s.cfa then toStage 2 s else raiseError .filterPattern 1 s) :=
  execChk_eq_next.2 ⟨List.forall_mem_cons.2 ⟨hf.1, List.forall_mem_cons.2 ⟨hf.2, List.forall_mem_singleton.2 hp⟩⟩, rfl⟩

/-- Settles O34: the branches of CHK, with the legal patterns told by their cells. -/
theorem chkTestsDimensionsThenPattern : Obligations.ChkTestsDimensionsThenPattern := by
  refine ⟨rfl, fun s hf hp => ?_⟩
  rw [execChk_of_supplied hf hp, ← cfaLegal_iff_perm]
  refine ⟨fun hodd => ?_, fun hH hW hcfa => ?_, fun hH hW hcfa => ?_⟩
  · rw [if_pos (by omega)]
    rfl
  · rw [if_neg (by omega), if_neg hcfa]
    rfl
  · rw [if_neg (by omega), if_pos hcfa]
    rfl

/-! ### The transfer table -/

/-- R84: CHK goes on to BLC, or to END with an error. -/
theorem execChk_status {s t : State} (h : exec .chk s = .next t) :
    t.status = { s.status with stage := 2 } ∨ t.status = { busy := false, done := false, err := true, stage := 7 } := by
  obtain ⟨-, rfl⟩ := execChk_eq_next.1 h
  split
  · exact .inr rfl
  · split
    · exact .inl rfl
    · exact .inr rfl

/-- R85, R174: GAM goes to END, with the image or with an error. -/
theorem execGam_status {s t : State} (h : exec .gam s = .next t) :
    t.status = { s.status with busy := false, done := true, stage := 7 }
    ∨ t.status = { busy := false, done := false, err := true, stage := 7 } := by
  rcases execGam_eq_next h with ⟨m, rfl⟩ | ⟨m, px, rfl⟩
  · exact .inr rfl
  · exact .inl rfl

/-- Settles O21: CHK and GAM by their branches; each operation between them goes on to the next stage. -/
theorem stagesFollowTheTransferTable : Obligations.StagesFollowTheTransferTable := by
  refine fun s t => ⟨execChk_status, fun h => ?_, fun h => ?_, fun h => ?_, fun h => ?_, execGam_status⟩
  · obtain ⟨-, _, -, rfl⟩ := execBlc_eq_next.1 h
    rfl
  · obtain ⟨-, _, -, rfl⟩ := execDem_eq_next.1 h
    rfl
  · obtain ⟨-, _, -, rfl⟩ := execWbs_eq_next.1 h
    rfl
  · obtain ⟨-, _, -, rfl⟩ := execCct_eq_next.1 h
    rfl

/-! ### GAM -/

/-- Settles O53: GAM writes the image it forms to the OUT elements of the frame. -/
theorem gamEncodesTheImage : Obligations.GamEncodesTheImage := by
  intro s hf hart hpos hout
  obtain ⟨m, px, hgam, -, hmem, hmax, hlen, helem⟩ := execGam_of_positive hf hart hpos
  refine ⟨m, s.out.writeAll 0 px, hmem, hmax, hgam, fun j x hx => ?_, fun j hj => ?_⟩
  · obtain ⟨q, hq, hpx⟩ := helem j x hx
    have hj : j < s.artCct.length := (List.getElem?_eq_some_iff.1 hx).1
    exact ⟨q, hq, (read_writeAll_of_lt hout hlen (hart ▸ hj)).trans hpx⟩
  · rw [Memory.read_writeAll s.out 0 j px hout, if_neg (by omega)]

end Sys2Proof.Machine

end

/-! ## Uniform images, and BLC on black frames and without biases (O39)

A traversal that forms one number everywhere answers the uniform image of it. So does BLC where every sample equals its
bias; without biases it answers the samples. -/

section

namespace Sys2Proof.Machine

open Sys2Proof.Safety

/-- A traversal that answers the same number everywhere. -/
theorem collect_eq_replicate {V : Type} {f : Nat → Host.Outcome V Fault Refusal} {n : Nat} {v : V}
    (h : ∀ i < n, f i = .next v) : collect f 0 n = .next (.replicate n v) :=
  collect_eq_next.2 ⟨List.length_replicate, fun i hi => by
    rw [Nat.zero_add, h i (by simpa using hi), List.getElem_replicate]⟩

section

variable {s : State}

/-- A sample that equals its bias gives zero (P1). -/
theorem blcFormula_of_black {i : Nat} (h : s.raw.read i = some s.bl[cfaAt s.cfa (i / s.W) (i % s.W)]) :
    blcFormula s i = some Val.zero := by
  obtain ⟨-, -, -, -, sub_self, -⟩ := binary64_zeroAbsorbs
  rw [blcFormula, h, Option.bind_some]
  exact sub_self _

/-- With bias zero the sample stays as it is (P2). -/
theorem blcFormula_of_no_bias {i : Nat} (h : s.bl[cfaAt s.cfa (i / s.W) (i % s.W)] = Val.zero) :
    blcFormula s i = s.raw.read i := by
  obtain ⟨-, -, sub_zero, -⟩ := binary64_neutralElements
  rw [blcFormula, h]
  cases s.raw.read i with
  | none => rfl
  | some x => exact sub_zero x

theorem blcGrid_of_uniform {v : Val} (h : ∀ i < s.samples, blcFormula s i = some v) :
    blcGrid Num.binary64 s.raw.read (fun n => s.bl[n]) s.cfa s.H s.W = .next (.replicate s.samples v) := by
  refine collect_eq_replicate fun i hi => ?_
  obtain ⟨x, hx, -⟩ := Option.bind_eq_some_iff.1 (h i hi)
  rw [blcSample_eq_finite (by rw [hx, Option.isSome_some]), h i hi, finite_some]

end

/-- Settles O39: the differences are zero on a black frame, and the samples without biases. -/
theorem blcOnBlackAndWithoutBias : Obligations.BlcOnBlackAndWithoutBias := by
  refine fun s hf hp hb => ⟨fun hblack => ?_, fun hzero hread => ?_⟩
  · rw [execBlc_of_supplied hf hp hb, blcGrid_of_uniform fun i hi => blcFormula_of_black (hblack i hi), andThen_next]
    rfl
  · have same (i : Nat) : blcFormula s i = s.raw.read i := blcFormula_of_no_bias (hzero _)
    obtain ⟨g, hg, hlen, helem⟩ := execBlc_completes hf hp hb fun i hi => (same i).symm ▸ hread i hi
    exact ⟨g, hg, hlen, fun i hi => (helem i hi).trans (same i)⟩

end Sys2Proof.Machine

end

/-! ## Runs on black and on uniform frames (O58, O59)

A number that BLC leaves everywhere stays everywhere: zero under any pattern, gains and matrix, and a whole number with
the greens on a diagonal, unit gains and the reset matrix. On a uniform grid every product and sum of DEM is a whole
number of quarters of the number, so it is exact, and what counts is how much the samples that a window takes weigh. -/

section

namespace Sys2Proof

/-! ### Quarters of a whole number -/

theorem Val.quarter_units : Val.quarter.units = ((2 ^ (Val.unitBits - 2) : Nat) : Int) := rfl

/-- A multiple of a quarter by a whole number below `2 ^ 53` is a binary64 number. -/
theorem Val.fits_mul_quarter {m : Int} (hm : m.natAbs < 2 ^ 53) : Val.Fits (m * Val.quarter.units) := by
  have habs : (m * Val.quarter.units).natAbs = m.natAbs * 2 ^ (Val.unitBits - 2) := by
    rw [Int.natAbs_mul, Val.quarter_units, Int.natAbs_natCast]
  have hlt : m.natAbs * 2 ^ (Val.unitBits - 2) < 2 ^ 53 * 2 ^ (Val.unitBits - 2) :=
    Nat.mul_lt_mul_of_pos_right hm (Nat.two_pow_pos _)
  unfold Val.Fits
  rw [habs, bitLog_eq]
  refine ⟨hlt.trans_le ?_, Nat.mod_eq_zero_of_dvd ?_⟩
  · rw [Val.magLimit, ← pow_add]
    refine Nat.pow_le_pow_right two_pos ?_
    rw [Val.unitBits, Val.magBits]
    norm_num
  · exact (Nat.pow_dvd_pow 2 (lostBits_le_of_lt hlt)).mul_left _

/-- The result is `k` quarters of the whole number `n`. -/
def Quarters (n : BitVec 32) (k : Nat) (o : Option Val) : Prop :=
  ∃ v, o = some v ∧ v.units = n.toInt * k * Val.quarter.units

theorem exists_quarters (n : BitVec 32) {k : Nat} (hk : k ≤ 16) :
    ∃ v : Val, v.units = n.toInt * k * Val.quarter.units := by
  have hn : n.toInt.natAbs ≤ 2 ^ 31 := by
    have h1 := BitVec.le_toInt n
    have h2 := BitVec.toInt_lt (x := n)
    norm_num at h1 h2
    omega
  refine ⟨⟨_, Val.fits_mul_quarter ?_⟩, rfl⟩
  rw [Int.natAbs_mul, Int.natAbs_natCast]
  exact (Nat.mul_le_mul hn hk).trans_lt (by norm_num)

/-- Four quarters of a whole number are the number. -/
theorem quarters_four {n : BitVec 32} {o : Option Val} (h : Quarters n 4 o) : o = some (Val.ofInt n) := by
  obtain ⟨v, rfl, hv⟩ := h
  have h4 := Val.four_mul_quarter
  refine congrArg some (Val.units_injective ?_)
  rw [hv, Val.ofInt_units, ← h4]
  push_cast
  ring

/-- Any number of quarters of zero are zero. -/
theorem quarters_zero {k : Nat} {o : Option Val} (h : Quarters 0 k o) : o = some Val.zero := by
  obtain ⟨v, rfl, hv⟩ := h
  exact congrArg some ((Val.eq_zero_iff v).2 (by simpa using hv))

end Sys2Proof

namespace Sys2Proof.Machine

open Sys2Proof.Safety

/-- Quarters add up, exactly. -/
theorem leftSum_quarters {n : BitVec 32} {k : Nat} {acc : Option Val} {ks : List Nat} {ts : List (Option Val)}
    (hacc : Quarters n k acc) (hts : List.Forall₂ (Quarters n) ks ts) (hk : k + ks.sum ≤ 16) :
    Quarters n (k + ks.sum) (leftSum acc ts) := by
  induction hts generalizing acc k with
  | nil => exact hacc
  | @cons l t ks ts ht _ ih =>
    rw [List.sum_cons, ← Nat.add_assoc] at hk ⊢
    obtain ⟨a, rfl, ha⟩ := hacc
    obtain ⟨b, rfl, hb⟩ := ht
    obtain ⟨v, hv⟩ := exists_quarters n (k := k + l) (by omega)
    refine ih ⟨v, Val.add_of_exact ?_, hv⟩ hk
    rw [ha, hb, hv]
    push_cast
    ring

section

variable {s : State}

/-- 1 where the window of position `(r, c)` takes a sample of channel `ch` at the offset `(dr, dc)`, else 0. -/
def hits (s : State) (ch : Fin 3) (r c : Nat) (dr dc : Int) : Nat :=
  if (cfaAt s.cfa (refl (r + dr) s.H) (refl (c + dc) s.W)).val = ch.val then 1 else 0

theorem hits_le_one (s : State) (ch : Fin 3) (r c : Nat) (dr dc : Int) : hits s ch r c dr dc ≤ 1 := by
  unfold hits
  split <;> omega

/-- On a uniform grid a product of R114 with a weight of `q` quarters is `q` quarters of the number, or zero. -/
theorem product_quarters {n : BitVec 32} (hart : s.artBlc = .replicate s.samples (Val.ofInt n)) (ch : Fin 3) {r c : Nat}
    (hr : r < s.H) (hc : c < s.W) {w : Val} {q : Nat} (hq : q ≤ 16) (hw : w.units = q * Val.quarter.units)
    (dr dc : Int) : Quarters n (q * hits s ch r c dr dc) (product s ch r c w dr dc) := by
  have hin : refl (r + dr) s.H * s.W + refl (c + dc) s.W < s.samples :=
    sampleIndex_lt (refl_lt _ (by omega)) (refl_lt _ (by omega))
  obtain ⟨v, hv⟩ := exists_quarters n (k := q * hits s ch r c dr dc)
    ((mul_le_of_le_one_right q.zero_le (hits_le_one s ch r c dr dc)).trans hq)
  refine ⟨v, Val.mul_of_exact ?_, hv⟩
  rw [hv, hw, hart, planeValue, hits]
  split
  · rw [List.getD_replicate _ hin, Val.ofInt_units]
    push_cast
    ring
  · simp

/-- What the weights of the samples of channel `ch` in the window of position `(r, c)` add up to, in quarters, in the
order of R114. -/
def windowWeight (s : State) (ch : Fin 3) (r c : Nat) : Nat :=
  let h := hits s ch r c
  if ch = 1 then h (-1) 0 + [h 0 (-1), 4 * h 0 0, h 0 1, h 1 0].sum
  else h (-1) (-1) +
    [2 * h (-1) 0, h (-1) 1, 2 * h 0 (-1), 4 * h 0 0, 2 * h 0 1, h 1 (-1), 2 * h 1 0, h 1 1].sum

theorem windowWeight_le (s : State) (ch : Fin 3) (r c : Nat) : windowWeight s ch r c ≤ 16 := by
  have h (dr dc : Int) := hits_le_one s ch r c dr dc
  have := h (-1) (-1); have := h (-1) 0; have := h (-1) 1
  have := h 0 (-1); have := h 0 0; have := h 0 1
  have := h 1 (-1); have := h 1 0; have := h 1 1
  simp only [windowWeight, List.sum_cons, List.sum_nil]
  split <;> omega

/-- On a uniform grid DEM forms the number times the weights of the samples it takes. -/
theorem demFormula_quarters {n : BitVec 32} (hart : s.artBlc = .replicate s.samples (Val.ofInt n)) (ch : Fin 3)
    {r c : Nat} (hr : r < s.H) (hc : c < s.W) : Quarters n (windowWeight s ch r c) (demFormula s ch r c) := by
  have quarter (dr dc : Int) : Quarters n (hits s ch r c dr dc) (product s ch r c Val.quarter dr dc) := by
    simpa using product_quarters hart ch hr hc (w := Val.quarter) (q := 1) (by norm_num) (by simp) dr dc
  have half := product_quarters hart ch hr hc (w := Val.half) (q := 2) (by norm_num)
    (by have := Val.two_mul_half; have := Val.four_mul_quarter; push_cast; omega)
  have one := product_quarters hart ch hr hc (w := Val.one) (q := 4) (by norm_num)
    (by rw [Val.one_units, ← Val.four_mul_quarter]; rfl)
  have bound := windowWeight_le s ch r c
  by_cases h : ch = 1
  · subst h
    exact leftSum_quarters (quarter _ _) (by simp [quarter, one]) bound
  · rw [windowWeight, if_neg h] at bound ⊢
    rw [demFormula, if_neg h]
    exact leftSum_quarters (quarter _ _) (by simp [quarter, half, one]) bound

/-! ### The window with the greens on a diagonal -/

/-- On a grid of two samples or more the mirror keeps the parity of the index (R112). -/
theorem refl_mod_two (i : Int) {n : Nat} (hn : 2 ≤ n) : ((refl i n : Nat) : Int) % 2 = i % 2 := by
  have h0 := Int.emod_nonneg i (b := 2 * ((n : Int) - 1)) (by omega)
  have hlt := Int.emod_lt_of_pos i (b := 2 * ((n : Int) - 1)) (by omega)
  have hpar : i % (2 * ((n : Int) - 1)) % 2 = i % 2 := Int.emod_emod_of_dvd i ⟨_, rfl⟩
  unfold refl
  rw [if_neg (by omega)]
  dsimp only
  split <;> omega

/-- So a window takes the samples whose channels the neighbouring cells of the pattern give. -/
theorem cfaAt_refl (p : BitVec 8) {H W : Nat} (hH : 2 ≤ H) (hW : 2 ≤ W) (r c : Nat) (dr dc : Int) :
    cfaAt p (refl (r + dr) H) (refl (c + dc) W) = cfaAt p (r + dr.natAbs) (c + dc.natAbs) := by
  have hrow := refl_mod_two (r + dr) hH
  have hcol := refl_mod_two (c + dc) hW
  unfold cfaAt
  congr 1 <;> omega

/-- Seen from any position, a pattern with its greens on a diagonal is one of the four. -/
theorem window_of_greensOnDiagonal {p : BitVec 8} (h : GreensOnDiagonal p) (r c : Nat) :
    [cfaAt p r c, cfaAt p r (c + 1), cfaAt p (r + 1) c, cfaAt p (r + 1) (c + 1)] ∈
      [[1, 0, 2, 1], [1, 2, 0, 1], [0, 1, 1, 2], [2, 1, 1, 0]] := by
  have parity (i : Nat) : (i % 2 = 0 ∧ (i + 1) % 2 = 1) ∨ (i % 2 = 1 ∧ (i + 1) % 2 = 0) := by omega
  unfold cfaAt
  rcases parity r with ⟨hr, hr'⟩ | ⟨hr, hr'⟩ <;> rcases parity c with ⟨hc, hc'⟩ | ⟨hc, hc'⟩
  all_goals
    rw [hr, hr', hc, hc']
    revert p
    unfold GreensOnDiagonal
    decide

/-- With the greens on a diagonal the samples that a window takes weigh one together. -/
theorem windowWeight_eq_four (hH : 2 ≤ s.H) (hW : 2 ≤ s.W) (hcfa : GreensOnDiagonal s.cfa) (ch : Fin 3) (r c : Nat) :
    windowWeight s ch r c = 4 := by
  have window := window_of_greensOnDiagonal hcfa r c
  simp only [List.mem_cons, List.cons.injEq, and_true, List.not_mem_nil, or_false] at window
  simp only [windowWeight, hits, cfaAt_refl s.cfa hH hW, Int.natAbs_neg, Int.natAbs_zero, Int.natAbs_one, Nat.add_zero]
  rcases window with ⟨h1, h2, h3, h4⟩ | ⟨h1, h2, h3, h4⟩ | ⟨h1, h2, h3, h4⟩ | ⟨h1, h2, h3, h4⟩ <;>
    rw [h1, h2, h3, h4] <;> revert ch <;> decide

/-- With the greens on a diagonal DEM keeps a whole number that stands everywhere. -/
theorem demFormula_of_uniform {n : BitVec 32} (hart : s.artBlc = .replicate s.samples (Val.ofInt n)) (hH : 2 ≤ s.H)
    (hW : 2 ≤ s.W) (hcfa : GreensOnDiagonal s.cfa) (ch : Fin 3) {r c : Nat} (hr : r < s.H) (hc : c < s.W) :
    demFormula s ch r c = some (Val.ofInt n) := by
  have formed := demFormula_quarters hart ch hr hc
  rw [windowWeight_eq_four hH hW hcfa] at formed
  exact quarters_four formed

/-! ### Uniform images through DEM, WBS and CCT -/

/-- The state in which BLC has left the number `v` everywhere. -/
def State.withUniformGrid (v : Val) (s : State) : State := { s with artBlc := .replicate s.samples v }

theorem demImage_of_uniform {v w : Val}
    (h : ∀ (r c : Nat) (ch : Fin 3), r < s.H → c < s.W → demFormula (s.withUniformGrid v) ch r c = some w) :
    demImage Num.binary64 s.cfa s.H s.W (.replicate s.samples v) = .next (.replicate s.elements w) := by
  refine collect_eq_replicate fun j hj => ?_
  obtain ⟨hr, hc, -⟩ := imageIndex_of_lt hj
  exact (demElement_eq_finite (s := s.withUniformGrid v) List.length_replicate _ hr hc).trans
    (by rw [h _ _ _ hr hc, finite_some])

/-- On a grid of zeros DEM forms zeros, whatever the pattern. -/
theorem demImage_zero (s : State) :
    demImage Num.binary64 s.cfa s.H s.W (.replicate s.samples Val.zero) = .next (.replicate s.elements Val.zero) :=
  demImage_of_uniform fun _ _ ch hr hc =>
    quarters_zero (demFormula_quarters (s := s.withUniformGrid Val.zero) rfl ch hr hc)

theorem demImage_uniform (n : BitVec 32) (hH : 2 ≤ s.H) (hW : 2 ≤ s.W) (hcfa : GreensOnDiagonal s.cfa) :
    demImage Num.binary64 s.cfa s.H s.W (.replicate s.samples (Val.ofInt n)) =
      .next (.replicate s.elements (Val.ofInt n)) :=
  demImage_of_uniform fun _ _ ch hr hc =>
    demFormula_of_uniform (s := s.withUniformGrid (Val.ofInt n)) rfl hH hW hcfa ch hr hc

theorem wbsImage_of_uniform {v w : Val} (h : ∀ ch, wbsFormula s ch v = some w) :
    wbsImage Num.binary64 s.wb s.H s.W (.replicate s.elements v) = .next (.replicate s.elements w) := by
  obtain ⟨g, hgains, hg⟩ := gains_eq_next s.wb
  rw [wbsImage, hgains, andThen_next]
  refine collect_eq_replicate fun j hj => ?_
  have hprod : Val.mul v g[Fin.ofNat 3 j] = some w := by
    have := h (Fin.ofNat 3 j)
    rwa [wbsFormula, hg, Option.bind_some] at this
  rw [wbsElement, artRead_of_lt (by rwa [List.length_replicate]), andThen_next, List.getElem_replicate]
  exact congrArg finite hprod

theorem cctImage_of_uniform {v w : Val} (h : ∀ ch, cctFormula s ch v v v = some w) :
    cctImage Num.binary64 s.ccm s.H s.W (.replicate s.elements v) = .next (.replicate s.elements w) := by
  refine collect_eq_replicate fun j hj => ?_
  have read (k : Nat) (hk : k < 3) : artRead (List.replicate s.elements v) (j / 3 * 3 + k) = .next v := by
    have hlt : j / 3 * 3 + k < s.elements := by
      unfold State.elements Config.nch
      omega
    exact artRead_eq_next.2 (by rw [List.getElem?_replicate, if_pos hlt])
  have read0 := read 0
  rw [Nat.add_zero] at read0
  rw [cctElement, read0 (by norm_num), andThen_next, read 1 (by norm_num), andThen_next, read 2 (by norm_num),
    andThen_next, cctDot_eq_finite, h, finite_some]

/-! ### WBS and CCT on zero, and with unit gains and the reset matrix -/

theorem wbsFormula_zero (s : State) (ch : Fin 3) : wbsFormula s ch Val.zero = some Val.zero := by
  obtain ⟨-, -, zero_mul, -⟩ := binary64_zeroAbsorbs
  obtain ⟨g, hg, -⟩ := Val.div_ofInt_1024 (Val.ofInt s.wb[ch])
  rw [wbsFormula, hg, Option.bind_some]
  exact zero_mul g

theorem wbsFormula_of_unit {ch : Fin 3} (h : s.wb[ch] = 1024) (x : Val) : wbsFormula s ch x = some x := by
  obtain ⟨scale_div_scale, -⟩ := binary64_scaleCancels
  obtain ⟨-, -, -, mul_one, -⟩ := binary64_neutralElements
  rw [wbsFormula, h, show Val.div (Val.ofInt 1024) (Val.ofInt 1024) = some Val.one from scale_div_scale,
    Option.bind_some]
  exact mul_one x

theorem cctFormula_zero (s : State) (ch : Fin 3) :
    cctFormula s ch Val.zero Val.zero Val.zero = some Val.zero := by
  obtain ⟨-, mul_zero, -, zero_add_zero, -, zero_div⟩ := binary64_zeroAbsorbs
  have product (m : Val) : Val.mul m Val.zero = some Val.zero := mul_zero m
  have sum : Val.add Val.zero Val.zero = some Val.zero := zero_add_zero
  simp only [cctFormula, product, sum, Option.bind_some]
  exact zero_div _ ((Val.eq_zero_iff _).not.2 Val.ofInt_1024_pos.ne')

/-- The reset matrix is 1024 on the diagonal and 0 elsewhere (R17). -/
theorem reset_ccm_entry (c k : Fin 3) :
    State.reset.ccm[3 * c.val + k.val]'(by omega) = if k = c then 1024 else 0 := by
  revert c k
  decide

/-- With the reset matrix a channel of a grey pixel is the pixel's value, where 1024 times that is finite. -/
theorem cctFormula_of_identity (hccm : s.ccm = State.reset.ccm) (ch : Fin 3) {x y : Val}
    (hy : Val.mul (Val.ofInt 1024) x = some y) : cctFormula s ch x x x = some x := by
  obtain ⟨zero_mul, -⟩ := binary64_zeroAbsorbs
  obtain ⟨add_zero, zero_add, -⟩ := binary64_neutralElements
  obtain ⟨-, cancel⟩ := binary64_scaleCancels
  have off : Val.mul (Val.ofInt 0) x = some Val.zero := zero_mul x
  have right (z : Val) : Val.add z Val.zero = some z := add_zero z
  have left (z : Val) : Val.add Val.zero z = some z := zero_add z
  have entry (k : Fin 3) : Val.mul (Val.ofInt (s.ccm[3 * ch.val + k.val]'(by omega))) x =
      some (if k = ch then y else Val.zero) := by
    simp only [hccm, reset_ccm_entry]
    split
    · exact hy
    · exact off
  have scaled : Val.div y (Val.ofInt 1024) = some x := cancel x y hy
  simp only [cctFormula, entry, Option.bind_some]
  generalize Val.ofInt 1024 = scale at scaled ⊢
  fin_cases ch <;> simp [right, left, scaled]

/-! ### A run on a uniform frame -/

/-- What holds of the three channels holds of every cell of a legal pattern: a run never reads BL3 (R15). -/
theorem cfaAt_of_channels {p : BitVec 8} (hcfa : cfaLegal p = true) {P : Fin 4 → Prop} (h : ∀ k : Fin 3, P k.castSucc)
    (r c : Nat) : P (cfaAt p r c) := by
  have hne : cfaAt p r c ≠ 3 := fun h3 => three_notMem_cfaCells hcfa (h3 ▸ cfaAt_mem_cfaCells p r c)
  obtain ⟨k, hk⟩ := Fin.exists_castSucc_eq.2 hne
  exact hk ▸ h k

/-- The host's duties before START cover the biases that a run reads (R192). -/
theorem biasesSupplied_of_legal (hs : OperandsSupplied s) (hcfa : cfaLegal s.cfa = true) : BiasesSupplied s := by
  intro i j hi hj
  obtain ⟨-, -, hbl, -⟩ := hs
  have := cfaAt_of_channels hcfa (P := fun n => (Reg.bl n).hasValue s = true) hbl i j
  rwa [cfaAt, Nat.mod_eq_of_lt hi, Nat.mod_eq_of_lt hj] at this

/-- The evaluation of a frame of which BLC makes the number `v` everywhere, which the next three operations keep. -/
theorem evaluate_of_uniform (hs : OperandsSupplied s) (hc : Checked s) {v m : Val} {o : Option (List Val)}
    (hblc : ∀ i < s.samples, blcFormula s i = some v)
    (hdem : demImage Num.binary64 s.cfa s.H s.W (.replicate s.samples v) = .next (.replicate s.elements v))
    (hwbs : ∀ ch, wbsFormula s ch v = some v) (hcct : ∀ ch, cctFormula s ch v v v = some v)
    (hgam : gamImage Num.binary64 s.H s.W (.replicate s.elements v) = .next (m, o)) :
    evaluate s = .next (o.elim (.error .allZeroImage) .image) := by
  obtain ⟨hH, hW, hcfa⟩ := hc
  have hb := biasesSupplied_of_legal hs hcfa
  obtain ⟨hf, hp, -, hg⟩ := hs
  have biases : need [.bl (cfaCell s.cfa 0 0), .bl (cfaCell s.cfa 0 1), .bl (cfaCell s.cfa 1 0),
      .bl (cfaCell s.cfa 1 1)] s = .next () := need_eq_next.2 (by simp [hb _ _])
  have gains : need [.wb 0, .wb 1, .wb 2] s = .next () := need_eq_next.2 (by simp [hg _])
  rw [evaluate, need_eq_next.2 (pattern_hasValue hf hp), andThen_next, if_neg (by omega), if_neg (by simp [hcfa]),
    biases, andThen_next, blcGrid_of_uniform hblc, andThen_next, hdem, andThen_next, gains, andThen_next,
    wbsImage_of_uniform hwbs, andThen_next, cctImage_of_uniform hcct, andThen_next, hgam, andThen_next]
  cases o <;> rfl

/-- GAM makes one of a positive number that stands everywhere: the quotient of the number by itself (P4, P6). -/
theorem gamImage_of_uniform {H W : Nat} (hne : 0 < H * W * 3) {v : Val} (hv : 0 < v.units) :
    gamImage Num.binary64 H W (.replicate (H * W * 3) v) = .next (v, some (.replicate (H * W * 3) Val.one)) := by
  have hart : (List.replicate (H * W * 3) v).length = H * W * 3 := List.length_replicate
  obtain ⟨m, px, hgam, -, hmem, -, hlen, helem⟩ :=
    gamImage_of_positive hart ⟨v, List.mem_replicate.2 ⟨hne.ne', rfl⟩, hv⟩
  obtain rfl : m = v := List.eq_of_mem_replicate hmem
  have hself : Val.div m m = some Val.one := binary64_selfDivision m ((Val.eq_zero_iff m).not.2 hv.ne')
  have ones (j : Nat) (hj : j < px.length) : px[j] = Val.one := by
    obtain ⟨q, hq, hpx⟩ := helem j m (by rw [List.getElem?_replicate, if_pos (hlen ▸ hj)])
    rw [clamped_of_pos hv, hself, Option.some.injEq] at hq
    rwa [← hq, Config.gpow_one, List.getElem?_eq_getElem hj, Option.some.injEq] at hpx
  have hpx : px = .replicate (H * W * 3) Val.one := List.eq_replicate_iff.2 ⟨hlen, fun b hb => by
    obtain ⟨j, hj, rfl⟩ := List.mem_iff_getElem.1 hb
    exact ones j hj⟩
  rw [hgam, hpx]

end

/-! ### The obligations -/

/-- Settles O58: every image on the way is zero, so GAM finds no positive element. -/
theorem allBlackFramesEndInAllZeroImageError : Obligations.AllBlackFramesEndInAllZeroImageError := by
  intro s hstart hs hc hblack
  have gam : gamImage Num.binary64 s.H s.W (.replicate s.elements Val.zero) = .next (Val.zero, none) :=
    gamImage_of_no_positive List.length_replicate fun v hv => by simp [List.eq_of_mem_replicate hv]
  have run := aRunIsOneEvaluation s hstart
  rw [evaluate_of_uniform hs hc (fun i hi => blcFormula_of_black (hblack i hi)) (demImage_zero s) (wbsFormula_zero s)
    (cctFormula_zero s) gam] at run
  obtain ⟨t, ht, hstatus, herr, hrest⟩ := run
  exact ⟨t, ht, by rw [hstatus]; rfl, by rw [herr]; rfl, hrest⟩

/-- Settles O59: every operation before GAM keeps the number, and GAM divides it by itself. -/
theorem uniformFramesEncodeToOne : Obligations.UniformFramesEncodeToOne := by
  intro s n hstart hs ⟨hH, hW, hH2, hW2⟩ hcfa hn hraw hbl hwb hccm hout
  have hc : Checked s := ⟨hH2, hW2, hcfa.1⟩
  have blc (i : Nat) (hi : i < s.samples) : blcFormula s i = some (Val.ofInt n) := by
    rw [blcFormula_of_no_bias (cfaAt_of_channels hcfa.1 (P := fun k => s.bl[k] = Val.zero) hbl _ _), hraw i hi]
  obtain ⟨y, hy, -⟩ := Val.mul_within (Val.ofInt_within 1024) (Val.ofInt_within n) (by norm_num)
  have hpos : 0 < (Val.ofInt n).units := by
    rw [Val.ofInt_units]
    exact Int.mul_pos hn (Int.natCast_pos.2 Val.unitsPerOne_pos)
  have hne : 0 < s.H * s.W * 3 := by positivity
  have run := aRunIsOneEvaluation s hstart
  rw [evaluate_of_uniform hs hc blc (demImage_uniform n hH hW hcfa) (fun ch => wbsFormula_of_unit (hwb ch) _)
    (fun ch => cctFormula_of_identity hccm ch hy) (gamImage_of_uniform hne hpos)] at run
  obtain ⟨t, ht, hstatus, herr, hlen, himage, -⟩ := run
  refine ⟨t, ht, by rw [hstatus]; rfl, by rw [herr]; rfl, fun j hj => ?_⟩
  rw [himage, read_writeAll_of_lt hout hlen hj]
  exact List.getElem?_eq_some_iff.2 ⟨by rwa [List.length_replicate], List.getElem_replicate _⟩

end Sys2Proof.Machine

end

/-! ## Reflection (O41)

Over one period the mirror runs up the grid and back down: that gives both edges and the inside of the grid. -/

section

namespace Sys2Proof.Machine

theorem refl_one (i : Int) : refl i 1 = 0 := rfl

/-- The folding that R112 defines, on a grid of two samples or more. -/
theorem refl_eq_fold (i : Int) {n : Nat} (hn : n ≠ 1) :
    refl i n = if i % (2 * ((n : Int) - 1)) < n then (i % (2 * ((n : Int) - 1))).toNat
      else (2 * ((n : Int) - 1) - i % (2 * ((n : Int) - 1))).toNat :=
  if_neg hn

/-- The mirror has period `2 (n - 1)`. -/
theorem refl_add_period (i : Int) {n : Nat} (hn : n ≠ 1) : refl (i + 2 * ((n : Int) - 1)) n = refl i n := by
  rw [refl_eq_fold _ hn, refl_eq_fold _ hn, Int.add_emod_right]

theorem refl_of_lt {n i : Nat} (hi : i < n) : refl (i : Int) n = i := by
  by_cases h1 : n = 1
  · subst h1
    rw [refl_one]
    omega
  · have hm : (i : Int) % (2 * ((n : Int) - 1)) = i := Int.emod_eq_of_lt (by omega) (by omega)
    rw [refl_eq_fold _ h1, hm, if_pos (by omega), Int.toNat_natCast]

/-- Past the last sample the mirror runs back. -/
theorem refl_of_le {n i : Nat} (hi : n ≤ i) (hlt : i < 2 * (n - 1)) : refl (i : Int) n = 2 * (n - 1) - i := by
  have hm : (i : Int) % (2 * ((n : Int) - 1)) = i := Int.emod_eq_of_lt (by omega) (by omega)
  rw [refl_eq_fold _ (by omega), hm, if_neg (by omega)]
  omega

/-- Index `n` is sample `n - 2`: one step back from the last sample, which on a grid of two ends the period. -/
theorem refl_length {n : Nat} (hn : 2 ≤ n) : refl (n : Int) n = n - 2 := by
  rcases hn.eq_or_lt with rfl | h
  · rfl
  · rw [refl_of_le le_rfl (by omega)]
    omega

/-- Index −1 is sample 1: it is the last index of a period. -/
theorem refl_neg_one {n : Nat} (hn : 2 ≤ n) : refl (-1) n = 1 := by
  have hlast : (-1 : Int) + 2 * ((n : Int) - 1) = ((2 * (n - 1) - 1 : Nat) : Int) := by omega
  rw [← refl_add_period _ (by omega), hlast]
  rcases hn.eq_or_lt with rfl | h
  · rfl
  · rw [refl_of_le (by omega) (by omega)]
    omega

/-- Settles O41: the two edges, the inside of the grid, the grid of one, the bounds, the folding and the parity. -/
theorem reflectionMirrorsWithoutRepeating : Obligations.ReflectionMirrorsWithoutRepeating :=
  ⟨fun _ hn => ⟨refl_neg_one hn, refl_length hn⟩, fun _ _ => refl_of_lt, refl_one, fun i _ => refl_lt i,
    fun i _ _ hn => refl_eq_fold i hn, fun i _ hn _ _ _ => refl_mod_two i hn⟩

end Sys2Proof.Machine

end

/-! ## DEM with the greens on a diagonal (O43, O44, O45)

A product of R114 is a weighted neighbour where the window meets a sample of the channel, and zero elsewhere. Zeros drop
out of a sum, and the four cells that a window shows say which neighbours stay. -/

section

namespace Sys2Proof.Machine

open Sys2Proof.Safety

/-! ### Zeros in a sum -/

@[simp] theorem add_zero_eq_some (x : Val) : Val.add x Val.zero = some x := Val.add_of_exact (by simp)

@[simp] theorem zero_add_eq_some (x : Val) : Val.add Val.zero x = some x := Val.add_of_exact (by simp)

@[simp] theorem mul_zero_eq_some (x : Val) : Val.mul x Val.zero = some Val.zero := Val.mul_of_exact (by simp)

section

variable {s t : State}

/-- Where DEM completes, every element is the sum of R114. -/
theorem execDem_element (hart : s.artBlc.length = s.samples) (h : exec .dem s = .next t) {r c : Nat} (ch : Fin 3)
    (hr : r < s.H) (hc : c < s.W) : t.artDem[imageIndex s.W r c ch]? = demFormula s ch r c := by
  obtain ⟨-, g, hg, rfl⟩ := execDem_eq_next.1 h
  obtain ⟨hlen, helem⟩ := collect_eq_next.1 ((demImage_eq_collect s).symm.trans hg)
  have hlt : imageIndex s.W r c ch < g.length := hlen ▸ imageIndex_lt ch hr hc
  have hformed := helem _ hlt
  rw [Nat.zero_add, demIteration_eq_finite hart r c ch hr hc, finite_eq_next] at hformed
  rw [hformed]
  exact List.getElem?_eq_getElem hlt

/-! ### The cells of a window -/

theorem green_ne_castSucc {ch : Fin 3} (h : ch ≠ 1) : 1 ≠ ch.castSucc := fun e =>
  h (Fin.castSucc_injective 3 e.symm)

/-- A product of R114 is the weighted neighbour where its cell holds the channel, else zero. -/
theorem product_eq (hH : 2 ≤ s.H) (hW : 2 ≤ s.W) (ch : Fin 3) (r c : Nat) (w : Val) (dr dc : Int) :
    product s ch r c w dr dc =
      if cfaAt s.cfa (r + dr.natAbs) (c + dc.natAbs) = ch.castSucc then neighbour s r c w dr dc
      else some Val.zero := by
  have hcell (k : Fin 4) : k.val = ch.val ↔ k = ch.castSucc := by rw [Fin.ext_iff, Fin.val_castSucc]
  simp only [product, planeValue, cfaAt_refl s.cfa hH hW, hcell]
  split
  · rfl
  · exact mul_zero_eq_some w

/-- With the greens on a diagonal no cell has its own channel beside it, and a red or blue cell not across either; a
green cell has green across and two channels beside it; a red or blue cell has green beside it and the third channel
across. -/
theorem cells_of_greensOnDiagonal {p : BitVec 8} (hp : GreensOnDiagonal p) (r c : Nat) :
    (cfaAt p r (c + 1) ≠ cfaAt p r c ∧ cfaAt p (r + 1) c ≠ cfaAt p r c
      ∧ (cfaAt p r c ≠ 1 → cfaAt p (r + 1) (c + 1) ≠ cfaAt p r c))
    ∧ (cfaAt p r c = 1 → cfaAt p (r + 1) (c + 1) = 1 ∧ cfaAt p r (c + 1) ≠ cfaAt p (r + 1) c)
    ∧ (cfaAt p r c ≠ 1 → cfaAt p r (c + 1) = 1 ∧ cfaAt p (r + 1) c = 1
      ∧ ∀ ch : Fin 3, ch ≠ 1 → cfaAt p r c ≠ ch.castSucc → cfaAt p (r + 1) (c + 1) = ch.castSucc) := by
  have window := window_of_greensOnDiagonal hp r c
  generalize cfaAt p r c = p00, cfaAt p r (c + 1) = p01, cfaAt p (r + 1) c = p10, cfaAt p (r + 1) (c + 1) = p11 at *
  refine ⟨?_, ?_, ?_⟩
  all_goals
    revert p00 p01 p10 p11
    decide

/-! ### The sums that are left -/

section

variable {r c : Nat} {ch : Fin 3} (hH : 2 ≤ s.H) (hW : 2 ≤ s.W) (hp : GreensOnDiagonal s.cfa)

include hH hW hp

/-- At a sample of the channel only the product with the sample is left. -/
theorem demFormula_at_sample (h : cfaAt s.cfa r c = ch.castSucc) :
    demFormula s ch r c = neighbour s r c Val.one 0 0 := by
  obtain ⟨⟨hrow, hcol, hacross⟩, -⟩ := cells_of_greensOnDiagonal hp r c
  rw [h] at hrow hcol hacross
  by_cases hch : ch = 1
  · subst hch
    rw [Fin.castSucc_one] at h hrow hcol
    simp [demFormula, greenSum, product_eq hH hW, h, hrow, hcol, leftSum]
  · replace hacross := hacross (green_ne_castSucc hch).symm
    simp [demFormula, hch, redBlueSum, product_eq hH hW, h, hrow, hcol, hacross, leftSum]

/-- Green at a red or blue sample: the four neighbours beside it. -/
theorem demFormula_green_at_redBlue (h : cfaAt s.cfa r c ≠ 1) :
    demFormula s 1 r c = leftSum (neighbour s r c Val.quarter (-1) 0)
      [neighbour s r c Val.quarter 0 (-1), neighbour s r c Val.quarter 0 1, neighbour s r c Val.quarter 1 0] := by
  obtain ⟨-, -, redBlue⟩ := cells_of_greensOnDiagonal hp r c
  obtain ⟨hrow, hcol, -⟩ := redBlue h
  simp [demFormula, greenSum, product_eq hH hW, h, hrow, hcol, leftSum]

/-- Red or blue at a green sample, the channel in the row: the two neighbours of the row. -/
theorem demFormula_in_row (hch : ch ≠ 1) (h : cfaAt s.cfa r c = 1) (hrow : cfaAt s.cfa r (c + 1) = ch.castSucc) :
    demFormula s ch r c = leftSum (neighbour s r c Val.half 0 (-1)) [neighbour s r c Val.half 0 1] := by
  obtain ⟨-, green, -⟩ := cells_of_greensOnDiagonal hp r c
  obtain ⟨hacross, hne⟩ := green h
  have h1 := green_ne_castSucc hch
  simp [demFormula, hch, redBlueSum, product_eq hH hW, h, h1, hrow, hrow ▸ hne.symm, hacross, leftSum]

/-- Red or blue at a green sample, the channel in the column: the two neighbours of the column. -/
theorem demFormula_in_column (hch : ch ≠ 1) (h : cfaAt s.cfa r c = 1) (hcol : cfaAt s.cfa (r + 1) c = ch.castSucc) :
    demFormula s ch r c = leftSum (neighbour s r c Val.half (-1) 0) [neighbour s r c Val.half 1 0] := by
  obtain ⟨-, green, -⟩ := cells_of_greensOnDiagonal hp r c
  obtain ⟨hacross, hne⟩ := green h
  have h1 := green_ne_castSucc hch
  simp [demFormula, hch, redBlueSum, product_eq hH hW, h, h1, hcol, hcol ▸ hne, hacross, leftSum]

/-- Red at blue and blue at red: the four neighbours across. -/
theorem demFormula_across (hch : ch ≠ 1) (h : cfaAt s.cfa r c ≠ 1) (hne : cfaAt s.cfa r c ≠ ch.castSucc) :
    demFormula s ch r c = leftSum (neighbour s r c Val.quarter (-1) (-1))
      [neighbour s r c Val.quarter (-1) 1, neighbour s r c Val.quarter 1 (-1), neighbour s r c Val.quarter 1 1] := by
  have h1 := green_ne_castSucc hch
  obtain ⟨-, -, redBlue⟩ := cells_of_greensOnDiagonal hp r c
  obtain ⟨hrow, hcol, hacross⟩ := redBlue h
  simp [demFormula, hch, redBlueSum, product_eq hH hW, hne, h1, hrow, hcol, hacross ch hch hne, leftSum]

end

/-- The neighbour at no distance with weight one is the element itself. -/
theorem neighbour_self (hart : s.artBlc.length = s.samples) {r c : Nat} (hr : r < s.H) (hc : c < s.W) :
    neighbour s r c Val.one 0 0 = s.artBlc[r * s.W + c]? := by
  obtain ⟨-, -, -, -, one_mul⟩ := binary64_neutralElements
  have hlt : r * s.W + c < s.artBlc.length := hart ▸ sampleIndex_lt hr hc
  rw [neighbour, add_zero, add_zero, refl_of_lt hr, refl_of_lt hc, List.getD_eq_getElem _ _ hlt,
    List.getElem?_eq_getElem hlt]
  exact one_mul _

end

/-! ### The obligations -/

/-- Settles O43: only the product with the sample is left, and its weight is one. -/
theorem demPreservesSamples : Obligations.DemPreservesSamples := by
  intro s t hframe hp hart ht r c ch hr hc h
  obtain ⟨hH, hW, -⟩ := hframe
  rw [execDem_element hart ht ch hr hc, demFormula_at_sample hH hW hp (Fin.ext h), neighbour_self hart hr hc]

/-- Settles O44: the sums that are left at the positions of the other channels. -/
theorem demClosedForms : Obligations.DemClosedForms := by
  intro s t hframe hp hart ht r c ch hr hc
  obtain ⟨hH, hW, -⟩ := hframe
  rw [execDem_element hart ht ch hr hc]
  refine ⟨?_, fun hch h hrow => demFormula_in_row hH hW hp hch h (Fin.ext hrow),
    fun hch h hcol => demFormula_in_column hH hW hp hch h (Fin.ext hcol),
    fun hch h hne => demFormula_across hH hW hp hch h fun e => hne (congrArg Fin.val e)⟩
  rintro rfl h
  exact demFormula_green_at_redBlue hH hW hp h

/-- Settles O45: DEM answers the uniform image of the number. -/
theorem demKeepsUniformGrids : Obligations.DemKeepsUniformGrids := by
  intro s n hf hpat hframe hp hart
  obtain ⟨hH, hW, -⟩ := hframe
  rw [execDem_of_supplied hf hpat, hart, demImage_uniform n hH hW hp, andThen_next]
  rfl

end Sys2Proof.Machine

end

/-! ## DEM over the rationals (O46, O47)

Over the rationals nothing overflows, so DEM answers on every grid, and each element is a sum of weighted samples:
linear in the grid, and a matter of adding weights on the small grids of R116. -/

section

namespace Sys2Proof.Machine

section

variable (g : ℚ → ℚ) (cfa : BitVec 8) (H W : Nat)

/-- The value of a masked plane (R110) on a grid of rationals that holds all its elements. -/
def ratPlane (art : List ℚ) (ch : Fin 3) (r c : Nat) : ℚ :=
  if (cfaAt cfa r c).val = ch.val then art.getD (r * W + c) 0 else 0

/-- The product of R114 at the tap `t` of a kernel. -/
def ratTap (art : List ℚ) (ch : Fin 3) (r c : Nat) (t : Fin 3 × Fin 3) : ℚ :=
  (kernel ch)[t.1][t.2].value (Num.rational g)
    * ratPlane cfa W art ch (refl ((r : Int) + (t.1.val : Int) - 1) H) (refl ((c : Int) + (t.2.val : Int) - 1) W)

/-- `art.DEM[r][c][ch]` over the rationals. -/
def ratDem (art : List ℚ) (ch : Fin 3) (r c : Nat) : ℚ :=
  ((taps ch).map (ratTap g cfa H W art ch r c)).sum

/-- Element `j` of the image over the rationals. -/
def ratElement (art : List ℚ) (j : Nat) : ℚ :=
  ratDem g cfa H W art (Fin.ofNat 3 j) (j / 3 / W) (j / 3 % W)

/-! ### DEM answers the sums -/

variable {cfa H W}

theorem plane_rational {art : List ℚ} (hart : art.length = H * W) (ch : Fin 3) {r c : Nat} (hr : r < H) (hc : c < W) :
    plane (Num.rational g) cfa W art ch r c = .next (ratPlane cfa W art ch r c) := by
  unfold plane ratPlane
  split
  · have hlt : r * W + c < art.length := hart ▸ sampleIndex_lt hr hc
    rw [artRead_of_lt hlt, List.getD_eq_getElem _ _ hlt]
  · rfl

theorem demTap_rational {art : List ℚ} (hart : art.length = H * W) (ch : Fin 3) {r c : Nat} (hr : r < H) (hc : c < W)
    (t : Fin 3 × Fin 3) :
    demTap (Num.rational g) cfa H W art ch r c t = .next (ratTap g cfa H W art ch r c t) := by
  rw [demTap, plane_rational g hart ch (refl_lt _ (by omega)) (refl_lt _ (by omega)), andThen_next]
  rfl

/-- The fold over the taps adds up their products. -/
theorem addTaps_rational {tap : Fin 3 × Fin 3 → Host.Outcome ℚ Fault Refusal} {T : Fin 3 × Fin 3 → ℚ}
    (h : ∀ t, tap t = .next (T t)) (acc : ℚ) (ts : List (Fin 3 × Fin 3)) :
    addTaps (Num.rational g) tap acc ts = .next (acc + (ts.map T).sum) := by
  induction ts generalizing acc with
  | nil => simp [addTaps]
  | cons t ts ih =>
    have hadd : (Num.rational g).add acc (T t) = some (acc + T t) := rfl
    rw [addTaps, h, andThen_next, hadd, finite_some, andThen_next, ih, List.map_cons, List.sum_cons, add_assoc]

theorem demElement_rational {art : List ℚ} (hart : art.length = H * W) (ch : Fin 3) {r c : Nat} (hr : r < H)
    (hc : c < W) : demElement (Num.rational g) cfa H W art ch r c = .next (ratDem g cfa H W art ch r c) := by
  have tap := demTap_rational g (cfa := cfa) hart ch hr hc
  unfold demElement ratDem
  cases taps ch with
  | nil => rfl
  | cons t ts =>
    dsimp only
    rw [tap, andThen_next, addTaps_rational g tap, List.map_cons, List.sum_cons]

theorem demImage_rational {art : List ℚ} (hart : art.length = H * W) :
    demImage (Num.rational g) cfa H W art = .next ((List.range (H * W * 3)).map (ratElement g cfa H W art)) := by
  refine collect_eq_next.2 ⟨by simp, fun j hj => ?_⟩
  rw [List.length_map, List.length_range] at hj
  obtain ⟨hr, hc, -⟩ := imageIndex_of_lt hj
  rw [Nat.zero_add, demElement_rational g hart _ hr hc, List.getElem_map, List.getElem_range]
  rfl

/-! ### Linearity -/

/-- The grid or image `a * X + Y`. -/
def combine (a : ℚ) (X Y : List ℚ) : List ℚ := List.zipWith (fun x y => a * x + y) X Y

theorem combine_map (a : ℚ) (f h : Nat → ℚ) (l : List Nat) :
    combine a (l.map f) (l.map h) = l.map fun j => a * f j + h j := by
  rw [combine, List.zipWith_map, List.zipWith_self]

section

variable {X Y : List ℚ} (hX : X.length = H * W) (hY : Y.length = H * W) (a : ℚ) (ch : Fin 3) {r c : Nat}

include hX hY

theorem combine_length : (combine a X Y).length = H * W := by
  rw [combine, List.length_zipWith, hX, hY, min_self]

theorem ratPlane_linear (hr : r < H) (hc : c < W) :
    ratPlane cfa W (combine a X Y) ch r c = a * ratPlane cfa W X ch r c + ratPlane cfa W Y ch r c := by
  have hlt := sampleIndex_lt hr hc
  unfold ratPlane
  split
  · rw [List.getD_eq_getElem _ _ ((combine_length hX hY a).symm ▸ hlt), List.getD_eq_getElem X _ (hX ▸ hlt),
      List.getD_eq_getElem Y _ (hY ▸ hlt)]
    exact List.getElem_zipWith
  · rw [mul_zero, add_zero]

theorem ratDem_linear (hr : r < H) (hc : c < W) :
    ratDem g cfa H W (combine a X Y) ch r c = a * ratDem g cfa H W X ch r c + ratDem g cfa H W Y ch r c := by
  have tap : ratTap g cfa H W (combine a X Y) ch r c =
      fun t => a * ratTap g cfa H W X ch r c t + ratTap g cfa H W Y ch r c t := by
    funext t
    rw [ratTap, ratPlane_linear hX hY a ch (refl_lt _ (by omega)) (refl_lt _ (by omega)), ratTap, ratTap]
    ring
  rw [ratDem, tap, List.sum_map_add, List.sum_map_mul_left]
  rfl

theorem demImage_linear :
    demImage (Num.rational g) cfa H W (combine a X Y) =
      .next (combine a ((List.range (H * W * 3)).map (ratElement g cfa H W X))
        ((List.range (H * W * 3)).map (ratElement g cfa H W Y))) := by
  rw [demImage_rational g (combine_length hX hY a), combine_map]
  refine congrArg _ (List.map_congr_left fun j hj => ?_)
  obtain ⟨hr, hc, -⟩ := imageIndex_of_lt (List.mem_range.1 hj)
  exact ratDem_linear g hX hY a _ hr hc

end

/-! ### Grids of one row

Every row of a window folds to the one row, so the weights of each column add up. -/

/-- The sample of the channel that column index `k` reads on a grid of one row, at the reflected index. -/
def rowSample (cfa : BitVec 8) (W : Nat) (art : List ℚ) (ch : Fin 3) (k : Int) : ℚ :=
  ratPlane cfa W art ch 0 (refl k W)

/-- What the weights of a kernel's first column, and of its last, add up to. -/
def sideWeight (ch : Fin 3) : ℚ := if ch = 1 then 1 / 4 else 1

/-- What the weights of a kernel's middle column add up to. -/
def middleWeight (ch : Fin 3) : ℚ := if ch = 1 then 3 / 2 else 2

theorem ratDem_row (art : List ℚ) (ch : Fin 3) (c : Nat) :
    ratDem g cfa 1 W art ch 0 c = middleWeight ch * rowSample cfa W art ch c
      + sideWeight ch * (rowSample cfa W art ch (c - 1) + rowSample cfa W art ch (c + 1)) := by
  have left : (c : Int) + 0 - 1 = c - 1 := by ring
  have middle : (c : Int) + 1 - 1 = c := by ring
  have right : (c : Int) + 2 - 1 = c + 1 := by ring
  by_cases h : ch = 1
  · subst h
    have products : (taps 1).map (ratTap g cfa 1 W art 1 0 c) =
        [(1 / 4, 1), (1 / 4, 0), (1, 1), (1 / 4, 2), (1 / 4, 1)].map
          fun w : ℚ × Int => w.1 * rowSample cfa W art 1 (c + w.2 - 1) := by
      rw [taps_green]
      rfl
    rw [ratDem, products, middleWeight, sideWeight, if_pos rfl, if_pos rfl]
    simp only [List.map_cons, List.map_nil, List.sum_cons, List.sum_nil, left, middle, right]
    ring
  · have hk : kernel ch = kernelRedBlue := if_neg h
    have products : (taps ch).map (ratTap g cfa 1 W art ch 0 c) =
        [(1 / 4, 0), (1 / 2, 1), (1 / 4, 2), (1 / 2, 0), (1, 1), (1 / 2, 2), (1 / 4, 0), (1 / 2, 1), (1 / 4, 2)].map
          fun w : ℚ × Int => w.1 * rowSample cfa W art ch (c + w.2 - 1) := by
      rw [taps_redBlue h]
      simp only [window, List.map_cons, List.map_nil, ratTap, hk]
      rfl
    rw [ratDem, products, middleWeight, sideWeight, if_neg h, if_neg h]
    simp only [List.map_cons, List.map_nil, List.sum_cons, List.sum_nil, left, middle, right]
    ring

/-- On a grid of one sample all taps read the sample. -/
theorem ratDem_one_sample (a : ℚ) (ch : Fin 3) :
    ratDem g cfa 1 1 [a] ch 0 0 =
      if cfaCell cfa 0 0 = ch.castSucc then (middleWeight ch + 2 * sideWeight ch) * a else 0 := by
  have sample (k : Int) : rowSample cfa 1 [a] ch k = if cfaCell cfa 0 0 = ch.castSucc then a else 0 := by
    simp only [rowSample, refl_one, ratPlane, Fin.ext_iff, Fin.val_castSucc]
    rfl
  simp only [ratDem_row, sample]
  split <;> ring

/-- On a grid of two samples each is the neighbour of the other on both sides. -/
theorem ratDem_two_samples (art : List ℚ) (ch : Fin 3) :
    ratDem g cfa 1 2 art ch 0 0 =
        middleWeight ch * ratPlane cfa 2 art ch 0 0 + 2 * sideWeight ch * ratPlane cfa 2 art ch 0 1
      ∧ ratDem g cfa 1 2 art ch 0 1 =
        middleWeight ch * ratPlane cfa 2 art ch 0 1 + 2 * sideWeight ch * ratPlane cfa 2 art ch 0 0 := by
  have first : refl ((0 : Nat) - 1) 2 = 1 ∧ refl (0 : Nat) 2 = 0 ∧ refl ((0 : Nat) + 1) 2 = 1 := by decide
  have second : refl ((1 : Nat) - 1) 2 = 0 ∧ refl (1 : Nat) 2 = 1 ∧ refl ((1 : Nat) + 1) 2 = 0 := by decide
  simp only [ratDem_row, rowSample, first, second]
  constructor <;> ring

end

/-! ### The obligations -/

/-- Settles O47: every element is a sum of weighted samples. -/
theorem demIsLinear : Obligations.DemIsLinear := fun g _ _ _ a _ _ hX hY =>
  ⟨_, _, demImage_rational g hX, demImage_rational g hY, demImage_linear g hX hY a⟩

/-- Settles O46: the weights that meet a sample add up. -/
theorem demOnSmallGrids : Obligations.DemOnSmallGrids := by
  intro g cfa a b
  have weights : middleWeight 0 = 2 ∧ sideWeight 0 = 1 ∧ middleWeight 1 = 3 / 2 ∧ sideWeight 1 = 1 / 4
      ∧ middleWeight 2 = 2 ∧ sideWeight 2 = 1 := ⟨rfl, rfl, rfl, rfl, rfl, rfl⟩
  refine ⟨?_, fun hr hg => ?_⟩
  · have image : demImage (Num.rational g) cfa 1 1 [a] =
        .next [ratDem g cfa 1 1 [a] 0 0 0, ratDem g cfa 1 1 [a] 1 0 0, ratDem g cfa 1 1 [a] 2 0 0] :=
      demImage_rational g rfl
    have four : (2 + 2 * 1 : ℚ) = 4 := by norm_num
    have two : (3 / 2 + 2 * (1 / 4) : ℚ) = 2 := by norm_num
    simp only [image, ratDem_one_sample, weights, four, two]
    rfl
  · have image : demImage (Num.rational g) cfa 1 2 [a, b] =
        .next [ratDem g cfa 1 2 [a, b] 0 0 0, ratDem g cfa 1 2 [a, b] 1 0 0, ratDem g cfa 1 2 [a, b] 2 0 0,
          ratDem g cfa 1 2 [a, b] 0 0 1, ratDem g cfa 1 2 [a, b] 1 0 1, ratDem g cfa 1 2 [a, b] 2 0 1] :=
      demImage_rational g rfl
    have first (ch : Fin 3) : ratPlane cfa 2 [a, b] ch 0 0 = if ch = 0 then a else 0 := by
      simp [ratPlane, cfaAt, hr, eq_comm]
    have second (ch : Fin 3) : ratPlane cfa 2 [a, b] ch 0 1 = if ch = 1 then b else 0 := by
      simp [ratPlane, cfaAt, hg, Fin.ext_iff, eq_comm]
    have half : 2 * (1 / 4) * b = b / 2 := by ring
    have threeHalves : 3 / 2 * b = 3 * b / 2 := by ring
    simp [image, ratDem_two_samples, first, second, weights, -one_div, half, threeHalves]

end Sys2Proof.Machine

end

/-! ## The channels of WBS (O49)

An element of the image WBS computes is its input times one gain, that of its own channel: the rule is stated once for
every number system, through the side `scaleOnce` of P7. -/

section

namespace Sys2Proof.Machine

open Sys2Proof.Safety

/-! ### One element, one gain -/

section

variable {V : Type} {N : Num V} {wb : Vector (BitVec 32) 3} {H W : Nat} {art a : List V}

/-- Each gain is formed from its own register. -/
theorem gain_of_gains_eq_next {g : Vector V 3} (h : gains N wb = .next g) (ch : Fin 3) :
    N.div (N.ofInt wb[ch]) (N.ofInt 1024) = some g[ch] := by
  simp only [gains, andThen_eq_next, finite_eq_next, Host.Outcome.next.injEq] at h
  obtain ⟨g0, h0, g1, h1, g2, h2, rfl⟩ := h
  fin_cases ch
  · exact h0
  · exact h1
  · exact h2

/-- R130: an element of the image WBS computes is the input's, scaled by the register of its channel. -/
theorem wbsImage_getElem? (h : wbsImage N wb H W art = .next a) {j : Nat} (hj : j < H * W * 3) :
    a[j]? = art[j]?.bind fun x => N.scaleOnce x wb[Fin.ofNat 3 j] := by
  obtain ⟨g, hg, himg⟩ := andThen_eq_next.1 h
  obtain ⟨hlen, helem⟩ := collect_eq_next.1 himg
  have hja : j < a.length := hlen ▸ hj
  obtain ⟨x, hx, hprod⟩ := andThen_eq_next.1 (helem j hja)
  rw [Nat.zero_add] at hx hprod
  rw [artRead_eq_next.1 hx, Option.bind_some, Num.scaleOnce, gain_of_gains_eq_next hg, Option.bind_some,
    finite_eq_next.1 hprod, List.getElem?_eq_getElem hja]

/-- R131 (a): with the gain of a channel equal, the elements of the channel are equal. -/
theorem wbsImage_channel_congr {wb' : Vector (BitVec 32) 3} {a' : List V} {ch : Fin 3} (hgain : wb'[ch] = wb[ch])
    (h : wbsImage N wb H W art = .next a) (h' : wbsImage N wb' H W art = .next a') {r c : Nat} (hr : r < H)
    (hc : c < W) : a'[imageIndex W r c ch]? = a[imageIndex W r c ch]? := by
  have hj := imageIndex_lt ch hr hc
  simp only [wbsImage_getElem? h hj, wbsImage_getElem? h' hj, imageIndex_channel, hgain]

end

/-! ### A gain times a whole number, over the rationals -/

theorem rational_scaleOnce (g : ℚ → ℚ) (x : ℚ) (n : BitVec 32) :
    (Num.rational g).scaleOnce x n = some (x * (n.toInt / 1024)) := by
  simp [Num.scaleOnce, Num.rational]

/-- R131 (b), one element: its gain is `k` times the other where its channel is `ch`, and the same elsewhere. -/
theorem rational_scaleOnce_set (g : ℚ → ℚ) {wb : Vector (BitVec 32) 3} {ch : Fin 3} {k : ℤ} {kg : BitVec 32}
    (hkg : kg.toInt = k * wb[ch].toInt) (i : Fin 3) (z : ℚ) :
    (Num.rational g).scaleOnce z (wb.set ch kg)[i] =
      ((Num.rational g).scaleOnce z wb[i]).map fun x : ℚ => if i = ch then k * x else x := by
  have hset : (wb.set ch kg)[i] = if i = ch then kg else wb[i] := by
    simp [Vector.getElem_set, Fin.ext_iff, eq_comm]
  simp only [rational_scaleOnce, Option.map_some, hset, Option.some.injEq]
  split
  · next h =>
    rw [h, hkg]
    push_cast
    ring
  · rfl

theorem wbsImage_rational_set (g : ℚ → ℚ) {wb : Vector (BitVec 32) 3} {ch : Fin 3} {k : ℤ} {kg : BitVec 32}
    {H W : Nat} {art a b : List ℚ} (hkg : kg.toInt = k * wb[ch].toInt)
    (ha : wbsImage (Num.rational g) wb H W art = .next a)
    (hb : wbsImage (Num.rational g) (wb.set ch kg) H W art = .next b) {j : Nat} (hj : j < H * W * 3) :
    b[j]? = a[j]?.map fun x : ℚ => if j % 3 = ch.val then k * x else x := by
  have hch : Fin.ofNat 3 j = ch ↔ j % 3 = ch.val := Fin.ext_iff
  simp only [wbsImage_getElem? ha hj, wbsImage_getElem? hb hj, rational_scaleOnce_set g hkg, Option.map_bind,
    Function.comp_def, hch]

/-! ### Unit gains -/

/-- Two images of a frame are equal where they are equal at every position. -/
theorem image_ext {V : Type} {H W : Nat} {l m : List V} (hl : l.length = H * W * 3) (hm : m.length = H * W * 3)
    (h : ∀ (r c : Nat) (ch : Fin 3), r < H → c < W → l[imageIndex W r c ch]? = m[imageIndex W r c ch]?) : l = m := by
  refine List.ext_getElem? fun j => ?_
  by_cases hj : j < H * W * 3
  · obtain ⟨hr, hc, hpos⟩ := imageIndex_of_lt hj
    simpa only [hpos] using h _ _ (Fin.ofNat 3 j) hr hc
  · rw [List.getElem?_eq_none (by omega), List.getElem?_eq_none (by omega)]

theorem wbsAt_of_unit {s : State} {ch : Fin 3} (h : s.wb[ch] = 1024) (r c : Nat) :
    wbsAt s r c ch = s.artDem[imageIndex s.W r c ch]? := by
  simp only [wbsAt, funext (wbsFormula_of_unit h), Option.bind_fun_some]

/-- R131 (c): with unit gains WBS copies its input. -/
theorem execWbs_of_unit {s : State} (hf : FrameSupplied s) (hw : GainsSupplied s)
    (hart : s.artDem.length = s.elements) (h : ∀ ch : Fin 3, s.wb[ch] = 1024) :
    exec .wbs s = .next (toStage 5 { s with artWbs := s.artDem }) := by
  obtain ⟨g, hg, hlen, helem⟩ := execWbs_completes hf hw hart fun r c ch hr hc => by
    rw [wbsAt_of_unit (h ch), List.getElem?_eq_getElem (hart ▸ imageIndex_lt ch hr hc), Option.isSome_some]
  have same : g = s.artDem := image_ext hlen hart fun r c ch hr hc => by
    rw [helem r c ch hr hc, wbsAt_of_unit (h ch)]
  rw [hg, same]

/-- Settles O49: an element depends on the gain of its channel only, and that gain scales it. -/
theorem wbsChannelsAreIndependent : Obligations.WbsChannelsAreIndependent := by
  refine ⟨fun s t t' wb' ch hgain h h' r c hr hc => ?_, fun g wb ch k kg H W art a b hkg ha hb => ⟨?_, ?_⟩,
    fun s hf hw hzero => ?_, fun s hf hw hart hunit => execWbs_of_unit hf hw hart hunit⟩
  · obtain ⟨-, a, ha, rfl⟩ := execWbs_eq_next.1 h
    obtain ⟨-, a', ha', rfl⟩ := execWbs_eq_next.1 h'
    exact wbsImage_channel_congr hgain ha ha' hr hc
  · rw [wbsImage_length ha, wbsImage_length hb]
  · intro j x y hx hy
    have hj : j < H * W * 3 := wbsImage_length ha ▸ (List.getElem?_eq_some_iff.1 hx).1
    have hscaled := wbsImage_rational_set g hkg ha hb hj
    rw [hx, hy] at hscaled
    exact Option.some.inj hscaled
  · rw [execWbs_of_supplied hf hw, hzero, wbsImage_of_uniform (wbsFormula_zero s), andThen_next]
    rfl

end Sys2Proof.Machine

end

/-! ## The identity matrix and the linear map of CCT (O51, O52)

With the reset matrix a row takes 1024 times its own channel and nothing of the others; the division takes the factor
back. Over the rationals nothing overflows, so CCT answers on every image, each element the row applied to its pixel. -/

section

namespace Sys2Proof

/-- 1024 times a `Val` is finite where it is below 2^1024. -/
theorem Val.mul_ofInt_1024_completes {x : Val} (hx : x.units.natAbs < 2 ^ (Val.magBits - 10)) :
    ∃ y, Val.mul (Val.ofInt 1024) x = some y := by
  have hlimit : Val.magLimit = 2 ^ 10 * 2 ^ (Val.magBits - 10) := by
    have hbits : 10 ≤ Val.magBits := by
      rw [Val.magBits]
      norm_num
    rw [Val.magLimit, ← pow_add, Nat.add_sub_cancel' hbits]
  have habs : (1024 * x.units).natAbs = 2 ^ 10 * x.units.natAbs := Int.natAbs_mul _ _
  have hfits : Val.Fits (1024 * x.units) := by
    rw [Val.Fits, habs, bitLog_eq, hlimit]
    exact ⟨(Nat.mul_lt_mul_left (Nat.two_pow_pos 10)).2 hx, Val.significant_two_pow_mul x 10⟩
  exact ⟨_, (Val.mul_ofInt_1024 x).trans (dif_pos hfits)⟩

end Sys2Proof

namespace Sys2Proof.Machine

open Sys2Proof.Safety

/-! ### The reset matrix -/

section

variable {s : State}

/-- With the reset matrix a row of it does not see the other channels: the pixel may as well be grey. -/
theorem cctFormula_of_reset_ccm (hccm : s.ccm = State.reset.ccm) (ch : Fin 3) (x : Fin 3 → Val)
    (hx : (x ch).units.natAbs < 2 ^ (Val.magBits - 10)) : cctFormula s ch (x 0) (x 1) (x 2) = some (x ch) := by
  obtain ⟨zero_mul, -⟩ := binary64_zeroAbsorbs
  obtain ⟨y, hy⟩ := Val.mul_ofInt_1024_completes hx
  have product (k : Fin 3) : Val.mul (Val.ofInt (s.ccm[3 * ch.val + k.val]'(by omega))) (x k) =
      Val.mul (Val.ofInt (s.ccm[3 * ch.val + k.val]'(by omega))) (x ch) := by
    simp only [hccm, reset_ccm_entry]
    split
    · next same => rw [same]
    · exact (zero_mul (x k)).trans (zero_mul (x ch)).symm
  calc cctFormula s ch (x 0) (x 1) (x 2)
      = cctFormula s ch (x ch) (x ch) (x ch) := by simp only [cctFormula, product]
    _ = some (x ch) := cctFormula_of_identity hccm ch hy

/-- R142 (a) at one position. -/
theorem cctAt_of_reset_ccm (hart : s.artWbs.length = s.elements) (hccm : s.ccm = State.reset.ccm)
    (hfin : ∀ v ∈ s.artWbs, v.units.natAbs < 2 ^ (Val.magBits - 10)) {r c : Nat} (ch : Fin 3) (hr : r < s.H)
    (hc : c < s.W) : cctAt s r c ch = s.artWbs[imageIndex s.W r c ch]? := by
  have pixel (k : Fin 3) : ∃ x, s.artWbs[imageIndex s.W r c k]? = some x :=
    ⟨_, List.getElem?_eq_getElem (hart ▸ imageIndex_lt k hr hc)⟩
  choose x hx using pixel
  rw [cctAt_of_pixel (hx 0) (hx 1) (hx 2), hx ch,
    cctFormula_of_reset_ccm hccm ch x (hfin _ (List.mem_of_getElem? (hx ch)))]

/-- Settles O51: the image CCT computes is its input at every position. -/
theorem cctIdentityKeepsTheImage : Obligations.CctIdentityKeepsTheImage := by
  intro s hf hart hccm hfin
  obtain ⟨g, hg, hlen, helem⟩ := execCct_completes hf hart fun r c ch hr hc => by
    rw [cctAt_of_reset_ccm hart hccm hfin ch hr hc, List.getElem?_eq_getElem (hart ▸ imageIndex_lt ch hr hc),
      Option.isSome_some]
  have same : g = s.artWbs := image_ext hlen hart fun r c ch hr hc => by
    rw [helem r c ch hr hc, cctAt_of_reset_ccm hart hccm hfin ch hr hc]
  rw [hg, same]
  rfl

end

/-! ### The rationals -/

section

variable (ccm : Vector (BitVec 32) 9) (art : List ℚ)

/-- Row `c` of the matrix applied to pixel `p` of an image of rationals, divided by 1024 (R142). -/
def ratCct (p : Nat) (c : Fin 3) : ℚ :=
  ((List.finRange 3).map fun k : Fin 3 =>
    ((ccm[3 * c.val + k.val]'(by omega)).toInt : ℚ) * art.getD (3 * p + k.val) 0).sum / 1024

theorem cctDot_rational (g : ℚ → ℚ) (m0 m1 m2 x0 x1 x2 : ℚ) :
    cctDot (Num.rational g) m0 m1 m2 x0 x1 x2 = .next ((m0 * x0 + m1 * x1 + m2 * x2) / 1024) := by
  have hscale : ((Config.scale.toInt : ℤ) : ℚ) = 1024 := by decide
  simp [cctDot, Num.rational, hscale]

variable {ccm art} {n : Nat}

/-- Where the image holds whole pixels only, every element of CCT's image is the row applied to its pixel. -/
theorem cctElement_rational (g : ℚ → ℚ) (hart : art.length = n * 3) {j : Nat} (hj : j < n * 3) :
    cctElement (Num.rational g) ccm art j = finite (some (ratCct ccm art (j / 3) (Fin.ofNat 3 j))) := by
  have read (k : Nat) (hk : k < 3) : artRead art (j / 3 * 3 + k) = .next (art.getD (3 * (j / 3) + k) 0) := by
    have hlt : j / 3 * 3 + k < art.length := by omega
    rw [artRead_of_lt hlt, Nat.mul_comm 3, List.getD_eq_getElem _ _ hlt]
  have row : List.finRange 3 = [0, 1, 2] := rfl
  have read0 : artRead art (j / 3 * 3) = _ := read 0 (by norm_num)
  rw [cctElement, read0, andThen_next, read 1 (by norm_num), andThen_next, read 2 (by norm_num), andThen_next,
    cctDot_rational, ratCct, row]
  simp [matrixEntry, Num.rational, add_assoc]

/-- Settles O52: over the rationals CCT is a traversal whose elements are the rows applied to the pixels. -/
theorem cctIsTheMatrixOverTheRationals : Obligations.CctIsTheMatrixOverTheRationals := by
  intro g ccm H W art hart
  obtain ⟨img, himg, hlen, helem⟩ := collect_eq_next_of_finite (n := H * W * 3)
    (fun j hj => cctElement_rational (ccm := ccm) g hart hj) fun j _ => rfl
  refine ⟨img, himg, hlen, fun p c hp => ?_⟩
  have hpixel : (3 * p + c.val) / 3 = p := by omega
  have hchannel : Fin.ofNat 3 (3 * p + c.val) = c := by
    ext
    simp only [Fin.ofNat]
    omega
  rw [helem _ (by omega), hpixel, hchannel]
  rfl

end

end Sys2Proof.Machine

end

/-! ## GAM without a positive element, and on scaled images (O54, O56)

Whether an element is positive decides between error and success. Over the rationals a positive factor commutes with the
clamping and the greatest element, and cancels in every quotient: the three stages of GAM, one lemma each. -/

section

namespace Sys2Proof.Machine

/-- Settles O54: without a positive element no image is formed, and with one the run completes. -/
theorem gamRaisesOnNoPositiveElement : Obligations.GamRaisesOnNoPositiveElement := by
  intro s hf hart
  refine ⟨execGam_of_no_positive hf hart, fun hpos t ht => ?_⟩
  obtain ⟨m, px, hgam, -⟩ := execGam_of_positive hf hart hpos
  rw [hgam, Host.Outcome.next.injEq] at ht
  rw [← ht]
  exact ⟨rfl, rfl⟩

/-! ### Mapped artifacts and traversals, and the greatest element of a longer image -/

theorem artRead_map {V W : Type} (h : V → W) (a : List V) (i : Nat) :
    artRead (a.map h) i = andThen (artRead a i) fun x => .next (h x) := by
  unfold artRead
  rw [List.getElem?_map]
  cases a[i]? <;> rfl

/-- A function applied in every iteration may as well be applied to the list they answer. -/
theorem collect_map {α β φ ρ : Type} (h : α → β) (f : Nat → Host.Outcome α φ ρ) (k n : Nat) :
    collect (fun i => andThen (f i) fun x => .next (h x)) k n =
      andThen (collect f k n) fun l => .next (l.map h) := by
  induction n generalizing k with
  | zero => rfl
  | succ n ih =>
    simp only [collect, ih]
    cases f k with
    | next v => cases collect f (k + 1) n <;> rfl
    | fault r => rfl
    | refused r => rfl

theorem gmax_concat {V : Type} (N : Num V) (z : List V) (x : V) :
    gmax N (z ++ [x]) = if N.lt (gmax N z) x then x else gmax N z :=
  List.foldl_append

/-! ### The stages of GAM on a scaled image of rationals -/

section

variable (g : ℚ → ℚ) {k : ℚ} (hk : 0 < k)

include hk

theorem clamp_rational_mul (x : ℚ) : clamp (Num.rational g) (k * x) = k * clamp (Num.rational g) x := by
  have sign : k * x < 0 ↔ x < 0 := by simpa using mul_lt_mul_iff_right₀ (b := x) (c := 0) hk
  simp only [clamp, Num.rational, decide_eq_true_eq, sign, mul_ite, mul_zero]

theorem clampImage_rational_mul (H W : Nat) (art : List ℚ) :
    clampImage (Num.rational g) H W (art.map (k * ·)) =
      andThen (clampImage (Num.rational g) H W art) fun z => .next (z.map (k * ·)) := by
  unfold clampImage
  rw [← collect_map]
  congr 1
  funext j
  rw [artRead_map, andThen_assoc, andThen_assoc]
  simp only [andThen_next, clamp_rational_mul g hk]

theorem gmax_rational_mul (z : List ℚ) : gmax (Num.rational g) (z.map (k * ·)) = k * gmax (Num.rational g) z := by
  induction z using List.reverseRecOn with
  | nil => exact (mul_zero k).symm
  | append_singleton z x ih =>
    have order (a : ℚ) : (Num.rational g).lt (k * a) (k * x) = (Num.rational g).lt a x := by
      simp only [Num.rational, mul_lt_mul_iff_right₀ hk]
    rw [List.map_append, List.map_singleton, gmax_concat, gmax_concat, ih, order, mul_ite]

theorem div_rational_mul (x m : ℚ) : (Num.rational g).div (k * x) (k * m) = (Num.rational g).div x m := by
  simp only [Num.rational, mul_eq_zero, hk.ne', false_or, mul_div_mul_left x m hk.ne']

theorem encodeImage_rational_mul (m : ℚ) (z : List ℚ) :
    encodeImage (Num.rational g) (k * m) (z.map (k * ·)) = encodeImage (Num.rational g) m z := by
  induction z with
  | nil => rfl
  | cons x z ih => rw [List.map_cons, encodeImage, encodeImage, div_rational_mul g hk, ih]

theorem isZero_rational_mul (m : ℚ) : (Num.rational g).isZero (k * m) = (Num.rational g).isZero m := by
  simp only [Num.rational, mul_eq_zero, hk.ne', false_or]

end

/-- Settles O56: the factor goes through the clamping and the maximum, and cancels in the quotients. -/
theorem gamIsScaleInvariant : Obligations.GamIsScaleInvariant := by
  intro g k H W art hk
  unfold gamImage
  rw [clampImage_rational_mul g hk, andThen_assoc, andThen_assoc]
  congr 1
  funext z
  simp only [andThen_next, gmax_rational_mul g hk, isZero_rational_mul g hk, encodeImage_rational_mul g hk]
  split
  · rfl
  · simp only [andThen_assoc, andThen_next]

end Sys2Proof.Machine

end

/-! ## Error entry (O35)

Only CHK and GAM leave STATUS with an error that was not there, and both do so by `raiseError`, whose frame is R174. -/

section

namespace Sys2Proof.Machine

/-- R170, R174: an error is raised by CHK, which leaves all else as it was, or by GAM, which has stored its maximum. -/
theorem exec_raises {i : Instr} {s t : State} (h0 : s.status.err = false) (h : exec i s = .next t)
    (ht : t.status.err = true) :
    (i = .chk ∧ ∃ e, (e = .dimension ∨ e = .filterPattern) ∧ t = raiseError e 1 s)
    ∨ (i = .gam ∧ ∃ m, t = raiseError .allZeroImage 6 { s with gmax := m }) := by
  rcases exec_cases h with rfl | ⟨-, -, rfl⟩ | ⟨-, -, rfl⟩ | ⟨hi, -, rfl⟩ | ⟨-, -, -, -, rfl⟩ | ⟨hi, -, rfl⟩
    | ⟨-, g, -, rfl⟩ | ⟨-, g, -, rfl⟩ | ⟨-, g, -, rfl⟩ | ⟨-, g, -, rfl⟩ | ⟨hi, m, rfl⟩ | ⟨-, m, px, -, rfl⟩
  -- The other instructions keep ERR or clear it.
  all_goals simp [h0] at ht
  · exact .inl ⟨hi, _, .inl rfl, rfl⟩
  · exact .inl ⟨hi, _, .inr rfl, rfl⟩
  · exact .inr ⟨hi, m, rfl⟩

/-- Settles O35: the fields of `raiseError`, from CHK and from GAM. -/
theorem errorEntryTouchesNothingElse : Obligations.ErrorEntryTouchesNothingElse := by
  intro i s t h0 h ht
  rcases exec_raises h0 h ht with ⟨hi, e, rfl | rfl, rfl⟩ | ⟨hi, m, rfl⟩
  · exact ⟨rfl, .inl ⟨hi, rfl, .inl rfl⟩⟩
  · exact ⟨rfl, .inl ⟨hi, rfl, .inr rfl⟩⟩
  · exact ⟨rfl, .inr ⟨hi, rfl⟩⟩

end Sys2Proof.Machine

end
